-- ==== Sys2Proof/Word.lean ====
section
/-! DEFINITION. The two word types of the block: bytes of IN and OUT, and the host's 32-bit registers (00_scope.md R10). -/

namespace Sys2Proof

/-- A byte of IN or OUT (R50). -/
abbrev Byte := BitVec 8

/-- A host-visible register, or a flag word (R22, R77). -/
abbrev Word := BitVec 32

end Sys2Proof
end

