-- ==== Sys2Proof/Config.lean ====
section
/-! DEFINITION. What an implementation fixes: the OPEN parameters of 00_scope.md R9, which the model takes as data, and the
free values the spec leaves unspecified, which no proof can see. -/

namespace Sys2Proof

/-- The OPEN parameters of R9. They stand in State, so that a statement about every state holds for every value of them
(log 6). -/
structure Params where
  /-- DEC_CHECK_NBITS: does DECODE check the header's nbits byte (R143)? -/
  decCheckNbits : Bool
  /-- OUT_CAP: how many bytes of OUT the host provides (R50, R58). -/
  outCap : Nat
  /-- MAX_IN_LEN: the largest legal IN_LEN (R25). -/
  maxInLen : Nat
  /-- REG_BASE: the bus address of the register file, in words (R22). -/
  regBase : Nat
deriving DecidableEq, Repr

/-- The parameters of State.reset. DEC_CHECK_NBITS = true is the spec's default (R9). The other three are OPEN.
DESIGN CHOICE (log 6): capacities that never turn a command away, and registers at bus address 0. -/
def Params.default : Params :=
  { decCheckNbits := true, outCap := 4294967296, maxInLen := 4294967295, regBase := 0 }

/-- FREE VALUE (log 1): the byte of IN at an address that the host has not placed a byte at. -/
opaque Config.freeInByte : Nat → Byte

/-- FREE VALUE (log 2): the byte of OUT at an address nothing was written to since draw `d` (R31, R228, U4). -/
opaque Config.freeOutByte : (d : Nat) → (address : Nat) → Byte

/-- FREE VALUE (log 2): OUT_LEN after the error that took draw `d` (R26, R228, U4). -/
opaque Config.freeOutLen : (d : Nat) → Word

end Sys2Proof
end

