-- ==== Sys2Proof/Syntax.lean ====
section
/-! DEFINITION. The instructions: one constructor per row of spec/opcode_table.json (30_encoding.md R93). -/

namespace Sys2Proof

/-- The two stream operations (R85), MATCH once per nbits, and the two host commands (R90).
A MATCH carries the operands of the spec's own notation `Match(jump, run)` (R12). -/
inductive Instr where
  /-- LIT: raw flag bit 1, operand the next byte of the literal pool (R147). -/
  | lit (b : Byte)
  /-- MATCH under nbits = 10: cell `rrrrrrjjjjjjjjjj` (R83, R148). -/
  | matchN10 (jump run : Nat)
  /-- MATCH under nbits = 11: cell `rrrrrjjjjjjjjjjj` (R83, R148). -/
  | matchN11 (jump run : Nat)
  /-- MATCH under nbits = 12: cell `rrrrjjjjjjjjjjjj` (R83, R148). -/
  | matchN12 (jump run : Nat)
  /-- MATCH under nbits = 13: cell `rrrjjjjjjjjjjjjj` (R83, R148). -/
  | matchN13 (jump run : Nat)
  /-- DECODE: the CTRL write with START = 1 and OP = 1; VARIANT and NBITS are stored and not read (R23, R140). -/
  | decode (variant nbits : BitVec 8)
  /-- ENCODE: the CTRL write with START = 1 and OP = 2 (R23, R180). -/
  | encode (variant nbits : BitVec 8)
deriving DecidableEq, Repr

end Sys2Proof
end

