-- ==== Sys2Proof/Machine/Operands.lean ====
section
/-! DEFINITION. Operand forms: byte order (20_memory.md R52), the constants of the container, and the token codec
(40_token_codec.md R100 to R104). All of it is pure. -/

namespace Sys2Proof.Machine

/-- `le_N(v)`: the n-byte little-endian byte string of v (R11). R11 defines it only for v < 2^(8n); a larger v gives the bytes of
its low 8n bits (DESIGN CHOICE, log 25). -/
def leBytes : Nat → Nat → List Byte
  | 0, _ => []
  | n + 1, v => BitVec.ofNat 8 v :: leBytes n (v / 256)

/-- The little-endian unsigned integer of a byte string, first byte lowest (R11, R52). -/
def leNat : List Byte → Nat
  | [] => 0
  | b :: bs => b.toNat + 256 * leNat bs

/-- `ceil(a/b)` (R10). -/
def ceilDiv (a b : Nat) : Nat := (a + b - 1) / b

/-- `pad4(x) = 4 × ceil(x/4)` (R10). -/
def pad4 (x : Nat) : Nat := 4 * ceilDiv x 4

/-- A pool followed by zero bytes up to a multiple of 4 (R81, R82, R190). -/
def padded (bs : List Byte) : List Byte := bs ++ List.replicate (pad4 bs.length - bs.length) 0

/-- The 4 signature bytes `55 6C 7A 1A` (R71). -/
def signatureBytes : List Byte := [0x55, 0x6C, 0x7A, 0x1A]

/-- The signature as the little-endian integer MemRead gives (R52, R141). -/
def signature : Nat := 0x1A7A6C55

/-- FLAG_BASE, the address of the first flag word (R9). -/
def flagBase : Nat := 0x10

/-- The largest value of a 24-bit size or offset field (R9: SIZE_W, OFF_W). -/
def max24 : Nat := 0xFFFFFF

/-- nbits ∈ {10, 11, 12, 13} (R7). -/
def nbitsLegal (nb : Nat) : Bool := nb == 10 || nb == 11 || nb == 12 || nb == 13

/-- variant ∈ {0, 2} (R8). -/
def variantLegal (v : Nat) : Bool := v == 0 || v == 2

/-- W = 2^nbits, the window and largest jump (R7, R182). -/
def windowOf (nb : Nat) : Nat := 2 ^ nb

/-- MAXRUN = 2^(16−nbits) + 2, the largest run (R7, R182). -/
def maxRunOf (nb : Nat) : Nat := 2 ^ (16 - nb) + 2

/-- MINRUN (R9). -/
def minRun : Nat := 3

/-- The cell formula of R100, masked to 16 bits. Outside TOKEN_ENCODE's domain, where the spec gives no value, it is R104's masked
pseudocode, with jump − 1 and run − 3 cut at 0 (DESIGN CHOICE, log 26); the step never makes that call (`tokenEncode`). -/
def tokenCell (jump run nb : Nat) : BitVec 16 :=
  BitVec.ofNat 16 ((((run - 3) <<< nb) ||| (jump - 1)) &&& 0xFFFF)

/-- The operands of a Match that TOKEN_ENCODE is defined for (R100), which are also those a cell can name (R83). -/
def tokenInRange (jump run nb : Nat) : Bool :=
  nbitsLegal nb && decide (1 ≤ jump) && decide (jump ≤ windowOf nb) && decide (minRun ≤ run) && decide (run ≤ maxRunOf nb)

/-- TOKEN_ENCODE (R100). Outside its domain it has no value, and the caller rejects the call by name (R104, U5; log 15). -/
def tokenEncode (jump run nb : Nat) : Option (BitVec 16) :=
  if tokenInRange jump run nb then some (tokenCell jump run nb) else none

/-- TOKEN_DECODE, on unbounded naturals for any nbits (R101, R102): the pair (jump, run). -/
def tokenDecode (cell : BitVec 16) (nb : Nat) : Nat × Nat :=
  ((cell.toNat &&& ((1 <<< nb) - 1)) + 1, (cell.toNat >>> nb) + 3)

/-- The 16-bit cell of two operand bytes, low byte first (R82). -/
def cellOf (lo hi : Byte) : BitVec 16 := BitVec.ofNat 16 (leNat [lo, hi])

end Sys2Proof.Machine
end

