-- ==== Sys2Proof/WellFormed.lean ====
section
/-! DEFINITION. Which terms of Instr are instructions: the operand ranges of the match cells (30_encoding.md R83). -/

namespace Sys2Proof

/-- A MATCH names a jump in [1, 2^nbits] and a run in [3, 2^(16−nbits) + 2] (R83). Every byte is a literal (R147), and any
8-bit VARIANT and NBITS can be written: their legality is checked when the command runs (R23). -/
def Instr.wf : Instr → Bool
  | .lit _ => true
  | .matchN10 jump run => Machine.tokenInRange jump run 10
  | .matchN11 jump run => Machine.tokenInRange jump run 11
  | .matchN12 jump run => Machine.tokenInRange jump run 12
  | .matchN13 jump run => Machine.tokenInRange jump run 13
  | .decode _ _ => true
  | .encode _ _ => true

end Sys2Proof
end

