-- ==== Sys2Proof/Decode.lean ====
section
/-! DEFINITION. The decoder and the encoder of instructions (30_encoding.md R83 to R93, 10_state.md R23). An operation's flag
bit and operand do not stand next to each other in memory: a `CodeWord` holds what the fetch gathers for one operation, or
one host write to CTRL. -/

namespace Sys2Proof

/-- What the decoder reads: one stream operation's raw flag bit (R78) with the operand bytes at its cursor (R86), or the
32-bit word of a host write to CTRL (R23). -/
inductive CodeWord where
  | op (raw : BitVec 1) (operand : List Byte)
  | ctrl (w : Word)
deriving DecidableEq, Repr

/-- Why a code word is no instruction of the opcode table. -/
inductive DecodeError where
  /-- A LIT has one operand byte, a MATCH two (R86). -/
  | operandLength
  /-- The opcode table has MATCH rows for nbits 10 to 13 only (R93; log 12). -/
  | nbitsWithoutRow
  /-- A CTRL write with START = 0 starts no command (R23). -/
  | notStarted
  /-- CTRL.OP 0 and 3 are reserved (R90, V1). -/
  | reservedOp
deriving DecidableEq, Repr

/-- CTRL[31], START (R23). -/
def ctrlStart (w : Word) : Bool := w.getLsbD 31

/-- CTRL[1:0], OP (R23). -/
def ctrlOp (w : Word) : BitVec 2 := w.extractLsb' 0 2

/-- CTRL[15:8], NBITS (R23). -/
def ctrlNbits (w : Word) : BitVec 8 := w.extractLsb' 8 8

/-- CTRL[23:16], VARIANT (R23). -/
def ctrlVariant (w : Word) : BitVec 8 := w.extractLsb' 16 8

/-- The MATCH of a cell under the mode value nbits: one row of the opcode table per legal nbits (R83, R93). -/
def decodeCell (nb : BitVec 8) (cell : BitVec 16) : Except DecodeError Instr :=
  let (jump, run) := Machine.tokenDecode cell nb.toNat
  if nb = 10 then .ok (.matchN10 jump run)
  else if nb = 11 then .ok (.matchN11 jump run)
  else if nb = 12 then .ok (.matchN12 jump run)
  else if nb = 13 then .ok (.matchN13 jump run)
  else .error .nbitsWithoutRow

/-- The command of a CTRL word (R90). Reserved bits are ignored (V2). -/
def decodeCtrl (w : Word) : Except DecodeError Instr :=
  if ctrlStart w then
    if ctrlOp w = 1 then .ok (.decode (ctrlVariant w) (ctrlNbits w))
    else if ctrlOp w = 2 then .ok (.encode (ctrlVariant w) (ctrlNbits w))
    else .error .reservedOp
  else .error .notStarted

/-- The instruction of a code word under the mode value nbits (R87). Total: what is no instruction is rejected by name. -/
def decode (nb : BitVec 8) : CodeWord → Except DecodeError Instr
  | .op raw operand =>
    if raw = 1 then
      match operand with
      | [b] => .ok (.lit b)
      | _ => .error .operandLength
    else
      match operand with
      | [lo, hi] => decodeCell nb (Machine.cellOf lo hi)
      | _ => .error .operandLength
  | .ctrl w => decodeCtrl w

/-- The code word of a MATCH: raw flag bit 0 and the little-endian cell (R82, R83, R85). It is total: an ill-formed MATCH, which
TOKEN_ENCODE has no value for (R104), gets the cell of the masked formula (DESIGN CHOICE, log 26). -/
def encodeMatch (nb jump run : Nat) : CodeWord :=
  .op 0 (Machine.leBytes 2 (Machine.tokenCell jump run nb).toNat)

/-- The CTRL word that starts command OP, reserved bits zero (R23). -/
def encodeCtrl (op : BitVec 2) (variant nbits : BitVec 8) : CodeWord :=
  .ctrl (0x80000000 ||| (variant.setWidth 32 <<< 16) ||| (nbits.setWidth 32 <<< 8) ||| op.setWidth 32)

/-- The encoder of instructions, from the layouts of R23, R83 and R85. -/
def encode : Instr → CodeWord
  | .lit b => .op 1 [b]
  | .matchN10 jump run => encodeMatch 10 jump run
  | .matchN11 jump run => encodeMatch 11 jump run
  | .matchN12 jump run => encodeMatch 12 jump run
  | .matchN13 jump run => encodeMatch 13 jump run
  | .decode variant nbits => encodeCtrl 1 variant nbits
  | .encode variant nbits => encodeCtrl 2 variant nbits

/-- The mode value nbits under which an instruction's code word is read back; `dflt` where the mode is not read (R87). -/
def modeOf (dflt : BitVec 8) : Instr → BitVec 8
  | .lit _ => dflt
  | .matchN10 _ _ => 10
  | .matchN11 _ _ => 11
  | .matchN12 _ _ => 12
  | .matchN13 _ _ => 13
  | .decode _ _ => dflt
  | .encode _ _ => dflt

/-- DESIGN CHOICE (log 10): the mode value under which a table word is read. The four MATCH rows share the table's one bit and
the table numbers no bit of the mode. -/
def tableNbits : BitVec 8 := 10

/-- The code word of an opcode-table word: 32 bits are a CTRL word, anything shorter is a stream operation with its raw flag
in bit 0 and its operand above (log 10). Bits of w at or above nbits are 0. -/
def tableCode (nbits w : Nat) : CodeWord :=
  let v := w % 2 ^ nbits
  if nbits = 32 then .ctrl (BitVec.ofNat 32 v)
  else if v.testBit 0 then .op 1 (Machine.leBytes 1 (v / 2))
  else .op 0 (Machine.leBytes 2 (v / 2))

/-- The instruction the decoder reads from an opcode-table word. -/
def decodeTableWord (nbits w : Nat) : Option Instr :=
  match decode tableNbits (tableCode nbits w) with
  | .ok i => some i
  | .error _ => none

end Sys2Proof
end

