-- ==== Sys2Proof/Machine/State.lean ====
section
/-! DEFINITION. The state of the block (10_state.md R20 to R38), its parameters (R9), the host actions still to come, and
State.reset (70_reset_and_hazards.md R250). Plain data throughout. -/

namespace Sys2Proof.Machine

/-- The stored fields of CTRL (R23). Reserved bits and START read 0 and are not stored (log 19). -/
structure Ctrl where
  op : BitVec 2
  nbits : BitVec 8
  variant : BitVec 8
deriving DecidableEq, Repr

/-- The fields of STATUS (R24). Reserved bits read 0 and are not stored (log 19). -/
structure Status where
  busy : Bool
  done : Bool
  error : Bool
  errcode : BitVec 4
  detail : BitVec 8
deriving DecidableEq, Repr

/-- PH, the engine's phase (R27). -/
inductive Phase where
  | idle | decHdr | decRun | decCopy | encCheck | encSearch | encAsm
deriving DecidableEq, Repr

/-- The header fields in the order DEC_HDR reads them, one a step (R141 to R144, R257). The model's own sub-phase (log 4). -/
inductive HdrField where
  | sig | size | variant | loff | nbits | moff
deriving DecidableEq, Repr

/-- The decoder's header registers (R28). -/
structure Header where
  size : BitVec 24
  var : BitVec 8
  loff : BitVec 24
  nb : BitVec 8
  moff : BitVec 24
deriving DecidableEq, Repr

/-- The decoder's three cursors, its program counter (R29). -/
structure Cursors where
  fc : Nat
  lc : Nat
  mc : Nat
deriving DecidableEq, Repr

/-- The flag queue: FQ, whose next bit to return is bit 31, and FQN, the count of valid bits (R30). -/
structure FlagQueue where
  bits : Word
  count : Nat
deriving DecidableEq, Repr

/-- The copy engine (R32). -/
structure CopyEngine where
  cbase : Nat
  cjump : Nat
  crun : Nat
  cr : Nat
deriving DecidableEq, Repr

/-- The encoder's working registers EN_N, EN_NB, EN_VAR, EN_W, EN_MAXRUN, EN_P (R33). -/
structure EncRegs where
  n : Nat
  nb : BitVec 8
  var : BitVec 8
  w : Nat
  maxrun : Nat
  p : Nat
deriving DecidableEq, Repr

/-- The encoder's work pools (R34): is_match bits, literal bytes, cell bytes, each in operation order. -/
structure Pools where
  flagbits : List Bool
  litpool : List Byte
  tokpool : List Byte
deriving DecidableEq, Repr

/-- A byte memory: (address, byte) pairs in canonical form, addresses strictly rising (`Memory.wf`). An unlisted address
holds no value of its own and reads as a free value (`State.inByte`, `State.outByte`; log 1). -/
abbrev Memory := List Host.Cell

/-- What the host can do to the block between two engine steps (R22, R50, R250, R252; log 5). -/
inductive HostAct where
  /-- The host does nothing; the engine makes a step. -/
  | wait
  /-- A 32-bit read of the register at a bus word address (R22). -/
  | readReg (addr : Nat)
  /-- A 32-bit write to the register at a bus word address (R22). -/
  | writeReg (addr : Nat) (w : Word)
  /-- The host places a byte of IN (R252 step 1). -/
  | writeIn (a : Nat) (b : Byte)
  /-- The host reads a byte of OUT (R252 step 5). -/
  | readOut (a : Nat)
  /-- The host writes a byte of OUT, which is its memory while no command runs (R256). -/
  | writeOut (a : Nat) (b : Byte)
  /-- Reset (R250). -/
  | reset
deriving DecidableEq, Repr

/-- The reasons of a ConfigError (R224). -/
inductive ConfigReason where
  | invalidNbits | emptyInput | invalidVariant | inputTooLarge | offsetOverflow | badOp
deriving DecidableEq, Repr

/-- The errors that abort a command (R220). IoError is reserved: no rule raises it (R225). -/
inductive Err where
  | formatError
  | unsupportedVariant
  | truncatedStream
  | configError (reason : ConfigReason)
  | ioError
  | badReference
deriving DecidableEq, Repr

/-- Why the model stops: accesses the spec gives no address for. None is reachable by a command from an admitted launch. -/
inductive Fault where
  /-- Raised by OutAppend, MemWrite and host accesses at an address ≥ OUT_CAP, which OUT does not have (R50). Safe. -/
  | outAddressAbsent
  /-- Raised by a host write at an IN address ≥ MAX_IN_LEN, which IN does not have (R9, R50). Safe. -/
  | inAddressAbsent
  /-- Raised by OutRead(i) with i ≥ OLEN, which R11 requires every caller to exclude (R37). Safe (log 13). -/
  | outReadPastEnd
deriving DecidableEq, Repr

/-- Why the model gives no move. -/
inductive Refusal where
  /-- An instruction without a meaning in the model. Raised by exec only. Safe. -/
  | notModelled (mnemonic : String)
  /-- A host write to CTRL or IN_LEN, or a START, while BUSY = 1: a host-duty violation (R22, R256, U7). Safe. -/
  | hostWriteWhileBusy
  /-- A host access to IN or OUT while BUSY = 1: a host-duty violation (R256, U7). Safe. -/
  | hostMemoryWhileBusy
  /-- A launch whose result would not fit in OUT_CAP bytes: not admitted (R58, R256, U7). Safe. -/
  | launchOutCapTooSmall
  /-- A launch with IN_LEN above MAX_IN_LEN, its largest legal value (R25): not admitted (log 8). Safe. -/
  | launchInLenTooLarge
  /-- TOKEN_ENCODE called outside its domain (R104, U5). The search never makes the call. Safe. -/
  | tokenEncodeOutOfDomain
deriving DecidableEq, Repr

/-- Everything the spec gives the machine, and the model's own fields `hdrNext`, `draw`, `inbox`, `busData`. -/
structure State where
  params : Params
  ctrl : Ctrl
  status : Status
  inLen : Word
  outLen : Word
  ph : Phase
  hdrNext : HdrField
  hdr : Header
  cur : Cursors
  fq : FlagQueue
  copy : CopyEngine
  enc : EncRegs
  pools : Pools
  inMem : Memory
  outMem : Memory
  olen : Nat
  draw : Nat
  inbox : List HostAct
  busData : Word
deriving DecidableEq, Repr

/-- The machine right after reset (R250): CTRL, STATUS, IN_LEN and OUT_LEN 0, PH IDLE, FQN 0, OLEN 0. DESIGN CHOICE (log 3):
the engine registers the spec leaves unspecified hold 0; their values are read by no command (R37). OUT lists nothing: its
bytes are draw 0 of the free values (R31). IN is the host's: nothing is placed. -/
def State.reset : State :=
  { params := Params.default
    ctrl := { op := 0, nbits := 0, variant := 0 }
    status := { busy := false, done := false, error := false, errcode := 0, detail := 0 }
    inLen := 0
    outLen := 0
    ph := .idle
    hdrNext := .sig
    hdr := { size := 0, var := 0, loff := 0, nb := 0, moff := 0 }
    cur := { fc := 0, lc := 0, mc := 0 }
    fq := { bits := 0, count := 0 }
    copy := { cbase := 0, cjump := 0, crun := 0, cr := 0 }
    enc := { n := 0, nb := 0, var := 0, w := 0, maxrun := 0, p := 0 }
    pools := { flagbits := [], litpool := [], tokpool := [] }
    inMem := []
    outMem := []
    olen := 0
    draw := 0
    inbox := []
    busData := 0 }

end Sys2Proof.Machine
end

