-- ==== Sys2Proof/Machine/Ops.lean ====
section
/-! DEFINITION. The named operations every meaning is built from: the two memories (20_memory.md R50 to R60, 00_scope.md
R11), error entry (60_exceptions.md R228) with the per-command initialisation that is the only way on from it (R229, R251),
and the two ways a command ends well (R152, R193). -/

namespace Sys2Proof.Machine

/-! ## Memory as data -/

/-- The value listed at an address, if any. -/
def Memory.read : Memory → Nat → Option Byte
  | [], _ => none
  | (k, v) :: m, a => if k = a then some v else Memory.read m a

/-- Writes one byte and keeps the addresses strictly rising. -/
def Memory.write : Memory → Nat → Byte → Memory
  | [], a, b => [(a, b)]
  | (k, v) :: m, a, b =>
    if a < k then (a, b) :: (k, v) :: m
    else if a = k then (a, b) :: m
    else (k, v) :: Memory.write m a b

/-- Every listed address is at least `lo`, and they rise strictly. -/
def Memory.risingFrom : Nat → Memory → Bool
  | _, [] => true
  | lo, (k, _) :: m => decide (lo ≤ k) && Memory.risingFrom (k + 1) m

/-- The canonical form: strictly rising addresses. An unlisted address holds no value, so no entry can equal it (log 1). -/
def Memory.wf (m : Memory) : Bool := Memory.risingFrom 0 m

/-- Writes a byte string at rising addresses from `a` (R11 MemWrite). -/
def Memory.writeBytes : Memory → Nat → List Byte → Memory
  | m, _, [] => m
  | m, a, b :: bs => Memory.writeBytes (Memory.write m a b) (a + 1) bs

/-! ## The two address spaces -/

/-- The byte of IN at an address: what the host placed there, or a free value (log 1). -/
def State.inByte (s : State) (a : Nat) : Byte := (Memory.read s.inMem a).getD (Config.freeInByte a)

/-- The byte of OUT at an address: what was written there, or a free value of the current draw (R31, R228; log 2). -/
def State.outByte (s : State) (a : Nat) : Byte := (Memory.read s.outMem a).getD (Config.freeOutByte s.draw a)

/-- The n bytes of IN from address a up. -/
def inBytes (s : State) (a n : Nat) : List Byte := (List.range n).map fun k => s.inByte (a + k)

/-- MemRead(a, n): the little-endian integer of n bytes of IN, or none where a + n > IN_LEN, in which case no byte is read
and the caller raises TruncatedStream (R11, R51). -/
def memRead (s : State) (a n : Nat) : Option Nat :=
  if s.inLen.toNat < a + n then none else some (leNat (inBytes s a n))

/-- OutRead(i), which requires i < OLEN (R11). -/
def outRead (s : State) (i : Nat) : Option Byte := if i < s.olen then some (s.outByte i) else none

/-- OUT[OLEN] <- b, then OLEN <- OLEN + 1 (R11). -/
def pushByte (b : Byte) (s : State) : State :=
  { s with outMem := Memory.write s.outMem s.olen b, olen := s.olen + 1 }

/-- OutAppend(b) (R11). None where OUT has no byte at OLEN (R50). -/
def outAppend (b : Byte) (s : State) : Option State :=
  if s.olen < s.params.outCap then some (pushByte b s) else none

/-- OUT[0 ..] <- the byte string, byte by byte (R193). -/
def writeOut (bs : List Byte) (s : State) : State := { s with outMem := Memory.writeBytes s.outMem 0 bs }

/-- MemWrite of a byte string at OUT[0 ..] (R11, R193). None where it does not fit in OUT (R50). -/
def outWriteAll (bs : List Byte) (s : State) : Option State :=
  if bs.length ≤ s.params.outCap then some (writeOut bs s) else none

/-! ## Errors -/

/-- ERRCODE of an error (R220). -/
def errCode : Err → BitVec 4
  | .formatError => 1
  | .unsupportedVariant => 2
  | .truncatedStream => 3
  | .configError _ => 4
  | .ioError => 5
  | .badReference => 6

/-- DETAIL of a ConfigError's reason (R224). -/
def reasonDetail : ConfigReason → BitVec 8
  | .invalidNbits => 1
  | .emptyInput => 2
  | .invalidVariant => 3
  | .inputTooLarge => 4
  | .offsetOverflow => 5
  | .badOp => 6

/-- DETAIL of an error: 0 unless it is a ConfigError (R228). -/
def errDetail : Err → BitVec 8
  | .configError reason => reasonDetail reason
  | _ => 0

/-- STATUS after a command is aborted by an error (R228). -/
def statusError (e : Err) : Status :=
  { busy := false, done := false, error := true, errcode := errCode e, detail := errDetail e }

/-- STATUS while a command runs (R251). -/
def statusBusy : Status := { busy := true, done := false, error := false, errcode := 0, detail := 0 }

/-- STATUS after a command ended without error (R152, R193). -/
def statusDone : Status := { busy := false, done := true, error := false, errcode := 0, detail := 0 }

/-- ERROR ENTRY, `raise E` (R228): the command is aborted, STATUS reports the error, PH <- IDLE, and OUT and OUT_LEN become
the next draw of the free values. No other state is saved or changed. -/
def raiseError (e : Err) (s : State) : State :=
  { s with
    status := statusError e
    ph := .idle
    outMem := []
    outLen := Config.freeOutLen (s.draw + 1)
    draw := s.draw + 1 }

/-- PER-COMMAND INITIALISATION, the first two steps of every START (R251), with the pools emptied (R34). There is no return
from an error: this is the only operation that clears one (R229). -/
def beginCommand (s : State) : State :=
  { s with
    status := statusBusy
    olen := 0
    pools := { flagbits := [], litpool := [], tokpool := [] } }

/-- FINISH_DECODE (R152). -/
def finishDecode (s : State) : State :=
  { s with outLen := s.hdr.size.setWidth 32, status := statusDone, ph := .idle }

/-- The loop test of the decoder (R140, R146): while OLEN < SIZE it runs on, otherwise it is Done. The model makes the test at
the end of the step that changed OLEN, so that DEC_RUN means OLEN < SIZE (R27; log 7). -/
def loopTest (s : State) : State :=
  if s.olen < s.hdr.size.toNat then { s with ph := .decRun } else finishDecode s

/-- A CTRL write stores OP, NBITS and VARIANT (R23). -/
def storeCtrl (op : BitVec 2) (nbits variant : BitVec 8) (s : State) : State :=
  { s with ctrl := { op := op, nbits := nbits, variant := variant } }

end Sys2Proof.Machine
end

