-- ==== Sys2Proof/Machine/Flags.lean ====
section
/-! DEFINITION. The flags: the words the host reads for CTRL and STATUS (10_state.md R23, R24), and the flag stream, its
unpacker FLAG_NEXT and its packer FLAG_PACK (41_flag_stream.md R120 to R126). -/

namespace Sys2Proof.Machine

/-- The word a host read of CTRL returns: reserved bits and START read 0 (R23). -/
def ctrlWord (c : Ctrl) : Word :=
  (c.variant.setWidth 32 <<< 16) ||| (c.nbits.setWidth 32 <<< 8) ||| c.op.setWidth 32

/-- The word a host read of STATUS returns: reserved bits read 0 (R24). -/
def statusWord (t : Status) : Word :=
  (t.detail.setWidth 32 <<< 8) ||| (t.errcode.setWidth 32 <<< 4) |||
    ((BitVec.ofBool t.error).setWidth 32 <<< 2) ||| ((BitVec.ofBool t.done).setWidth 32 <<< 1) |||
    (BitVec.ofBool t.busy).setWidth 32

/-! ## Unpacking -/

/-- The flag queue filled from a raw flag word: all 32 bits inverted, and in format 0 the marker, bit 31, dropped (R120, R122). -/
def refillQueue (var : BitVec 8) (w : Word) : FlagQueue :=
  if var = 0 then { bits := ~~~w <<< 1, count := 31 } else { bits := ~~~w, count := 32 }

/-- The state once the word w at FC has been taken: FC moves by 4 and the queue is filled (R120). -/
def takeFlagWord (w : Nat) (s : State) : State :=
  { s with
    cur := { s.cur with fc := s.cur.fc + 4 }
    fq := refillQueue s.hdr.var (BitVec.ofNat 32 w) }

/-- The refill of FLAG_NEXT (R120, R121): a word is read only when FQN = 0. None where the word at FC passes IN_LEN. -/
def flagRefill (s : State) : Option State :=
  if s.fq.count = 0 then (memRead s s.cur.fc 4).map fun w => takeFlagWord w s else some s

/-- The pop of FLAG_NEXT (R120): bit 31 of FQ, most significant first. -/
def flagPop (s : State) : Bool × State :=
  (s.fq.bits.getLsbD 31, { s with fq := { bits := s.fq.bits <<< 1, count := s.fq.count - 1 } })

/-- FLAG_NEXT (R120): is_match and the state after it, or none where a refill raises TruncatedStream, with FC, FQ and FQN
unchanged. -/
def flagNext (s : State) : Option (Bool × State) := (flagRefill s).map flagPop

/-! ## Packing -/

/-- B, the flags per word of a variant (R123). -/
def flagsPerWord (variant : BitVec 8) : Nat := if variant = 2 then 32 else 31

/-- One data word: the flags f[0 ..] of its chunk from bit B − 1 down, raw 1 for a literal, padding 0 below (R123, R124).
`bitsLeft` counts the bit positions below the next flag. -/
def packFlags : (bitsLeft : Nat) → List Bool → Nat
  | _, [] => 0
  | 0, _ => 0
  | k + 1, isMatch :: fs => (if isMatch then 0 else 2 ^ k) + packFlags k fs

/-- The data word of a chunk, with the format-0 marker in bit 31 (R79, R124). -/
def flagWord (variant : BitVec 8) (chunk : List Bool) : Nat :=
  (if variant = 0 then 2 ^ 31 else 0) + packFlags (flagsPerWord variant) chunk

/-- The data words of a flag section, at most `fuel` of them, each little-endian (R123). -/
def packWords (variant : BitVec 8) : (fuel : Nat) → List Bool → List Byte
  | 0, _ => []
  | _, [] => []
  | fuel + 1, f :: fs =>
    leBytes 4 (flagWord variant ((f :: fs).take (flagsPerWord variant))) ++
      packWords variant fuel ((f :: fs).drop (flagsPerWord variant))

/-- FLAG_PACK (R123): ceil(n/B) data words, and in format 0 the terminator word (R125). Outside R123's operands, with no flag or a
variant other than 0 and 2, it is R123's pseudocode applied unchanged (DESIGN CHOICE, log 28). -/
def flagPack (f : List Bool) (variant : BitVec 8) : List Byte :=
  packWords variant (ceilDiv f.length (flagsPerWord variant)) f ++ (if variant = 0 then leBytes 4 0 else [])

end Sys2Proof.Machine
end

