-- ==== Sys2Proof/Machine/Decoder.lean ====
section
/-! DEFINITION. The decoder (42_decoder.md): the header parse, one field a step; the fetch of one operation; the meanings of
LIT and MATCH; and the copy engine, one byte a step. -/

namespace Sys2Proof.Machine

/-! ## Header parse -/

/-- INIT_DECODE (R145). -/
def initDecode (s : State) : State :=
  { s with
    cur := { fc := flagBase, lc := s.hdr.loff.toNat, mc := s.hdr.moff.toNat }
    fq := { s.fq with count := 0 }
    olen := 0 }

/-- A header read of n bytes at a: TruncatedStream, or the rest of the field's rule on the value read (R51, R141 to R144). -/
def hdrRead (s : State) (a n : Nat) (k : Nat → State) : State :=
  match memRead s a n with
  | none => raiseError .truncatedStream s
  | some v => k v

/-- The signature and its check (R141). -/
def hdrSig (s : State) : State :=
  hdrRead s 0 4 fun v => if v = signature then { s with hdrNext := .size } else raiseError .formatError s

/-- uncompressed_size (R142). -/
def hdrSize (s : State) : State :=
  hdrRead s 4 3 fun v => { s with hdr := { s.hdr with size := BitVec.ofNat 24 v }, hdrNext := .variant }

/-- The variant byte, loaded and then checked (R142). -/
def hdrVariant (s : State) : State :=
  hdrRead s 7 1 fun v =>
    let s1 := { s with hdr := { s.hdr with var := BitVec.ofNat 8 v } }
    if variantLegal v then { s1 with hdrNext := .loff } else raiseError .unsupportedVariant s1

/-- literal_section_offset (R143). -/
def hdrLoff (s : State) : State :=
  hdrRead s 8 3 fun v => { s with hdr := { s.hdr with loff := BitVec.ofNat 24 v }, hdrNext := .nbits }

/-- The nbits byte, loaded and, where DEC_CHECK_NBITS, checked (R143, U1). -/
def hdrNbits (s : State) : State :=
  hdrRead s 11 1 fun v =>
    let s1 := { s with hdr := { s.hdr with nb := BitVec.ofNat 8 v } }
    if nbitsLegal v || !s.params.decCheckNbits then { s1 with hdrNext := .moff }
    else raiseError (.configError .invalidNbits) s1

/-- match_section_offset: 4 bytes read, the low 3 kept (R144). The header is then read in full: INIT_DECODE and the first loop
test (R140, R145, R155). -/
def hdrMoff (s : State) : State :=
  hdrRead s 12 4 fun v =>
    loopTest (initDecode { s with hdr := { s.hdr with moff := BitVec.ofNat 24 (v &&& 0xFFFFFF) } })

/-- One step of DEC_HDR: the next header field (R257). -/
def hdrStep (s : State) : State :=
  match s.hdrNext with
  | .sig => hdrSig s
  | .size => hdrSize s
  | .variant => hdrVariant s
  | .loff => hdrLoff s
  | .nbits => hdrNbits s
  | .moff => hdrMoff s

/-! ## Fetch -/

/-- What the fetch of one operation gives: the raw flag bit, the operand bytes and the state FLAG_NEXT left, or the state in
which a read raised TruncatedStream. -/
inductive Fetched where
  | truncated (s : State)
  | op (raw : BitVec 1) (operand : List Byte) (s : State)
deriving DecidableEq, Repr

/-- The raw flag bit of an operation: the inverse of is_match (R78, R85). -/
def rawFlag (isMatch : Bool) : BitVec 1 := if isMatch then 0 else 1

/-- The operand bytes of an operation: one byte at LC for a LIT, two at MC for a MATCH (R86). None past IN_LEN (R51). -/
def fetchOperand (isMatch : Bool) (s : State) : Option (List Byte) :=
  if isMatch then (memRead s s.cur.mc 2).map (leBytes 2) else (memRead s s.cur.lc 1).map (leBytes 1)

/-- Dispatch (R146): FLAG_NEXT, then the operand at its cursor. The operation's own meaning moves that cursor. -/
def fetchOp (s : State) : Fetched :=
  match flagNext s with
  | none => .truncated s
  | some (isMatch, s1) =>
    match fetchOperand isMatch s1 with
    | none => .truncated s1
    | some operand => .op (rawFlag isMatch) operand s1

/-! ## The operations -/

/-- LC <- LC + 1 (R147). -/
def advanceLc (s : State) : State := { s with cur := { s.cur with lc := s.cur.lc + 1 } }

/-- MC <- MC + 2 (R148). -/
def advanceMc (s : State) : State := { s with cur := { s.cur with mc := s.cur.mc + 2 } }

/-- The copy engine is loaded: CBASE <- OLEN, CJUMP, CRUN, CR <- 0, PH <- DEC_COPY (R149). -/
def loadCopy (jump run : Nat) (s : State) : State :=
  { s with copy := { cbase := s.olen, cjump := jump, crun := run, cr := 0 }, ph := .decCopy }

/-- LIT (R147). TruncatedStream where the literal's byte passes IN_LEN; otherwise LC moves by 1 and b is appended. -/
def execLit (b : Byte) (s : State) : Host.Outcome State Fault Refusal :=
  if s.inLen.toNat < s.cur.lc + 1 then .next (raiseError .truncatedStream s)
  else
    match outAppend b (advanceLc s) with
    | some t => .next t
    | none => .fault .outAddressAbsent

/-- The start of COPY (R149): the copy engine is loaded, and a jump beyond the output so far raises BadReference (R151). -/
def copyStart (jump run : Nat) (s : State) : State :=
  if s.olen < jump then raiseError .badReference (loadCopy jump run s) else loadCopy jump run s

/-- OP_MATCH with its token decoded (R148): TruncatedStream where the cell passes IN_LEN; otherwise MC moves by 2 and COPY
starts. The bytes are copied by the steps of DEC_COPY (R257). -/
def opMatch (jump run : Nat) (s : State) : State :=
  if s.inLen.toNat < s.cur.mc + 2 then raiseError .truncatedStream s else copyStart jump run (advanceMc s)

/-- MATCH.N10 (R148). -/
def execMatchN10 (jump run : Nat) (s : State) : Host.Outcome State Fault Refusal := .next (opMatch jump run s)

/-- MATCH.N11 (R148). -/
def execMatchN11 (jump run : Nat) (s : State) : Host.Outcome State Fault Refusal := .next (opMatch jump run s)

/-- MATCH.N12 (R148). -/
def execMatchN12 (jump run : Nat) (s : State) : Host.Outcome State Fault Refusal := .next (opMatch jump run s)

/-- MATCH.N13 (R148). -/
def execMatchN13 (jump run : Nat) (s : State) : Host.Outcome State Fault Refusal := .next (opMatch jump run s)

/-- A MATCH under an nbits the opcode table has no row for, reached only with DEC_CHECK_NBITS = false: the same operation on
the token R102 gives (log 12). -/
def execMatchOther (operand : List Byte) (s : State) : Host.Outcome State Fault Refusal :=
  let (jump, run) := tokenDecode (BitVec.ofNat 16 (leNat operand)) s.hdr.nb.toNat
  .next (opMatch jump run s)

/-! ## The copy engine -/

/-- Is the copy over: all run bytes appended, or OLEN = SIZE (R149, R150)? -/
def copyOver (s : State) : Bool := !(decide (s.copy.cr < s.copy.crun) && s.olen != s.hdr.size.toNat)

/-- The end of a copy, if it is over: PH <- DEC_RUN and the loop test (R149, R150, R140). -/
def copyEnd (s : State) : State := if copyOver s then loopTest { s with ph := .decRun } else s

/-- CR <- CR + 1 (R149). -/
def countCopied (s : State) : State := { s with copy := { s.copy with cr := s.copy.cr + 1 } }

/-- One step of DEC_COPY: one byte, OUT[CBASE − CJUMP + CR] (R149). -/
def copyStep (s : State) : Host.Outcome State Fault Refusal :=
  if copyOver s then .next (copyEnd s)
  else
    match outRead s (s.copy.cbase - s.copy.cjump + s.copy.cr) with
    | none => .fault .outReadPastEnd
    | some b =>
      match outAppend b s with
      | none => .fault .outAddressAbsent
      | some t => .next (copyEnd (countCopied t))

end Sys2Proof.Machine
end

