-- ==== Sys2Proof/Machine/Encoder.lean ====
section
/-! DEFINITION. The encoder (43_encoder.md): the parameter checks, the greedy match search, the pools and the assembly. -/

namespace Sys2Proof.Machine

/-! ## Parameter checks -/

/-- ENC_CHECK (R181): the four checks in their order, each register loaded before its check; the first that fails raises. The step
ends with ENC_SEARCH's first act, EN_P <- 0 (R186): R257 names no step for it, and the model puts it here (log 7, DEDUCED). -/
def encCheckStep (s : State) : State :=
  let s1 := { s with enc := { s.enc with nb := s.ctrl.nbits } }
  if !nbitsLegal s1.enc.nb.toNat then raiseError (.configError .invalidNbits) s1 else
  let s2 := { s1 with enc := { s1.enc with var := s.ctrl.variant } }
  if !variantLegal s2.enc.var.toNat then raiseError (.configError .invalidVariant) s2 else
  let s3 := { s2 with enc := { s2.enc with n := s.inLen.toNat } }
  if s3.enc.n = 0 then raiseError (.configError .emptyInput) s3 else
  if max24 < s3.enc.n then raiseError (.configError .inputTooLarge) s3 else
  { s3 with
    enc := { s3.enc with w := windowOf s3.enc.nb.toNat, maxrun := maxRunOf s3.enc.nb.toNat, p := 0 }
    pools := { flagbits := [], litpool := [], tokpool := [] }
    ph := .encSearch }

/-! ## The match finder -/

/-- One operation of a stream (R12, R85). -/
inductive Op where
  | literal (b : Byte)
  | mat (jump run : Nat)
deriving DecidableEq, Repr

/-- LEN(p, d) from length l on, with `left` comparisons still allowed (R184). The addresses lie below EN_N = IN_LEN (log 14). -/
def lenFrom (s : State) (p d : Nat) : (left l : Nat) → Nat
  | 0, l => l
  | left + 1, l => if s.inByte (p + l) = s.inByte (p - d + l) then lenFrom s p d left (l + 1) else l

/-- LEN(p, d) (R184). -/
def matchLen (s : State) (p d : Nat) : Nat := lenFrom s p d (min s.enc.maxrun (s.enc.n - p)) 0

/-- One round of MATCH_FIND's loop: a strictly longer match replaces the best one, so ties keep the smaller d (R185). -/
def better (s : State) (p : Nat) (best : Nat × Nat) (d : Nat) : Nat × Nat :=
  if best.2 < matchLen s p d then (d, matchLen s p d) else best

/-- The best (distance, length) over d = 1 .. min(W, p), ascending (R183, R185). -/
def bestMatch (s : State) (p : Nat) : Nat × Nat :=
  ((List.range (min s.enc.w p)).map (· + 1)).foldl (better s p) (0, 0)

/-- MATCH_FIND(p) (R185). -/
def matchFind (s : State) (p : Nat) : Op :=
  if minRun ≤ (bestMatch s p).2 then .mat (bestMatch s p).1 (bestMatch s p).2 else .literal (s.inByte p)

/-! ## The pools -/

/-- EMIT of a Literal: its flag bit and its byte (R187, R189). -/
def emitLiteral (b : Byte) (s : State) : State :=
  { s with pools := { s.pools with flagbits := s.pools.flagbits ++ [false], litpool := s.pools.litpool ++ [b] } }

/-- EMIT of a Match: its flag bit and its cell, low byte first (R188, R189). -/
def emitCell (cell : BitVec 16) (s : State) : State :=
  { s with pools := { s.pools with
    flagbits := s.pools.flagbits ++ [true], tokpool := s.pools.tokpool ++ leBytes 2 cell.toNat } }

/-- EMIT (R187 to R189). None where TOKEN_ENCODE has no value (R104). -/
def emitOp (op : Op) (s : State) : Option State :=
  match op with
  | .literal b => some (emitLiteral b s)
  | .mat jump run => (tokenEncode jump run s.enc.nb.toNat).map fun cell => emitCell cell s

/-- How many input bytes an operation covers (R186). -/
def opSpan : Op → Nat
  | .literal _ => 1
  | .mat _ run => run

/-- EN_P moves by what an operation covers (R186). -/
def advanceP (span : Nat) (s : State) : State := { s with enc := { s.enc with p := s.enc.p + span } }

/-- The loop test of ENC_SEARCH (R186), made at the end of the step that moved EN_P (log 7). -/
def searchTest (s : State) : State := if s.enc.p < s.enc.n then s else { s with ph := .encAsm }

/-- One step of ENC_SEARCH: one MATCH_FIND, its EMIT, and the advance of EN_P (R186, R257). -/
def searchStep (s : State) : Host.Outcome State Fault Refusal :=
  if s.enc.p < s.enc.n then
    match emitOp (matchFind s s.enc.p) s with
    | none => .refused .tokenEncodeOutOfDomain
    | some t => .next (searchTest (advanceP (opSpan (matchFind s s.enc.p)) t))
  else .next (searchTest s)

/-! ## Assembly -/

/-- NOPS = |FLAGBITS| (R34). -/
def Pools.nops (q : Pools) : Nat := q.flagbits.length

/-- NLIT = |LITPOOL| (R34). -/
def Pools.nlit (q : Pools) : Nat := q.litpool.length

/-- NMATCH = |TOKPOOL| / 2 (R34). -/
def Pools.nmatch (q : Pools) : Nat := q.tokpool.length / 2

/-- LOFF_E = 16 + |FLAGS| (R190). -/
def loffE (s : State) : Nat := 16 + (flagPack s.pools.flagbits s.enc.var).length

/-- MOFF_E = LOFF_E + pad4(NLIT) (R190). -/
def moffE (s : State) : Nat := loffE s + pad4 s.pools.nlit

/-- HDR, the 16 header bytes (R192). -/
def headerBytes (s : State) : List Byte :=
  signatureBytes ++ leBytes 3 s.enc.n ++ leBytes 1 s.enc.var.toNat ++ leBytes 3 (loffE s) ++ leBytes 1 s.enc.nb.toNat ++
    leBytes 4 (moffE s)

/-- C = HDR ++ FLAGS ++ LITSEC ++ TOKSEC (R190, R193). -/
def container (s : State) : List Byte :=
  headerBytes s ++ flagPack s.pools.flagbits s.enc.var ++ padded s.pools.litpool ++ padded s.pools.tokpool

/-- The end of ENC_ASSEMBLE: OLEN, OUT_LEN, STATUS and PH (R193). -/
def finishEncode (total : Nat) (s : State) : State :=
  { s with olen := total, outLen := BitVec.ofNat 32 total, status := statusDone, ph := .idle }

/-- ENC_ASSEMBLE, one step: the offset check before anything is written (R191), then the container in OUT (R193). -/
def asmStep (s : State) : Host.Outcome State Fault Refusal :=
  if max24 < moffE s then .next (raiseError (.configError .offsetOverflow) s)
  else
    match outWriteAll (container s) s with
    | none => .fault .outAddressAbsent
    | some t => .next (finishEncode (container s).length t)

end Sys2Proof.Machine
end

