-- ==== Sys2Proof/Machine/Commands.lean ====
section
/-! DEFINITION. The host commands (30_encoding.md R90): what START does, and which launches the model admits
(70_reset_and_hazards.md R251, R252, R256). -/

namespace Sys2Proof.Machine

/-! ## Which launches are admitted -/

/-- The declared size of the container in IN where its header passes every check of R141 to R144, and none where DECODE
would raise an error in the header and so have no result. -/
def declaredSize (s : State) : Option Nat :=
  match memRead s 0 4, memRead s 4 3, memRead s 7 1, memRead s 11 1, memRead s 12 4 with
  | some sig, some size, some var, some nb, some _ =>
    if sig = signature ∧ variantLegal var ∧ (nbitsLegal nb || !s.params.decCheckNbits) then some size else none
  | _, _, _, _, _ => none

/-- The bound of R194 on the container of an input of n bytes. -/
def encodeBound (n : Nat) : Nat := 16 + 4 * (ceilDiv n 31 + 1) + n + 6

/-- OUT_CAP holds DECODE's result: at least SIZE, where there is one (R58). -/
def decodeFits (s : State) : Bool := ((declaredSize s).getD 0) ≤ s.params.outCap

/-- OUT_CAP holds ENCODE's result: at least the bound of R194, where the parameter checks of R181 pass (R58). -/
def encodeFits (s : State) : Bool :=
  !(nbitsLegal s.ctrl.nbits.toNat && variantLegal s.ctrl.variant.toNat && decide (0 < s.inLen.toNat) &&
      decide (s.inLen.toNat ≤ max24)) ||
    decide (encodeBound s.inLen.toNat ≤ s.params.outCap)

/-! ## START -/

/-- A launch (R23, R251, R256): refused while BUSY, and where the host has not kept its duties (U7; log 8, log 9). Otherwise the
command's fields are stored, the command's state is fresh, and the engine enters the command's first phase. -/
def launch (op : BitVec 2) (variant nbits : BitVec 8) (fits : State → Bool) (ph : Phase) (s : State) :
    Host.Outcome State Fault Refusal :=
  let s1 := storeCtrl op nbits variant s
  if s.status.busy then .refused .hostWriteWhileBusy
  else if s.params.maxInLen < s.inLen.toNat then .refused .launchInLenTooLarge
  else if fits s1 then .next { beginCommand s1 with ph := ph, hdrNext := .sig }
  else .refused .launchOutCapTooSmall

/-- DECODE (R140): the engine enters DEC_HDR. NBITS and VARIANT are stored and not read. -/
def execDecode (variant nbits : BitVec 8) (s : State) : Host.Outcome State Fault Refusal :=
  launch 1 variant nbits decodeFits .decHdr s

/-- ENCODE (R180): the engine enters ENC_CHECK. -/
def execEncode (variant nbits : BitVec 8) (s : State) : Host.Outcome State Fault Refusal :=
  launch 2 variant nbits encodeFits .encCheck s

/-- START with a reserved OP (R224 detail 6, R251): the fields are stored, the first two steps of a START happen, and
ConfigError BadOp is raised. -/
def startBadOp (w : Word) (s : State) : State :=
  raiseError (.configError .badOp) (beginCommand (storeCtrl (ctrlOp w) (ctrlNbits w) (ctrlVariant w) s))

end Sys2Proof.Machine
end

