-- ==== Sys2Proof/Machine/Dispatch.lean ====
section
/-! DEFINITION. exec: one arm per instruction, each one call of its meaning. -/

namespace Sys2Proof.Machine

def exec (i : Instr) (s : State) : Host.Outcome State Fault Refusal :=
  match i with
  | .lit b => Sys2Proof.Machine.execLit b s
  | .matchN10 jump run => Sys2Proof.Machine.execMatchN10 jump run s
  | .matchN11 jump run => Sys2Proof.Machine.execMatchN11 jump run s
  | .matchN12 jump run => Sys2Proof.Machine.execMatchN12 jump run s
  | .matchN13 jump run => Sys2Proof.Machine.execMatchN13 jump run s
  | .decode variant nbits => Sys2Proof.Machine.execDecode variant nbits s
  | .encode variant nbits => Sys2Proof.Machine.execEncode variant nbits s

end Sys2Proof.Machine
end

