-- ==== Sys2Proof/Machine/Engine.lean ====
section
/-! DEFINITION. One step of the codec engine, by its phase (10_state.md R27, 70_reset_and_hazards.md R257). -/

namespace Sys2Proof.Machine

/-- Runs one fetched operation: the instruction the decoder reads under NB, or a MATCH under an nbits without a row of the
opcode table (R87, R102; log 12). -/
def runOp (raw : BitVec 1) (operand : List Byte) (s : State) : Host.Outcome State Fault Refusal :=
  match decode s.hdr.nb (.op raw operand) with
  | .ok i => exec i s
  | .error _ => execMatchOther operand s

/-- The loop test after an operation that left the engine in DEC_RUN (R140). -/
def afterOp : Host.Outcome State Fault Refusal → Host.Outcome State Fault Refusal
  | .next s => .next (if s.ph = .decRun then loopTest s else s)
  | .fault r => .fault r
  | .refused r => .refused r

/-- One step of DEC_RUN: one operation (R146, R257). -/
def runStep (s : State) : Host.Outcome State Fault Refusal :=
  if s.olen < s.hdr.size.toNat then
    match fetchOp s with
    | .truncated t => .next (raiseError .truncatedStream t)
    | .op raw operand t => afterOp (runOp raw operand t)
  else .next (finishDecode s)

/-- One step of the engine. In IDLE nothing happens: only a host START leaves it (R238). -/
def engineStep (s : State) : Host.Outcome State Fault Refusal :=
  match s.ph with
  | .idle => .next s
  | .decHdr => .next (hdrStep s)
  | .decRun => runStep s
  | .decCopy => copyStep s
  | .encCheck => .next (encCheckStep s)
  | .encSearch => searchStep s
  | .encAsm => asmStep s

end Sys2Proof.Machine
end

