-- ==== Sys2Proof/Machine/Port.lean ====
section
/-! DEFINITION. The host's side of the block: the register file (10_state.md R22 to R26), the host's accesses to IN and OUT
(20_memory.md R61, 70_reset_and_hazards.md R252, R256) and the reset event (R250). -/

namespace Sys2Proof.Machine

/-- The register index of a bus word address: its offset from REG_BASE (R22). DESIGN CHOICE (log 24): an address below REG_BASE
is treated as an index the block does not have. -/
def regIndex (p : Params) (addr : Nat) : Option Nat := if p.regBase ≤ addr then some (addr - p.regBase) else none

/-- OUT_LEN as the host reads it: OLEN while BUSY (R26). -/
def outLenWord (s : State) : Word := if s.status.busy then BitVec.ofNat 32 s.olen else s.outLen

/-- A host read of a register (R22): an index other than 0 to 3 reads 0 (V6). -/
def readReg (s : State) (addr : Nat) : Word :=
  match regIndex s.params addr with
  | some 0 => ctrlWord s.ctrl
  | some 1 => statusWord s.status
  | some 2 => s.inLen
  | some 3 => outLenWord s
  | _ => 0

/-- A host write to CTRL (R23): START = 1 runs the instruction the word encodes, a reserved OP raises BadOp (V1), and
START = 0 only stores the fields. While BUSY it has no move (R22). -/
def writeCtrl (w : Word) (s : State) : Host.Outcome State Fault Refusal :=
  match decodeCtrl w with
  | .ok i => exec i s
  | .error e =>
    if s.status.busy then .refused .hostWriteWhileBusy
    else if e = .reservedOp then .next (startBadOp w s)
    else .next (storeCtrl (ctrlOp w) (ctrlNbits w) (ctrlVariant w) s)

/-- A host write to IN_LEN (R25). While BUSY it has no move (R22). -/
def writeInLen (w : Word) (s : State) : Host.Outcome State Fault Refusal :=
  if s.status.busy then .refused .hostWriteWhileBusy else .next { s with inLen := w }

/-- A host write to a register (R22): STATUS, OUT_LEN and any other index ignore it. -/
def writeReg (addr : Nat) (w : Word) (s : State) : Host.Outcome State Fault Refusal :=
  match regIndex s.params addr with
  | some 0 => writeCtrl w s
  | some 2 => writeInLen w s
  | _ => .next s

/-- The host places a byte of IN (R252). While BUSY it has no move (R256). -/
def hostWriteIn (a : Nat) (b : Byte) (s : State) : Host.Outcome State Fault Refusal :=
  if s.status.busy then .refused .hostMemoryWhileBusy
  else if a < s.params.maxInLen then .next { s with inMem := Memory.write s.inMem a b }
  else .fault .inAddressAbsent

/-- The host reads a byte of OUT into `busData` (R252). While BUSY it has no move (R256). R61 promises the command's bytes only once
the host has read STATUS with BUSY = 0 and DONE = 1; the model shows them as soon as BUSY is 0, with or without that read
(DESIGN CHOICE, log 27). -/
def hostReadOut (a : Nat) (s : State) : Host.Outcome State Fault Refusal :=
  if s.status.busy then .refused .hostMemoryWhileBusy
  else if a < s.params.outCap then .next { s with busData := (s.outByte a).setWidth 32 }
  else .fault .outAddressAbsent

/-- The host writes a byte of OUT. While BUSY it has no move (R256). -/
def hostWriteOut (a : Nat) (b : Byte) (s : State) : Host.Outcome State Fault Refusal :=
  if s.status.busy then .refused .hostMemoryWhileBusy
  else if a < s.params.outCap then .next { s with outMem := Memory.write s.outMem a b }
  else .fault .outAddressAbsent

/-- Reset (R250): every register as in State.reset; the contents of OUT are the next draw; IN, the parameters and the host's
own actions are not touched. -/
def resetEvent (s : State) : State :=
  { State.reset with
    params := s.params, inMem := s.inMem, draw := s.draw + 1, inbox := s.inbox, busData := s.busData }

/-- One host action. -/
def hostStep (act : HostAct) (s : State) : Host.Outcome State Fault Refusal :=
  match act with
  | .wait => .next s
  | .readReg addr => .next { s with busData := readReg s addr }
  | .writeReg addr w => writeReg addr w s
  | .writeIn a b => hostWriteIn a b s
  | .readOut a => hostReadOut a s
  | .writeOut a b => hostWriteOut a b s
  | .reset => .next (resetEvent s)

/-- The bytes `withFetchWord` places at the start of the flag section, and the operand after them (log 11): a format-2 flag word
whose first raw flag is the operation's, then the operand bytes. -/
def fetchImage (raw : BitVec 1) (operand : List Byte) : List Byte :=
  leBytes 4 (raw.toNat * 2 ^ 31) ++ operand

/-- The state in which the next step fetches exactly the code word c (log 11): for a CTRL word, IDLE with that write as the
host's next action; for a stream operation, the state INIT_DECODE leaves (R145) for a container of format 2 with the
operation's flag word at FLAG_BASE and its operand at LOFF = MOFF = 0x14. -/
def placeCode (c : CodeWord) (s : State) : State :=
  match c with
  | .ctrl w =>
    { s with
      status := { s.status with busy := false }
      ph := .idle
      inbox := .writeReg s.params.regBase w :: s.inbox }
  | .op raw operand =>
    { s with
      status := statusBusy
      ph := .decRun
      inLen := 0x18
      hdr := { size := 0xFFFFFF, var := 2, loff := 0x14, nb := tableNbits, moff := 0x14 }
      cur := { fc := flagBase, lc := 0x14, mc := 0x14 }
      fq := { s.fq with count := 0 }
      olen := 0
      inMem := Memory.writeBytes s.inMem flagBase (fetchImage raw operand)
      inbox := [] }

end Sys2Proof.Machine
end

