-- ==== Sys2Proof/Machine/Step.lean ====
section
/-! DEFINITION. The step of the machine: the host's next action, if one is waiting, or one step of the engine
(10_state.md R20, 70_reset_and_hazards.md R257; log 5). -/

namespace Sys2Proof.Machine

/-- One step. `inbox` says who moves: its first action lands now; `wait`, or an empty inbox, lets the engine step. -/
def step (s : State) : Host.Outcome State Fault Refusal :=
  match s.inbox with
  | [] => engineStep s
  | .wait :: rest => engineStep { s with inbox := rest }
  | act :: rest => hostStep act { s with inbox := rest }

/-- s with the opcode-table word (nbits, w) placed where step fetches its next instruction (log 10, log 11). -/
def State.withFetchWord (s : State) (nbits w : Nat) : State := placeCode (tableCode nbits w) s

end Sys2Proof.Machine
end

