-- ==== Sys2Proof/Safety.lean ====
section
/-! DEFINITION. The terms claims use: the invariant of the machine, phase by phase, and how a command is run to its end. -/

namespace Sys2Proof.Machine

/-- What STATUS can say (R24, R220, R224): at most one of BUSY, DONE and ERROR; a code exactly with ERROR, and one the block
produces (V4); a detail 1 to 6 exactly with ConfigError (V5). -/
def statusLegal (t : Status) : Bool :=
  !(t.busy && t.done) && !(t.busy && t.error) && !(t.done && t.error) &&
  (if t.error then
      t.errcode == 1 || t.errcode == 2 || t.errcode == 3 || t.errcode == 4 || t.errcode == 6
    else t.errcode == 0) &&
  (if t.errcode = 4 then decide (1 ≤ t.detail.toNat) && decide (t.detail.toNat ≤ 6) else t.detail == 0)

/-- How many header fields DEC_HDR has read (R257). -/
def HdrField.rank : HdrField → Nat
  | .sig => 0
  | .size => 1
  | .variant => 2
  | .loff => 3
  | .nbits => 4
  | .moff => 5

/-- DEC_HDR: each field already read holds the header's value and passed its check (R141 to R143), and OUT_CAP holds the
result (R58). -/
structure HdrInv (s : State) : Prop where
  olen : s.olen = 0
  fits : decodeFits s = true
  sig : 1 ≤ s.hdrNext.rank → memRead s 0 4 = some signature
  size : 2 ≤ s.hdrNext.rank → memRead s 4 3 = some s.hdr.size.toNat
  variant : 3 ≤ s.hdrNext.rank → memRead s 7 1 = some s.hdr.var.toNat ∧ variantLegal s.hdr.var.toNat = true
  loff : 4 ≤ s.hdrNext.rank → memRead s 8 3 = some s.hdr.loff.toNat
  nbits : 5 ≤ s.hdrNext.rank →
    memRead s 11 1 = some s.hdr.nb.toNat ∧ (nbitsLegal s.hdr.nb.toNat || !s.params.decCheckNbits) = true

/-- DEC_RUN and DEC_COPY, the source's Running (R27): the output is unfinished and fits (R58), the modes passed their checks,
the flag queue holds at most a word's flags (R30), no cursor passes IN_LEN except by its start value (R29), and every byte
below OLEN has been written (R31). -/
structure RunInv (s : State) : Prop where
  unfinished : s.olen < s.hdr.size.toNat
  fits : s.hdr.size.toNat ≤ s.params.outCap
  variant : variantLegal s.hdr.var.toNat = true
  nbits : (nbitsLegal s.hdr.nb.toNat || !s.params.decCheckNbits) = true
  queue : s.fq.count ≤ flagsPerWord s.hdr.var
  fc : s.cur.fc ≤ max flagBase s.inLen.toNat
  lc : s.cur.lc ≤ max s.hdr.loff.toNat s.inLen.toNat
  mc : s.cur.mc ≤ max s.hdr.moff.toNat s.inLen.toNat
  written : ∀ a, a < s.olen → Memory.read s.outMem a ≠ none

/-- DEC_COPY: byte CR of CRUN is the next to copy, from inside the output (R32, R149, R151). -/
structure CopyInv (s : State) : Prop where
  more : s.copy.cr < s.copy.crun
  jumpPos : 1 ≤ s.copy.cjump
  jumpInside : s.copy.cjump ≤ s.copy.cbase
  position : s.olen = s.copy.cbase + s.copy.cr

/-- ENC_SEARCH and ENC_ASM: the parameters passed the checks of R181, and the pools hold whole operations that cover exactly
the input before EN_P (R34, R186, R194). -/
structure EncInv (s : State) : Prop where
  nbits : nbitsLegal s.enc.nb.toNat = true
  variant : variantLegal s.enc.var.toNat = true
  input : s.enc.n = s.inLen.toNat
  nonempty : 1 ≤ s.enc.n
  notTooLarge : s.enc.n ≤ max24
  window : s.enc.w = windowOf s.enc.nb.toNat
  maxrun : s.enc.maxrun = maxRunOf s.enc.nb.toNat
  fits : encodeBound s.enc.n ≤ s.params.outCap
  inside : s.enc.p ≤ s.enc.n
  cells : s.pools.tokpool.length = 2 * s.pools.nmatch
  ops : s.pools.nops = s.pools.nlit + s.pools.nmatch
  covers : s.pools.nlit + 3 * s.pools.nmatch ≤ s.enc.p

/-- What holds in each phase (R27). -/
def PhaseInv (s : State) : Prop :=
  match s.ph with
  | .idle => True
  | .decHdr => HdrInv s
  | .decRun => RunInv s
  | .decCopy => RunInv s ∧ CopyInv s
  | .encCheck => encodeFits s = true
  | .encSearch => EncInv s ∧ s.enc.p < s.enc.n
  | .encAsm => EncInv s ∧ s.enc.p = s.enc.n

/-- THE INVARIANT every step keeps: both memories in canonical form, STATUS legal, BUSY exactly while a command runs (R24, R27),
and the invariant of the phase. -/
structure Inv (s : State) : Prop where
  inWf : Memory.wf s.inMem = true
  outWf : Memory.wf s.outMem = true
  status : statusLegal s.status = true
  busy : s.status.busy = true ↔ s.ph ≠ .idle
  phase : PhaseInv s

/-- n calls of FLAG_NEXT, one after the other: the bits returned and the state after them (R127). -/
def flagsRead : Nat → State → Option (List Bool × State)
  | 0, s => some ([], s)
  | n + 1, s =>
    match flagNext s with
    | none => none
    | some (f, s1) => (flagsRead n s1).map fun r => (f :: r.1, r.2)

/-- k steps of the machine. -/
abbrev runSteps (k : Nat) (s : State) : Host.Outcome State Fault Refusal := Host.Core.run Sys2Proof.core k s

end Sys2Proof.Machine
end

