-- ==== Sys2Proof/Safety/Reference.lean ====
section
/-! DEFINITION. The two commands read a second time, as functions from bytes to bytes or an error: the container's wire format
(30_encoding.md R70 to R83) read by position rather than by cursor registers, the copy as the periodic repetition of R149,
and the search as longest match, then smallest distance (R185). The machine never uses this file: claims compare it with
the machine, and state the round trip (R195) over it. -/

namespace Sys2Proof.Reference

open Sys2Proof.Machine

/-! ## DECODE -/

/-- The little-endian field of n bytes at offset a of a container, or TruncatedStream (R51, R52). -/
def field (input : List Byte) (a n : Nat) : Except Err Nat :=
  if input.length < a + n then .error .truncatedStream else .ok (leNat ((input.drop a).take n))

/-- The is_match bits of a raw flag word, first to last: raw bits 30 down to 0 in format 0, 31 down to 0 in format 2, inverted
(R78, R79). -/
def flagsOf (var w : Nat) : List Bool :=
  (List.range (if var = 0 then 31 else 32)).map fun i => !w.testBit ((if var = 0 then 30 else 31) - i)

/-- The bytes a Match appends: the last `jump` bytes of the output, repeated with period jump (R149). -/
def repetition (out : List Byte) (jump len : Nat) : List Byte :=
  (List.range len).map fun r => out.getD (out.length - jump + r % jump) 0

/-- The modes and offsets of a header. -/
structure Modes where
  size : Nat
  var : Nat
  nb : Nat

/-- What is left of a stream: the pending flags, the offsets of the next flag word, literal and cell. -/
structure Rest where
  flags : List Bool
  fc : Nat
  lc : Nat
  mc : Nat

/-- The next flag, from a new word where none is pending (R120, R121). -/
def nextFlag (input : List Byte) (m : Modes) (r : Rest) : Except Err (Bool × Rest) :=
  match r.flags with
  | f :: fs => .ok (f, { r with flags := fs })
  | [] =>
    match field input r.fc 4 with
    | .error e => .error e
    | .ok w => .ok ((flagsOf m.var w).headD false, { r with flags := (flagsOf m.var w).tail, fc := r.fc + 4 })

/-- One operation after its flag: the output and the rest of the stream (R147 to R151). -/
def operation (input : List Byte) (m : Modes) (isMatch : Bool) (r : Rest) (out : List Byte) : Except Err (List Byte × Rest) :=
  if isMatch then
    match field input r.mc 2 with
    | .error e => .error e
    | .ok cell =>
      let (jump, run) := tokenDecode (BitVec.ofNat 16 cell) m.nb
      if out.length < jump then .error .badReference
      else .ok (out ++ repetition out jump (min run (m.size - out.length)), { r with mc := r.mc + 2 })
  else
    match field input r.lc 1 with
    | .error e => .error e
    | .ok b => .ok (out ++ [BitVec.ofNat 8 b], { r with lc := r.lc + 1 })

/-- The operation loop (R140, R146); every operation appends a byte, so `fuel` = SIZE operations are enough. -/
def operations (input : List Byte) (m : Modes) : (fuel : Nat) → Rest → List Byte → Except Err (List Byte)
  | 0, _, out => .ok out
  | fuel + 1, r, out =>
    if out.length < m.size then
      match nextFlag input m r with
      | .error e => .error e
      | .ok (isMatch, r1) =>
        match operation input m isMatch r1 out with
        | .error e => .error e
        | .ok (out2, r2) => operations input m fuel r2 out2
    else .ok out

/-- The header, field by field, each checked as soon as it is read (R141 to R145). -/
def header (checkNbits : Bool) (input : List Byte) : Except Err (Modes × Rest) :=
  match field input 0 4 with
  | .error e => .error e
  | .ok sig =>
    if sig ≠ 0x1A7A6C55 then .error .formatError else
    match field input 4 3 with
    | .error e => .error e
    | .ok size =>
      match field input 7 1 with
      | .error e => .error e
      | .ok var =>
        if ¬(var = 0 ∨ var = 2) then .error .unsupportedVariant else
        match field input 8 3 with
        | .error e => .error e
        | .ok loff =>
          match field input 11 1 with
          | .error e => .error e
          | .ok nb =>
            if checkNbits = true ∧ ¬(10 ≤ nb ∧ nb ≤ 13) then .error (.configError .invalidNbits) else
            match field input 12 4 with
            | .error e => .error e
            | .ok moff => .ok ({ size := size, var := var, nb := nb }, { flags := [], fc := 16, lc := loff, mc := moff % 2 ^ 24 })

/-- DECODE as a function of the container (R140). -/
def decodeStream (checkNbits : Bool) (input : List Byte) : Except Err (List Byte) :=
  match header checkNbits input with
  | .error e => .error e
  | .ok (m, r) => operations input m m.size r []

/-! ## ENCODE -/

/-- How long the bytes at p agree with those d back, at most MAXRUN of them (R184). -/
def agreement (input : List Byte) (maxrun p d : Nat) : Nat :=
  ((((input.drop p).zip (input.drop (p - d))).takeWhile fun xy => xy.1 == xy.2).take maxrun).length

/-- The operation at p: the longest match, the smallest distance that has it, or a literal where it is shorter than 3 (R185). -/
def choice (input : List Byte) (nb p : Nat) : Op :=
  let ds := (List.range (min (2 ^ nb) p)).map (· + 1)
  let len := agreement input (2 ^ (16 - nb) + 2) p
  let longest := (ds.map len).foldl max 0
  match ds.find? fun d => len d == longest with
  | some d => if 3 ≤ longest then .mat d longest else .literal (input.getD p 0)
  | none => .literal (input.getD p 0)

/-- The greedy operation sequence from p on; every operation covers a byte, so `fuel` = N is enough (R186). -/
def greedy (input : List Byte) (nb : Nat) : (fuel p : Nat) → List Op
  | 0, _ => []
  | fuel + 1, p =>
    if p < input.length then choice input nb p :: greedy input nb fuel (p + opSpan (choice input nb p)) else []

/-- The literal byte of an operation, if it is a Literal (R187). -/
def literalOf : Op → List Byte
  | .literal b => [b]
  | .mat _ _ => []

/-- The cell bytes of an operation, if it is a Match (R188). The greedy sequence names only pairs that have a cell (R185). A listing
may name another (R91 is silent, and R104 gives it no value): it gets the cell of R104's masked formula, and no rejection
(DESIGN CHOICE, log 26). -/
def cellBytesOf (nb : Nat) : Op → List Byte
  | .literal _ => []
  | .mat jump run => leBytes 2 (tokenCell jump run nb).toNat

/-- The is_match bit of an operation (R189). -/
def isMatchOf : Op → Bool
  | .literal _ => false
  | .mat _ _ => true

/-- The container of an operation sequence for an input of n bytes, or OffsetOverflow (R190 to R193). -/
def assemble (nb var : BitVec 8) (n : Nat) (ops : List Op) : Except Err (List Byte) :=
  let flags := flagPack (ops.map isMatchOf) var
  let lits := padded (ops.flatMap literalOf)
  let cells := padded (ops.flatMap (cellBytesOf nb.toNat))
  let loff := 16 + flags.length
  let moff := loff + lits.length
  if 0xFFFFFF < moff then .error (.configError .offsetOverflow)
  else .ok ([0x55, 0x6C, 0x7A, 0x1A] ++ leBytes 3 n ++ [var] ++ leBytes 3 loff ++ [nb] ++ leBytes 4 moff ++ flags ++ lits ++ cells)

/-- ENCODE as a function of the input and the two modes (R180, R181). -/
def encodeStream (nb var : BitVec 8) (input : List Byte) : Except Err (List Byte) :=
  if ¬(10 ≤ nb.toNat ∧ nb.toNat ≤ 13) then .error (.configError .invalidNbits)
  else if ¬(var = 0 ∨ var = 2) then .error (.configError .invalidVariant)
  else if input.length = 0 then .error (.configError .emptyInput)
  else if 0xFFFFFF < input.length then .error (.configError .inputTooLarge)
  else assemble nb var input.length (greedy input nb.toNat input.length 0)

end Sys2Proof.Reference
end

