-- ==== Sys2Proof/Safety/Listing.lean ====
section
/-! DEFINITION. Listings, the spec's text form of a stream (30_encoding.md R91, R92): their text, their container, and the bytes
their operations produce. -/

namespace Sys2Proof.Reference

open Sys2Proof.Machine

/-- A listing: the `.ulz` header line and one operation a line (R91). -/
structure Listing where
  size : Nat
  variant : BitVec 8
  nbits : BitVec 8
  ops : List Op
deriving DecidableEq, Repr

/-- A hexadecimal digit. -/
def hexDigit (n : Nat) : Char := "0123456789ABCDEF".toList.getD n '0'

/-- `LIT <byte>` or `MATCH <jump>, <run>` (R91). -/
def Op.text : Op → String
  | .literal b => "LIT 0x" ++ String.ofList [hexDigit (b.toNat / 16), hexDigit (b.toNat % 16)]
  | .mat jump run => "MATCH " ++ toString jump ++ ", " ++ toString run

/-- The lines of a listing (R91). -/
def Listing.lines (l : Listing) : List String :=
  (".ulz size=" ++ toString l.size ++ " variant=" ++ toString l.variant.toNat ++ " nbits=" ++ toString l.nbits.toNat) ::
    l.ops.map Op.text

/-- The container of a listing: the encoder's assembly of its operations, with SIZE from the header line (R91). It rejects
no listing. A SIZE above 0xFFFFFF is cut to its low 24 bits (log 25), a Match that has no cell gets the one of the masked formula
(log 26), and a header line whose variant or nbits R91's form does not allow, and a listing of no operations, are assembled by the
same pseudocode (log 28): all four are the model's choices (DESIGN CHOICE). -/
def Listing.container (l : Listing) : Except Err (List Byte) := assemble l.nbits l.variant l.size l.ops

/-- The bytes the operations of a listing append to `out`, uncut (R147, R149). -/
def expand : List Byte → List Op → List Byte
  | out, [] => out
  | out, .literal b :: ops => expand (out ++ [b]) ops
  | out, .mat jump run :: ops => expand (out ++ repetition out jump run) ops

/-- No Match of the listing reaches before the output its predecessors made, and every pair has a cell (R83, R151). -/
def Listing.reaches (nb : Nat) : List Byte → List Op → Bool
  | _, [] => true
  | out, .literal b :: ops => Listing.reaches nb (out ++ [b]) ops
  | out, .mat jump run :: ops =>
    tokenInRange jump run nb && decide (jump ≤ out.length) && Listing.reaches nb (out ++ repetition out jump run) ops

end Sys2Proof.Reference
end

