-- ==== Sys2Proof/Certificates/Slice0/Obligations.lean ====
section
/-! DEFINITION. The statements for the provers. A frame is written `put the named fields back and the state is the old one`;
memory is always read a byte at a time, through `State.inByte` and `State.outByte`. -/

open Sys2Proof Sys2Proof.Machine

/-! ## Decoding and encoding -/

/-- Decoding the encoding of a well-formed instruction gives it back, with every operand at every value its encoding admits
(30_encoding.md R83, R85, R90, R93). -/
def Obligations.DecodeOfEncodeIsTheInstruction : Prop :=
  ∀ (i : Instr) (dflt : BitVec 8), i.wf = true → decode (modeOf dflt i) (encode i) = .ok i

/-- A stream operation that decodes is well-formed and encodes to the same raw flag bit and operand bytes: each operation has
one encoding, and every cell of a legal nbits names a legal pair (R83). -/
def Obligations.EncodeOfDecodedOperationIsTheOperation : Prop :=
  ∀ (nb : BitVec 8) (raw : BitVec 1) (operand : List Byte) (i : Instr),
    decode nb (.op raw operand) = .ok i → i.wf = true ∧ encode i = .op raw operand

/-- A CTRL word selects DECODE exactly with START = 1 and OP = 1, and ENCODE exactly with START = 1 and OP = 2; the operands are
its VARIANT and NBITS fields; its reserved bits [30:24] and [7:2] change nothing (R23, R90, V2). -/
def Obligations.CtrlWordSelectsCommand : Prop :=
  ∀ (w : Word) (v n : BitVec 8),
    (decodeCtrl w = .ok (.decode v n) ↔ w &&& 0x80000003 = 0x80000001 ∧
      v.toNat = w.toNat / 2 ^ 16 % 256 ∧ n.toNat = w.toNat / 2 ^ 8 % 256) ∧
    (decodeCtrl w = .ok (.encode v n) ↔ w &&& 0x80000003 = 0x80000002 ∧
      v.toNat = w.toNat / 2 ^ 16 % 256 ∧ n.toNat = w.toNat / 2 ^ 8 % 256) ∧
    decodeCtrl w = decodeCtrl (w &&& 0x80FFFF03)

/-- One word of each family, written out from the spec's encodings, decodes to the instruction it stands for (sanity). -/
def Obligations.WordsWrittenOutDecode : Prop :=
  decode 12 (.op 1 [0x41]) = .ok (.lit 0x41) ∧
  decode 10 (.op 0 [0x01, 0x08]) = .ok (.matchN10 2 5) ∧
  decode 11 (.op 0 [0x01, 0x10]) = .ok (.matchN11 2 5) ∧
  decode 12 (.op 0 [0x01, 0x20]) = .ok (.matchN12 2 5) ∧
  decode 13 (.op 0 [0x01, 0x40]) = .ok (.matchN13 2 5) ∧
  decode 0 (.ctrl 0x80FFFF01) = .ok (.decode 255 255) ∧
  decode 0 (.ctrl 0x80020C02) = .ok (.encode 2 12)

/-! ## Token codec -/

/-- Token round trip, both ways (40_token_codec.md R103). -/
def Obligations.TokenRoundTrip : Prop :=
  ∀ nb, nbitsLegal nb = true →
    (∀ jump run, 1 ≤ jump → jump ≤ 2 ^ nb → 3 ≤ run → run ≤ 2 ^ (16 - nb) + 2 →
      ∃ cell, tokenEncode jump run nb = some cell ∧ tokenDecode cell nb = (jump, run)) ∧
    (∀ cell : BitVec 16, tokenEncode (tokenDecode cell nb).1 (tokenDecode cell nb).2 nb = some cell)

/-- TOKEN_DECODE for nbits outside 10 to 13, on unbounded naturals (R102): nbits = 0, nbits ≥ 16, and the bounds in between. -/
def Obligations.TokenDecodeOutsideLegalNbits : Prop :=
  (∀ cell : BitVec 16, tokenDecode cell 0 = (1, cell.toNat + 3)) ∧
  (∀ (cell : BitVec 16) (nb : Nat), 16 ≤ nb → tokenDecode cell nb = (cell.toNat + 1, 3)) ∧
  (∀ (cell : BitVec 16) (nb : Nat), 1 ≤ nb → nb ≤ 15 →
    1 ≤ (tokenDecode cell nb).1 ∧ (tokenDecode cell nb).1 ≤ 2 ^ nb ∧
    3 ≤ (tokenDecode cell nb).2 ∧ (tokenDecode cell nb).2 ≤ 2 ^ (16 - nb) + 2)

/-! ## Flag stream -/

/-- FLAG_NEXT with an empty queue (41_flag_stream.md R120, R121, 20_memory.md R53): the word at FC is read, FC moves by 4, and the
bit returned is the inverse of bit 7 of IN[FC + 3] in format 2 and of bit 6 in format 0, with 31 or 30 flags left. A word
that passes IN_LEN gives nothing. -/
def Obligations.FlagNextRefillsFromTheWordAtFC : Prop :=
  ∀ s : State, s.fq.count = 0 → variantLegal s.hdr.var.toNat = true →
    (s.inLen.toNat < s.cur.fc + 4 → flagNext s = none) ∧
    (s.cur.fc + 4 ≤ s.inLen.toNat → ∃ t,
      flagNext s = some (!(s.inByte (s.cur.fc + 3)).getLsbD (if s.hdr.var = 0 then 6 else 7), t) ∧
      t.fq.count = (if s.hdr.var = 0 then 30 else 31) ∧
      t.cur = { s.cur with fc := s.cur.fc + 4 } ∧
      { t with fq := s.fq, cur := s.cur } = s)

/-- FLAG_NEXT with flags pending reads no word: it pops bit 31 of FQ, whatever IN and IN_LEN are (R120, R121). -/
def Obligations.FlagNextPopsWithoutReading : Prop :=
  ∀ s : State, s.fq.count ≠ 0 → ∃ t, flagNext s = some (s.fq.bits.getLsbD 31, t) ∧
    t.fq.count = s.fq.count - 1 ∧ (∀ i, i < 31 → t.fq.bits.getLsbD (i + 1) = s.fq.bits.getLsbD i) ∧
    { t with fq := s.fq } = s

/-- The format-0 marker is not seen: two format-0 words that differ in bit 31 only fill the queue alike, with the 31 flags of raw
bits 30 down to 0, inverted; a format-2 word gives its 32 bits, inverted (R122). -/
def Obligations.FlagWordGivesItsFlagsInverted : Prop :=
  (∀ w : Word, refillQueue 0 w = refillQueue 0 (w ^^^ 0x80000000) ∧ (refillQueue 0 w).count = 31 ∧
    ∀ i, i < 31 → (refillQueue 0 w).bits.getLsbD (31 - i) = !w.getLsbD (30 - i)) ∧
  (∀ w : Word, (refillQueue 2 w).count = 32 ∧
    ∀ i, i < 32 → (refillQueue 2 w).bits.getLsbD (31 - i) = !w.getLsbD (31 - i))

/-- Length of the flag section (R126): 4·ceil(n/32) in format 2, 4·(ceil(n/31) + 1) in format 0, multiples of 4; for n = 40, 12
and 8 bytes. -/
def Obligations.FlagSectionLength : Prop :=
  (∀ f : List Bool, f ≠ [] → (flagPack f 2).length = 4 * ceilDiv f.length 32 ∧
    (flagPack f 0).length = 4 * (ceilDiv f.length 31 + 1) ∧
    (flagPack f 2).length % 4 = 0 ∧ (flagPack f 0).length % 4 = 0) ∧
  (∀ f : List Bool, f.length = 40 → (flagPack f 0).length = 12 ∧ (flagPack f 2).length = 8)

/-- Unpack inverts pack (R127): n calls of FLAG_NEXT from FC = 0x10 with FQN = 0 return the packed bits in order and read exactly
ceil(n/B) words, never the terminator. -/
def Obligations.FlagUnpackInvertsPack : Prop :=
  ∀ (f : List Bool) (s : State), f ≠ [] → variantLegal s.hdr.var.toNat = true →
    s.fq.count = 0 → s.cur.fc = 0x10 →
    0x10 + (flagPack f s.hdr.var).length ≤ s.inLen.toNat →
    (∀ i (h : i < (flagPack f s.hdr.var).length), s.inByte (0x10 + i) = (flagPack f s.hdr.var)[i]) →
    ∃ t, flagsRead f.length s = some (f, t) ∧
      t.cur.fc = 0x10 + 4 * ceilDiv f.length (if s.hdr.var = 2 then 32 else 31)

/-! ## LIT and MATCH -/

/-- LIT completes (42_decoder.md R147): LC moves by 1, b is appended at OUT[OLEN], OLEN grows by 1, and nothing else changes. -/
def Obligations.LitAppendsItsByte : Prop :=
  ∀ (b : Byte) (s : State), s.cur.lc + 1 ≤ s.inLen.toNat → s.olen < s.params.outCap →
    ∃ t, exec (.lit b) s = .next t ∧
      t.cur = { s.cur with lc := s.cur.lc + 1 } ∧ t.olen = s.olen + 1 ∧
      (∀ a, t.outByte a = if a = s.olen then b else s.outByte a) ∧
      (∀ a, t.inByte a = s.inByte a) ∧
      { t with cur := s.cur, olen := s.olen, outMem := s.outMem } = s

/-- Each MATCH completes (R148, R149): MC moves by 2, the copy engine is loaded with CBASE = OLEN, the jump and the run, and the
engine enters DEC_COPY; no byte of memory and nothing else changes. -/
def Obligations.MatchStartsItsCopy : Prop :=
  ∀ (jump run : Nat) (s : State), s.cur.mc + 2 ≤ s.inLen.toNat → jump ≤ s.olen →
    ∀ i, i = Instr.matchN10 jump run ∨ i = Instr.matchN11 jump run ∨
         i = Instr.matchN12 jump run ∨ i = Instr.matchN13 jump run →
    ∃ t, exec i s = .next t ∧
      t.cur = { s.cur with mc := s.cur.mc + 2 } ∧
      t.copy = { cbase := s.olen, cjump := jump, crun := run, cr := 0 } ∧ t.ph = .decCopy ∧
      (∀ a, t.outByte a = s.outByte a) ∧ (∀ a, t.inByte a = s.inByte a) ∧
      { t with cur := s.cur, copy := s.copy, ph := s.ph } = s

/-- Where LIT and MATCH raise (R147, R148, R151, R227): TruncatedStream where the operand passes IN_LEN, with the cursor
unchanged; BadReference where the jump exceeds OLEN, with MC already advanced, and only after the cell was read. -/
def Obligations.OperationsRaiseTheirErrors : Prop :=
  ∀ (s : State),
    (∀ b, s.inLen.toNat < s.cur.lc + 1 → exec (.lit b) s = .next (raiseError .truncatedStream s)) ∧
    (∀ jump run i, i = Instr.matchN10 jump run ∨ i = Instr.matchN11 jump run ∨
        i = Instr.matchN12 jump run ∨ i = Instr.matchN13 jump run →
      (s.inLen.toNat < s.cur.mc + 2 → exec i s = .next (raiseError .truncatedStream s)) ∧
      (s.cur.mc + 2 ≤ s.inLen.toNat → s.olen < jump → ∃ t, exec i s = .next t ∧
        t.status = statusError .badReference ∧ t.ph = .idle ∧ t.cur = { s.cur with mc := s.cur.mc + 2 }))

/-- The copy engine run to its end (R149, R150): from a loaded copy, min(CRUN, SIZE − CBASE) steps append the last CJUMP bytes of
the output repeated with period CJUMP, write no other byte, and leave the engine in DEC_RUN, or, at OLEN = SIZE, done. That the
copy takes one step a byte is R257's stepping, and that the step of the last byte also leaves DEC_COPY, for DEC_RUN or IDLE, is
the model's reading of it (log 7, DEDUCED); the registers an ended command leaves as they were are log 16. -/
def Obligations.CopyRepeatsThePeriod : Prop :=
  ∀ s : State, s.ph = .decCopy → s.inbox = [] → s.copy.cr = 0 → 1 ≤ s.copy.crun → 1 ≤ s.copy.cjump →
    s.copy.cjump ≤ s.copy.cbase → s.olen = s.copy.cbase → s.olen < s.hdr.size.toNat →
    s.hdr.size.toNat ≤ s.params.outCap →
    ∃ t, runSteps (min s.copy.crun (s.hdr.size.toNat - s.copy.cbase)) s = .next t ∧
      t.olen = s.copy.cbase + min s.copy.crun (s.hdr.size.toNat - s.copy.cbase) ∧
      (∀ r, r < min s.copy.crun (s.hdr.size.toNat - s.copy.cbase) →
        t.outByte (s.copy.cbase + r) = s.outByte (s.copy.cbase - s.copy.cjump + r % s.copy.cjump)) ∧
      (∀ a, a < s.copy.cbase ∨ s.copy.cbase + min s.copy.crun (s.hdr.size.toNat - s.copy.cbase) ≤ a →
        t.outByte a = s.outByte a) ∧
      (if t.olen = s.hdr.size.toNat then
        t.ph = .idle ∧ t.status = statusDone ∧ t.outLen.toNat = s.hdr.size.toNat
      else t.ph = .decRun ∧ t.status = s.status ∧ t.outLen = s.outLen) ∧
      { t with olen := s.olen, outMem := s.outMem, copy := s.copy, ph := s.ph, status := s.status,
               outLen := s.outLen } = s

/-! ## The decoder -/

/-- The signature step (R141): TruncatedStream below 4 bytes of input, FormatError unless IN[0..3] is `55 6C 7A 1A`. -/
def Obligations.SignatureIsChecked : Prop :=
  ∀ s : State, s.ph = .decHdr → s.inbox = [] → s.hdrNext = .sig →
    (s.inLen.toNat < 4 → step s = .next (raiseError .truncatedStream s)) ∧
    (4 ≤ s.inLen.toNat → inBytes s 0 4 ≠ [0x55, 0x6C, 0x7A, 0x1A] → step s = .next (raiseError .formatError s)) ∧
    (4 ≤ s.inLen.toNat → inBytes s 0 4 = [0x55, 0x6C, 0x7A, 0x1A] → step s = .next { s with hdrNext := .size })

/-- The variant and nbits steps (R142, R143): a variant byte other than 0 and 2 raises UnsupportedVariant; an nbits byte outside
10 to 13 raises ConfigError InvalidNbits exactly where DEC_CHECK_NBITS; a byte past IN_LEN raises TruncatedStream. -/
def Obligations.HeaderModesAreChecked : Prop :=
  ∀ s : State, s.ph = .decHdr → s.inbox = [] →
    (s.hdrNext = .variant →
      (s.inLen.toNat < 8 → step s = .next (raiseError .truncatedStream s)) ∧
      (8 ≤ s.inLen.toNat → ∃ t, step s = .next t ∧ t.hdr = { s.hdr with var := s.inByte 7 } ∧
        (if s.inByte 7 = 0 ∨ s.inByte 7 = 2 then t.ph = .decHdr ∧ t.hdrNext = .loff ∧ t.status = s.status
         else t.ph = .idle ∧ t.status = statusError .unsupportedVariant))) ∧
    (s.hdrNext = .nbits →
      (s.inLen.toNat < 12 → step s = .next (raiseError .truncatedStream s)) ∧
      (12 ≤ s.inLen.toNat → ∃ t, step s = .next t ∧ t.hdr = { s.hdr with nb := s.inByte 11 } ∧
        (if (10 ≤ (s.inByte 11).toNat ∧ (s.inByte 11).toNat ≤ 13) ∨ s.params.decCheckNbits = false then
          t.ph = .decHdr ∧ t.hdrNext = .moff ∧ t.status = s.status
         else t.ph = .idle ∧ t.status = statusError (.configError .invalidNbits))))

/-- The last header step (R144, R145, R155): MOFF is the low 3 bytes, byte 0x0F changes nothing, the cursors start at 0x10, LOFF
and MOFF with FQN = 0 and OLEN = 0, and SIZE = 0 ends the command at once with OUT_LEN = 0. That INIT_DECODE and this end are
part of the step that reads MOFF is the model's stepping (log 7, DEDUCED). -/
def Obligations.HeaderEndsInInitDecode : Prop :=
  ∀ s : State, s.ph = .decHdr → s.inbox = [] → s.hdrNext = .moff → 16 ≤ s.inLen.toNat →
    ∃ t, step s = .next t ∧
      t.hdr.moff.toNat = (s.inByte 12).toNat + 256 * (s.inByte 13).toNat + 65536 * (s.inByte 14).toNat ∧
      t.cur = { fc := 0x10, lc := s.hdr.loff.toNat, mc := t.hdr.moff.toNat } ∧ t.fq.count = 0 ∧ t.olen = 0 ∧
      (if s.hdr.size = 0 then t.ph = .idle ∧ t.status = statusDone ∧ t.outLen = 0
       else t.ph = .decRun ∧ t.status = s.status)

/-- A step of DEC_RUN runs the decoded instruction (R140, R146; one operation a step by R257): where the fetch gives an operation
that decodes, step is exec of it on the state FLAG_NEXT left, and then the loop test. That R140's loop test is made at the end of
the operation's own step is the model's choice among the points R257 leaves open (log 7, DEDUCED). -/
def Obligations.StepRunsTheDecodedOperation : Prop :=
  ∀ (s s1 : State) (raw : BitVec 1) (operand : List Byte) (i : Instr),
    s.inbox = [] → s.ph = .decRun → s.olen < s.hdr.size.toNat → fetchOp s = .op raw operand s1 →
    decode s1.hdr.nb (.op raw operand) = .ok i → step s = afterOp (exec i s1)

/-- The fetch (R120, R146, R86): the operand of a LIT is the byte at LC, that of a MATCH the two bytes at MC, chosen by the flag
FLAG_NEXT returns; an operand past IN_LEN is a truncated fetch (R51). -/
def Obligations.FetchTakesFlagAndOperand : Prop :=
  ∀ (s s1 : State) (isMatch : Bool), flagNext s = some (isMatch, s1) →
    (isMatch = false → s1.cur.lc + 1 ≤ s1.inLen.toNat → fetchOp s = .op 1 [s.inByte s.cur.lc] s1) ∧
    (isMatch = false → s1.inLen.toNat < s1.cur.lc + 1 → fetchOp s = .truncated s1) ∧
    (isMatch = true → s1.cur.mc + 2 ≤ s1.inLen.toNat →
      fetchOp s = .op 0 [s.inByte s.cur.mc, s.inByte (s.cur.mc + 1)] s1) ∧
    (isMatch = true → s1.inLen.toNat < s1.cur.mc + 2 → fetchOp s = .truncated s1)

/-- While the decoder runs, cursors never move back (R29): a step moves FC by 0 or 4, LC by 0 or 1 and MC by 0 or 2, and never
both LC and MC. -/
def Obligations.CursorsMoveByTheirUnits : Prop :=
  ∀ s t : State, s.inbox = [] → s.ph = .decRun ∨ s.ph = .decCopy → step s = .next t →
    (t.cur.fc = s.cur.fc ∨ t.cur.fc = s.cur.fc + 4) ∧
    ((t.cur.lc = s.cur.lc ∧ t.cur.mc = s.cur.mc) ∨ (t.cur.lc = s.cur.lc + 1 ∧ t.cur.mc = s.cur.mc) ∨
      (t.cur.lc = s.cur.lc ∧ t.cur.mc = s.cur.mc + 2))

/-- During DECODE, OUT is append-only (R31): a step that raises no error leaves every byte but OUT[OLEN] as it was, and moves OLEN
by 0 or 1. -/
def Obligations.DecoderOutputIsAppendOnly : Prop :=
  ∀ s t : State, s.inbox = [] → s.ph = .decRun ∨ s.ph = .decCopy → step s = .next t → t.status.error = false →
    (t.olen = s.olen ∨ t.olen = s.olen + 1) ∧
    (∀ a, a ≠ s.olen ∨ t.olen = s.olen → t.outByte a = s.outByte a)

/-- DECODE is launched (R23, R140, R251): with no command running, a legal IN_LEN and room for the declared size (the
admission test is the model's, log 8), it stores its fields, clears the outcome, sets BUSY and OLEN = 0 and
enters DEC_HDR; no byte of memory and nothing else changes. -/
def Obligations.DecodeLaunches : Prop :=
  ∀ (variant nbits : BitVec 8) (s : State), s.status.busy = false → s.inLen.toNat ≤ s.params.maxInLen →
    (∀ size, declaredSize s = some size → size ≤ s.params.outCap) →
    ∃ t, exec (.decode variant nbits) s = .next t ∧
      t.ctrl = { op := 1, nbits := nbits, variant := variant } ∧ t.status = statusBusy ∧ t.olen = 0 ∧
      t.ph = .decHdr ∧ t.hdrNext = .sig ∧ t.pools = { flagbits := [], litpool := [], tokpool := [] } ∧
      (∀ a, t.outByte a = s.outByte a) ∧ (∀ a, t.inByte a = s.inByte a) ∧
      { t with ctrl := s.ctrl, status := s.status, olen := s.olen, ph := s.ph, hdrNext := s.hdrNext,
               pools := s.pools } = s

/-- DECODE, launched and run to its end, does what the container says (R140 to R156): it ends idle after finitely many steps, with
the outcome of the reference reading of the input bytes; on DONE, OUT holds the output, OUT_LEN its length, and no byte from
OUT[SIZE] on was written. -/
def Obligations.DecodeRunsAsTheReference : Prop :=
  ∀ (s s0 : State) (variant nbits : BitVec 8), s.inbox = [] → exec (.decode variant nbits) s = .next s0 →
    ∃ k t, runSteps k s0 = .next t ∧ t.ph = .idle ∧
      match Reference.decodeStream s.params.decCheckNbits (inBytes s 0 s.inLen.toNat) with
      | .ok out => t.status = statusDone ∧ t.outLen.toNat = out.length ∧
          (∀ i (h : i < out.length), t.outByte i = out[i]) ∧
          (∀ a, out.length ≤ a → t.outByte a = s.outByte a)
      | .error e => t.status = statusError e

/-- DECODE terminates (R154): from every state of the invariant in a decoder phase, with the host waiting, at most 6 + 2·0xFFFFFF
steps lead to IDLE. The count rests on the stepping the model takes from R257 (log 7). -/
def Obligations.DecodeTerminates : Prop :=
  ∀ s : State, Inv s → s.inbox = [] → s.ph = .decHdr ∨ s.ph = .decRun ∨ s.ph = .decCopy →
    ∃ k t, k ≤ 6 + 2 * 0xFFFFFF ∧ runSteps k s = .next t ∧ t.ph = .idle

/-- Bytes after the last one needed do not matter (42_decoder.md R153, 70_reset_and_hazards.md R254): an input that decodes, decodes
to the same output with any bytes appended to it. -/
def Obligations.DecodeIgnoresTrailingBytes : Prop :=
  ∀ (checkNbits : Bool) (input extra out : List Byte),
    Reference.decodeStream checkNbits input = .ok out → Reference.decodeStream checkNbits (input ++ extra) = .ok out

/-! ## The encoder -/

/-- ENCODE is launched (R23, R180, R251): with no command running, a legal IN_LEN and, where the parameter checks of R181 will
pass, room for the bound of R194 (the admission test is the model's, log 8), it stores its fields, clears the outcome, sets BUSY
and OLEN = 0, empties the pools and enters ENC_CHECK; nothing else changes. -/
def Obligations.EncodeLaunches : Prop :=
  ∀ (variant nbits : BitVec 8) (s : State), s.status.busy = false → s.inLen.toNat ≤ s.params.maxInLen →
    (10 ≤ nbits.toNat → nbits.toNat ≤ 13 → variant = 0 ∨ variant = 2 → 1 ≤ s.inLen.toNat → s.inLen.toNat ≤ 0xFFFFFF →
      16 + 4 * (ceilDiv s.inLen.toNat 31 + 1) + s.inLen.toNat + 6 ≤ s.params.outCap) →
    ∃ t, exec (.encode variant nbits) s = .next t ∧
      t.ctrl = { op := 2, nbits := nbits, variant := variant } ∧ t.status = statusBusy ∧ t.olen = 0 ∧
      t.ph = .encCheck ∧ t.pools = { flagbits := [], litpool := [], tokpool := [] } ∧
      (∀ a, t.outByte a = s.outByte a) ∧ (∀ a, t.inByte a = s.inByte a) ∧
      { t with ctrl := s.ctrl, status := s.status, olen := s.olen, ph := s.ph, hdrNext := s.hdrNext,
               pools := s.pools } = s

/-- The parameter checks in their order (43_encoder.md R181): nbits, variant, empty, too large; then the window registers, empty
pools and ENC_SEARCH. That all of ENC_CHECK is one step, and that ENC_SEARCH's EN_P <- 0 (R186) is part of it, is the model's
choice: R257 names no step for them (log 7, DEDUCED). -/
def Obligations.EncodeParametersAreCheckedInOrder : Prop :=
  ∀ s : State, s.ph = .encCheck → s.inbox = [] →
    ∃ t, step s = .next t ∧
      (if ¬(10 ≤ s.ctrl.nbits.toNat ∧ s.ctrl.nbits.toNat ≤ 13) then
        t.ph = .idle ∧ t.status = statusError (.configError .invalidNbits)
      else if ¬(s.ctrl.variant = 0 ∨ s.ctrl.variant = 2) then
        t.ph = .idle ∧ t.status = statusError (.configError .invalidVariant)
      else if s.inLen = 0 then t.ph = .idle ∧ t.status = statusError (.configError .emptyInput)
      else if 0xFFFFFF < s.inLen.toNat then t.ph = .idle ∧ t.status = statusError (.configError .inputTooLarge)
      else t.ph = .encSearch ∧ t.status = s.status ∧
        t.enc = { n := s.inLen.toNat, nb := s.ctrl.nbits, var := s.ctrl.variant, w := 2 ^ s.ctrl.nbits.toNat,
                  maxrun := 2 ^ (16 - s.ctrl.nbits.toNat) + 2, p := 0 } ∧
        t.pools = { flagbits := [], litpool := [], tokpool := [] })

/-- LEN(p, d) (R184): it is at most MAXRUN and N − p, the bytes agree over it, and it cannot be longer. -/
def Obligations.MatchLengthIsTheLongestAgreement : Prop :=
  ∀ (s : State) (p d : Nat),
    matchLen s p d ≤ s.enc.maxrun ∧ matchLen s p d ≤ s.enc.n - p ∧
    (∀ i, i < matchLen s p d → s.inByte (p + i) = s.inByte (p - d + i)) ∧
    (matchLen s p d < s.enc.maxrun → matchLen s p d < s.enc.n - p →
      s.inByte (p + matchLen s p d) ≠ s.inByte (p - d + matchLen s p d))

/-- MATCH_FIND(p) (R183, R185): a Match has the longest length of all distances 1 to min(W, p), at least 3, at the smallest distance
that has it; a Literal is the byte at p, where every length is below 3. -/
def Obligations.MatchFindIsLongestThenClosest : Prop :=
  ∀ (s : State) (p : Nat),
    match matchFind s p with
    | .mat jump run =>
        1 ≤ jump ∧ jump ≤ min s.enc.w p ∧ run = matchLen s p jump ∧ 3 ≤ run ∧
        (∀ d, 1 ≤ d → d ≤ min s.enc.w p → matchLen s p d ≤ run) ∧
        (∀ d, 1 ≤ d → d < jump → matchLen s p d < run)
    | .literal b => b = s.inByte p ∧ ∀ d, 1 ≤ d → d ≤ min s.enc.w p → matchLen s p d < 3

/-- One step of the search (R186 to R189): the operation MATCH_FIND chooses at EN_P is put in the pools, EN_P moves by what it
covers, and at EN_N the engine enters ENC_ASM; nothing else changes. One MATCH_FIND a step is R257's stepping; that ENC_ASM is
entered at the end of the step that moved EN_P is the model's reading of it (log 7, DEDUCED). -/
def Obligations.SearchStepEmitsItsOperation : Prop :=
  ∀ s : State, Inv s → s.ph = .encSearch → s.inbox = [] →
    ∃ t, step s = .next t ∧
      (match matchFind s s.enc.p with
       | .literal b =>
          t.pools = { flagbits := s.pools.flagbits ++ [false], litpool := s.pools.litpool ++ [b],
                      tokpool := s.pools.tokpool } ∧ t.enc = { s.enc with p := s.enc.p + 1 }
       | .mat jump run =>
          t.pools = { flagbits := s.pools.flagbits ++ [true], litpool := s.pools.litpool,
                      tokpool := s.pools.tokpool ++ leBytes 2 ((run - 3) * 2 ^ s.enc.nb.toNat + (jump - 1)) } ∧
          t.enc = { s.enc with p := s.enc.p + run }) ∧
      t.ph = (if t.enc.p < s.enc.n then .encSearch else .encAsm) ∧
      { t with pools := s.pools, enc := s.enc, ph := s.ph } = s

/-- Assembly (R190 to R193): where the match-section offset exceeds 0xFFFFFF the command ends in OffsetOverflow; otherwise OUT holds
header, flags, padded literals and padded cells from address 0, OLEN and OUT_LEN are their length, the command is done, and no
byte beyond the container changed. That the encoder's registers keep their values when the command ends is the model's reading
(log 16, DEDUCED). -/
def Obligations.AssemblyWritesTheContainer : Prop :=
  ∀ s : State, Inv s → s.ph = .encAsm → s.inbox = [] →
    ∃ t, step s = .next t ∧ t.ph = .idle ∧
      (if 0xFFFFFF < moffE s then t.status = statusError (.configError .offsetOverflow)
       else t.status = statusDone ∧ t.olen = (container s).length ∧ t.outLen.toNat = (container s).length ∧
        (∀ i (h : i < (container s).length), t.outByte i = (container s)[i]) ∧
        (∀ a, (container s).length ≤ a → t.outByte a = s.outByte a) ∧
        { t with status := s.status, ph := s.ph, olen := s.olen, outLen := s.outLen, outMem := s.outMem } = s)

/-- The sections of a container stand where its header says (R190, R192): 16 header bytes with the signature, N, the variant,
LOFF_E, nbits and MOFF_E; the sections begin at 16, LOFF_E and MOFF_E, and both offsets and the total are multiples of 4. In states
no run reaches, where N or an offset does not fit its field, le_N cuts it (the model's choice, log 25). -/
def Obligations.ContainerSectionsStandAtTheirOffsets : Prop :=
  ∀ s : State, variantLegal s.enc.var.toNat = true →
    (container s).take 16 = signatureBytes ++ leBytes 3 s.enc.n ++ [s.enc.var] ++ leBytes 3 (loffE s) ++ [s.enc.nb] ++
      leBytes 4 (moffE s) ∧
    ((container s).drop 16).take (flagPack s.pools.flagbits s.enc.var).length = flagPack s.pools.flagbits s.enc.var ∧
    ((container s).drop (loffE s)).take s.pools.litpool.length = s.pools.litpool ∧
    ((container s).drop (moffE s)).take s.pools.tokpool.length = s.pools.tokpool ∧
    (container s).length = moffE s + pad4 s.pools.tokpool.length ∧
    loffE s % 4 = 0 ∧ moffE s % 4 = 0 ∧ (container s).length % 4 = 0

/-- Output size bound (R194): when the search has covered the input, NOPS ≤ N and NLIT + 3·NMATCH ≤ N, TOTAL is at most
16 + 4·(ceil(N/31) + 1) + N + 6, and OUT_CAP is at least this bound. -/
def Obligations.ContainerSizeIsBounded : Prop :=
  ∀ s : State, Inv s → s.ph = .encAsm →
    s.pools.nops ≤ s.enc.n ∧ s.pools.nlit + 3 * s.pools.nmatch ≤ s.enc.n ∧
    pad4 s.pools.nlit + pad4 (2 * s.pools.nmatch) ≤ s.pools.nlit + 2 * s.pools.nmatch + 6 ∧
    (container s).length ≤ 16 + 4 * (ceilDiv s.enc.n 31 + 1) + s.enc.n + 6 ∧
    16 + 4 * (ceilDiv s.enc.n 31 + 1) + s.enc.n + 6 ≤ s.params.outCap

/-- ENCODE, launched and run to its end, produces the reference container of the input bytes, or the reference error (R180 to
R193); no byte of OUT beyond the container changed. -/
def Obligations.EncodeRunsAsTheReference : Prop :=
  ∀ (s s0 : State) (variant nbits : BitVec 8), s.inbox = [] → exec (.encode variant nbits) s = .next s0 →
    ∃ k t, runSteps k s0 = .next t ∧ t.ph = .idle ∧
      match Reference.encodeStream nbits variant (inBytes s 0 s.inLen.toNat) with
      | .ok out => t.status = statusDone ∧ t.outLen.toNat = out.length ∧
          (∀ i (h : i < out.length), t.outByte i = out[i]) ∧
          (∀ a, out.length ≤ a → t.outByte a = s.outByte a)
      | .error e => t.status = statusError e

/-- ENCODE terminates (R186, R257): from every state of the invariant in an encoder phase, with the host waiting, at most
0xFFFFFF + 2 steps lead to IDLE. The count rests on the stepping the model takes from R257 (log 7). -/
def Obligations.EncodeTerminates : Prop :=
  ∀ s : State, Inv s → s.inbox = [] → s.ph = .encCheck ∨ s.ph = .encSearch ∨ s.ph = .encAsm →
    ∃ k t, k ≤ 0xFFFFFF + 2 ∧ runSteps k s = .next t ∧ t.ph = .idle

/-- A listing's container decodes to what its operations produce, cut at SIZE (30_encoding.md R91, 42_decoder.md R147 to R150): for
every legal nbits and variant, every listing whose Matches stay inside the output before them, and every SIZE the operations reach. -/
def Obligations.ListingDecodesToItsOutput : Prop :=
  ∀ (l : Reference.Listing) (checkNbits : Bool) (c : List Byte),
    nbitsLegal l.nbits.toNat = true → variantLegal l.variant.toNat = true →
    Reference.Listing.reaches l.nbits.toNat [] l.ops = true →
    l.size ≤ (Reference.expand [] l.ops).length → l.size ≤ 0xFFFFFF → l.container = .ok c →
    Reference.decodeStream checkNbits c = .ok ((Reference.expand [] l.ops).take l.size)

/-- Round trip of the wire format (R195): decoding the container the reference encoder makes of an input gives the input back, for
every nbits, variant and input it accepts, with or without the decoder's nbits check. -/
def Obligations.ReferenceRoundTrip : Prop :=
  ∀ (nb var : BitVec 8) (checkNbits : Bool) (input c : List Byte),
    Reference.encodeStream nb var input = .ok c → Reference.decodeStream checkNbits c = .ok input

/-- Round trip of the machine (R195): when an ENCODE has ended with DONE, a DECODE whose IN holds the container it wrote ends with
DONE and the encoder's input in OUT. -/
def Obligations.DecodeAfterEncodeReturnsTheInput : Prop :=
  ∀ (s s0 t u u0 : State) (variant nbits v n : BitVec 8) (k : Nat),
    s.inbox = [] → exec (.encode variant nbits) s = .next s0 → runSteps k s0 = .next t → t.status.done = true →
    u.inbox = [] → u.inLen = t.outLen → (∀ a, a < t.outLen.toNat → u.inByte a = t.outByte a) →
    exec (.decode v n) u = .next u0 →
    ∃ k2 w, runSteps k2 u0 = .next w ∧ w.ph = .idle ∧ w.status = statusDone ∧ w.outLen = s.inLen ∧
      ∀ a, a < s.inLen.toNat → w.outByte a = s.inByte a

/-! ## Errors -/

/-- Error entry (60_exceptions.md R228): STATUS reports the error and its detail, BUSY and DONE are 0, PH is IDLE; OUT_LEN and every
byte of OUT are the free values of the next draw (the draw counter is the model's, log 2). That no other state changes, so that
the engine's registers keep their values after an error, is the model's reading and no rule's (log 16, DEDUCED, unsafe): R38 and
R228 name only what survives. -/
def Obligations.ErrorEntryReportsAndAborts : Prop :=
  ∀ (e : Err) (s : State),
    (raiseError e s).status = { busy := false, done := false, error := true, errcode := errCode e, detail := errDetail e } ∧
    (raiseError e s).ph = .idle ∧
    (∀ a, (raiseError e s).outByte a = Config.freeOutByte (s.draw + 1) a) ∧
    (raiseError e s).outLen = Config.freeOutLen (s.draw + 1) ∧
    { raiseError e s with status := s.status, ph := s.ph, outMem := s.outMem, outLen := s.outLen, draw := s.draw } = s

/-- The STATUS words of the outcomes (R24, R220, R224): the words of the spec's table for every error the block raises. -/
def Obligations.StatusWordsOfTheOutcomes : Prop :=
  statusWord statusDone = 0x00000002 ∧ statusWord statusBusy = 0x00000001 ∧
  statusWord (statusError .formatError) = 0x00000014 ∧
  statusWord (statusError .unsupportedVariant) = 0x00000024 ∧
  statusWord (statusError .truncatedStream) = 0x00000034 ∧
  statusWord (statusError .badReference) = 0x00000064 ∧
  statusWord (statusError (.configError .invalidNbits)) = 0x00000144 ∧
  statusWord (statusError (.configError .emptyInput)) = 0x00000244 ∧
  statusWord (statusError (.configError .invalidVariant)) = 0x00000344 ∧
  statusWord (statusError (.configError .inputTooLarge)) = 0x00000444 ∧
  statusWord (statusError (.configError .offsetOverflow)) = 0x00000544 ∧
  statusWord (statusError (.configError .badOp)) = 0x00000644

/-- IoError is never raised (R225, V4): no step makes ERRCODE 5. -/
def Obligations.IoErrorIsNeverRaised : Prop :=
  ∀ s t : State, s.status.errcode ≠ 5 → step s = .next t → t.status.errcode ≠ 5

/-- All of BUSY, DONE and ERROR are 0 only before the first command (R24): a step leaves them all 0 only where they were, or where it
is the reset event. -/
def Obligations.StatusIsBlankOnlyBeforeTheFirstCommand : Prop :=
  ∀ s t : State, step s = .next t → t.status.busy = false ∧ t.status.done = false ∧ t.status.error = false →
    (s.status.busy = false ∧ s.status.done = false ∧ s.status.error = false) ∨ s.inbox.head? = some .reset

/-! ## The host's side -/

/-- A CTRL write with START = 1 that encodes an instruction runs it (R23, R90): step is exec of it. That the command's start is the
step of the host's write is the model's stepping (log 7, DEDUCED). -/
def Obligations.StepRunsTheStartedCommand : Prop :=
  ∀ (s : State) (w : Word) (rest : List HostAct) (i : Instr),
    s.inbox = .writeReg s.params.regBase w :: rest → decodeCtrl w = .ok i → step s = exec i { s with inbox := rest }

/-- START with a reserved OP (R224, R251): the fields are stored, and the outcome is ConfigError BadOp. -/
def Obligations.ReservedOpRaisesBadOp : Prop :=
  ∀ (s : State) (w : Word) (rest : List HostAct),
    s.inbox = .writeReg s.params.regBase w :: rest → s.status.busy = false →
    w &&& 0x80000003 = 0x80000000 ∨ w &&& 0x80000003 = 0x80000003 →
    ∃ t, step s = .next t ∧ t.status = statusError (.configError .badOp) ∧ t.ph = .idle ∧ t.olen = 0 ∧
      ctrlWord t.ctrl = w &&& 0x00FFFF03

/-- CTRL reads back what was written (R23): the OP, NBITS and VARIANT fields, with reserved bits and START reading 0; a write with
START = 0 does nothing else. -/
def Obligations.CtrlReadsBackItsFields : Prop :=
  ∀ (s : State) (w : Word), s.status.busy = false → w.getLsbD 31 = false →
    ∃ t, writeReg s.params.regBase w s = .next t ∧ readReg t s.params.regBase = w &&& 0x00FFFF03 ∧
      { t with ctrl := s.ctrl } = s

/-- The fields of a STATUS read (R24). -/
def Obligations.StatusReadsItsFields : Prop :=
  ∀ s : State,
    (readReg s (s.params.regBase + 1)).toNat =
      s.status.busy.toNat + 2 * s.status.done.toNat + 4 * s.status.error.toNat +
        16 * s.status.errcode.toNat + 256 * s.status.detail.toNat

/-- IN_LEN and OUT_LEN (R25, R26): IN_LEN reads back what was written while idle; OUT_LEN reads OLEN while BUSY. -/
def Obligations.LengthRegistersReadBack : Prop :=
  ∀ (s : State) (w : Word),
    (s.status.busy = false → ∃ t, writeReg (s.params.regBase + 2) w s = .next t ∧
      readReg t (s.params.regBase + 2) = w ∧ { t with inLen := s.inLen } = s) ∧
    (s.status.busy = true → s.olen < 2 ^ 32 → (readReg s (s.params.regBase + 3)).toNat = s.olen) ∧
    (s.status.busy = false → readReg s (s.params.regBase + 3) = s.outLen)

/-- Read-only and absent registers (R22, V6): a write to STATUS, OUT_LEN or an index above 3 has no effect; an index above 3 reads 0. -/
def Obligations.ReadOnlyAndAbsentRegisters : Prop :=
  ∀ (s : State) (w : Word) (i : Nat),
    (i = 1 ∨ i = 3 ∨ 4 ≤ i → writeReg (s.params.regBase + i) w s = .next s) ∧
    (4 ≤ i → readReg s (s.params.regBase + i) = 0)

/-- Host duties (70_reset_and_hazards.md R256): while BUSY, a write to CTRL, to IN_LEN or to IN and any access to OUT has no move
(the refusals are the model's form of a host-duty violation, log 9), while register reads go on. -/
def Obligations.HostDutiesWhileBusy : Prop :=
  ∀ (s : State) (w : Word) (a : Nat) (b : Byte), s.status.busy = true →
    writeReg s.params.regBase w s = .refused .hostWriteWhileBusy ∧
    writeReg (s.params.regBase + 2) w s = .refused .hostWriteWhileBusy ∧
    hostStep (.writeIn a b) s = .refused .hostMemoryWhileBusy ∧
    hostStep (.readOut a) s = .refused .hostMemoryWhileBusy ∧
    hostStep (.writeOut a b) s = .refused .hostMemoryWhileBusy ∧
    hostStep (.readReg a) s = .next { s with busData := readReg s a }

/-- The host's memory accesses while no command runs (20_memory.md R50, R61, 70_reset_and_hazards.md R252): a byte of IN or OUT reads
back what was written to it, every other byte and all other state are as before, and a read of OUT returns its byte (one byte
an access is the model's form, log 20; that the byte shows once BUSY is 0, without the STATUS read of R61, is its choice, log 27). -/
def Obligations.HostMemoryReadsAndWrites : Prop :=
  ∀ (s : State) (a : Nat) (b : Byte), s.status.busy = false →
    (a < s.params.maxInLen → ∃ t, hostStep (.writeIn a b) s = .next t ∧
      (∀ c, t.inByte c = if c = a then b else s.inByte c) ∧ { t with inMem := s.inMem } = s) ∧
    (a < s.params.outCap → ∃ t, hostStep (.writeOut a b) s = .next t ∧
      (∀ c, t.outByte c = if c = a then b else s.outByte c) ∧ { t with outMem := s.outMem } = s) ∧
    (a < s.params.outCap → hostStep (.readOut a) s = .next { s with busData := (s.outByte a).setWidth 32 })

/-- Launches the model does not admit (R58, R256): DECODE whose declared size, and ENCODE whose bound, does not fit in OUT_CAP (the
refusal at START is the model's, log 8). -/
def Obligations.LaunchNeedsRoomForTheResult : Prop :=
  ∀ (s : State) (variant nbits : BitVec 8), s.status.busy = false → s.inLen.toNat ≤ s.params.maxInLen →
    (∀ size, declaredSize s = some size → s.params.outCap < size →
      exec (.decode variant nbits) s = .refused .launchOutCapTooSmall) ∧
    (10 ≤ nbits.toNat → nbits.toNat ≤ 13 → variant = 0 ∨ variant = 2 → 1 ≤ s.inLen.toNat →
      s.inLen.toNat ≤ 0xFFFFFF → s.params.outCap < 16 + 4 * (ceilDiv s.inLen.toNat 31 + 1) + s.inLen.toNat + 6 →
      exec (.encode variant nbits) s = .refused .launchOutCapTooSmall)

/-- IDLE (R238): with nothing from the host a step changes nothing, and only a START of DECODE or ENCODE leaves IDLE. -/
def Obligations.OnlyStartLeavesIdle : Prop :=
  (∀ s : State, s.ph = .idle → s.inbox = [] → step s = .next s) ∧
  (∀ s t : State, s.ph = .idle → step s = .next t → t.ph ≠ .idle →
    ∃ w rest, s.inbox = .writeReg s.params.regBase w :: rest ∧
      (w &&& 0x80000003 = 0x80000001 ∨ w &&& 0x80000003 = 0x80000002))

/-- While a command runs, nothing but reset changes IN, IN_LEN, CTRL or the parameters (R56, R64, R256). -/
def Obligations.InputIsFixedWhileBusy : Prop :=
  ∀ s t : State, s.status.busy = true → s.inbox.head? ≠ some .reset → step s = .next t →
    t.inMem = s.inMem ∧ t.inLen = s.inLen ∧ t.ctrl = s.ctrl ∧ t.params = s.params

/-! ## Reset and the invariant -/

/-- Reset (R250): CTRL, STATUS, IN_LEN and OUT_LEN read 0, PH is IDLE, FQN and OLEN are 0, and the block does nothing.
The registers are read at REG_BASE 0 (log 6). -/
def Obligations.ResetValues : Prop :=
  readReg State.reset 0 = 0 ∧ readReg State.reset 1 = 0 ∧ readReg State.reset 2 = 0 ∧ readReg State.reset 3 = 0 ∧
  State.reset.ph = .idle ∧ State.reset.fq.count = 0 ∧ State.reset.olen = 0 ∧ step State.reset = .next State.reset

/-- The reset event (R250): whatever the block was doing, the listed registers take their reset values, every byte of OUT is the free
value of the next draw, and IN and the parameters are not touched (log 17 for the free value and the host's own fields). -/
def Obligations.ResetEventRestoresTheResetValues : Prop :=
  ∀ (s : State) (rest : List HostAct), s.inbox = .reset :: rest →
    ∃ t, step s = .next t ∧ t.ctrl = State.reset.ctrl ∧ t.status = State.reset.status ∧ t.inLen = 0 ∧ t.outLen = 0 ∧
      t.ph = .idle ∧ t.fq.count = 0 ∧ t.olen = 0 ∧ t.inMem = s.inMem ∧ t.params = s.params ∧ t.inbox = rest ∧
      ∀ a, t.outByte a = Config.freeOutByte (s.draw + 1) a

/-- The invariant holds at reset. -/
def Obligations.ResetMeetsTheInvariant : Prop := Inv State.reset

/-- Every step keeps the invariant: the memories stay canonical, STATUS legal, BUSY exact, and each phase keeps its own (R24, R27 to
R34). -/
def Obligations.StepKeepsTheInvariant : Prop := ∀ s t : State, Inv s → step s = .next t → Inv t

/-- The engine never stops (R227, R257): in every state of the invariant with the host waiting, a step answers a next state; no
fault and no refusal is reachable by the engine. -/
def Obligations.EngineNeverStops : Prop := ∀ s : State, Inv s → s.inbox = [] → ∃ t, step s = .next t
end

