-- ==== Sys2Proof/Laws/Memory.lean ====
section
/-! SUPPORT. The laws of memory as data: read after write, and that every memory operation keeps the canonical form. -/

namespace Sys2Proof.Machine

/-- A read after a write gives the written value at its address and the old one elsewhere. -/
theorem Memory.read_write (m : Memory) (a b : Nat) (v : Byte) :
    Memory.read (Memory.write m a v) b = if b = a then some v else Memory.read m b := by
  induction m with
  | nil => simp [Memory.write, Memory.read, eq_comm]
  | cons kv m ih =>
    obtain ⟨k, w⟩ := kv
    simp only [Memory.write]
    by_cases h1 : a < k
    · simp [h1, Memory.read, eq_comm]
    · by_cases h2 : a = k
      · subst h2; by_cases h : a = b <;> simp [Memory.read, h, eq_comm]
      · by_cases h : k = b
        · subst h; simp [Memory.read, h1, h2, Ne.symm h2]
        · simp [Memory.read, h1, h2, h, ih]

theorem Memory.read_write_same (m : Memory) (a : Nat) (v : Byte) : Memory.read (Memory.write m a v) a = some v := by
  simp [Memory.read_write]

theorem Memory.read_write_other (m : Memory) {a b : Nat} (v : Byte) (h : b ≠ a) :
    Memory.read (Memory.write m a v) b = Memory.read m b := by
  simp [Memory.read_write, h]

theorem Memory.risingFrom_mono {m : Memory} {lo lo' : Nat} (h : lo' ≤ lo) (hm : Memory.risingFrom lo m = true) :
    Memory.risingFrom lo' m = true := by
  cases m with
  | nil => rfl
  | cons kv m =>
    obtain ⟨k, w⟩ := kv
    simp only [Memory.risingFrom, Bool.and_eq_true, decide_eq_true_eq] at *
    exact ⟨h.trans hm.1, hm.2⟩

theorem Memory.risingFrom_write {m : Memory} {lo a : Nat} (v : Byte) (ha : lo ≤ a) (hm : Memory.risingFrom lo m = true) :
    Memory.risingFrom lo (Memory.write m a v) = true := by
  induction m generalizing lo with
  | nil => simp [Memory.write, Memory.risingFrom, ha]
  | cons kv m ih =>
    obtain ⟨k, w⟩ := kv
    simp only [Memory.risingFrom, Bool.and_eq_true, decide_eq_true_eq] at hm
    rw [Memory.write]
    split_ifs with h1 h2
    · simp only [Memory.risingFrom, Bool.and_eq_true, decide_eq_true_eq]; exact ⟨ha, by omega, hm.2⟩
    · subst h2; simp only [Memory.risingFrom, Bool.and_eq_true, decide_eq_true_eq]; exact hm
    · simp only [Memory.risingFrom, Bool.and_eq_true, decide_eq_true_eq]; exact ⟨hm.1, ih (by omega) hm.2⟩

/-- A write keeps the canonical form. -/
theorem Memory.wf_write {m : Memory} (a : Nat) (v : Byte) (h : Memory.wf m = true) : Memory.wf (Memory.write m a v) = true :=
  Memory.risingFrom_write v (Nat.zero_le a) h

/-- The empty memory has the canonical form. -/
@[simp] theorem Memory.wf_nil : Memory.wf [] = true := rfl

/-- Writing a byte string keeps the canonical form. -/
theorem Memory.wf_writeBytes {m : Memory} (a : Nat) (bs : List Byte) (h : Memory.wf m = true) :
    Memory.wf (Memory.writeBytes m a bs) = true := by
  induction bs generalizing m a with
  | nil => exact h
  | cons b bs ih => exact ih (a + 1) (Memory.wf_write a b h)

/-- A read after writing a byte string: the string's byte inside it, the old value outside. -/
theorem Memory.read_writeBytes (m : Memory) (a b : Nat) (bs : List Byte) :
    Memory.read (Memory.writeBytes m a bs) b =
      if h : a ≤ b ∧ b - a < bs.length then some bs[b - a] else Memory.read m b := by
  induction bs generalizing m a with
  | nil => simp [Memory.writeBytes]
  | cons v bs ih =>
    rw [Memory.writeBytes, ih, Memory.read_write]
    rcases Nat.lt_trichotomy b a with h | h | h
    · simp [show ¬ a + 1 ≤ b by omega, show ¬ a ≤ b by omega, show b ≠ a by omega]
    · subst h; simp
    · have hb : b - a = (b - (a + 1)) + 1 := by omega
      by_cases hl : b - (a + 1) < bs.length
      · simp [show a + 1 ≤ b by omega, show a ≤ b by omega, hl, hb]
      · simp [show a ≤ b by omega, hl, hb, show b ≠ a by omega]

/-- The memories of State.reset have the canonical form. -/
theorem reset_memories_wf : Memory.wf State.reset.inMem = true ∧ Memory.wf State.reset.outMem = true := ⟨rfl, rfl⟩

/-- An append to OUT keeps the canonical form. -/
theorem pushByte_wf {s : State} (b : Byte) (h : Memory.wf s.outMem = true) : Memory.wf (pushByte b s).outMem = true :=
  Memory.wf_write _ _ h

/-- Writing a container to OUT keeps the canonical form. -/
theorem writeOut_wf {s : State} (bs : List Byte) (h : Memory.wf s.outMem = true) : Memory.wf (writeOut bs s).outMem = true :=
  Memory.wf_writeBytes _ _ h

/-- Error entry leaves OUT with the canonical form: nothing is listed. -/
theorem raiseError_wf (e : Err) (s : State) : Memory.wf (raiseError e s).outMem = true := rfl

/-- Writing two byte strings one after the other is writing them joined. -/
theorem Memory.writeBytes_append (m : Memory) (a : Nat) (xs ys : List Byte) :
    Memory.writeBytes m a (xs ++ ys) = Memory.writeBytes (Memory.writeBytes m a xs) (a + xs.length) ys := by
  induction xs generalizing m a with
  | nil => rfl
  | cons x xs ih => simp only [List.cons_append, Memory.writeBytes, ih, List.length_cons]; congr 1; omega

/-- Equal reads at every address make canonical memories equal. -/
theorem Memory.ext_of_wf {m n : Memory} {lo : Nat} (hm : Memory.risingFrom lo m = true) (hn : Memory.risingFrom lo n = true)
    (h : ∀ a, Memory.read m a = Memory.read n a) : m = n := by
  have below : ∀ (q : Memory) (lo a : Nat), Memory.risingFrom lo q = true → a < lo → Memory.read q a = none := by
    intro q
    induction q with
    | nil => intros; rfl
    | cons kv q ih =>
      obtain ⟨k, w⟩ := kv
      intro lo a hq ha
      simp only [Memory.risingFrom, Bool.and_eq_true, decide_eq_true_eq] at hq
      simp [Memory.read, show k ≠ a by omega, ih (k + 1) a hq.2 (by omega)]
  induction m generalizing n lo with
  | nil =>
    cases n with
    | nil => rfl
    | cons kv n => obtain ⟨k, w⟩ := kv; simpa [Memory.read] using h k
  | cons kv m ih =>
    obtain ⟨k, w⟩ := kv
    cases n with
    | nil => simpa [Memory.read] using h k
    | cons kv' n =>
      obtain ⟨k', w'⟩ := kv'
      simp only [Memory.risingFrom, Bool.and_eq_true, decide_eq_true_eq] at hm hn
      have hk : k = k' := by
        rcases Nat.lt_trichotomy k k' with hl | hl | hl
        · have := h k; simp [Memory.read, show k' ≠ k by omega, below n (k' + 1) k hn.2 (by omega)] at this
        · exact hl
        · have := h k'; simp [Memory.read, show k ≠ k' by omega, below m (k + 1) k' hm.2 (by omega)] at this
      subst hk
      have hw : w = w' := by simpa [Memory.read] using h k
      subst hw
      refine congrArg _ (ih hm.2 hn.2 fun a => ?_)
      by_cases ha : k = a
      · subst ha; rw [below m (k + 1) k hm.2 (by omega), below n (k + 1) k hn.2 (by omega)]
      · simpa [Memory.read, ha] using h a

/-! ## A byte at a time -/

theorem outByte_write (s : State) (a b : Nat) (v : Byte) :
    State.outByte { s with outMem := Memory.write s.outMem a v } b = if b = a then v else s.outByte b := by
  by_cases h : b = a <;> simp [State.outByte, Memory.read_write, h]

theorem inByte_write (s : State) (a b : Nat) (v : Byte) :
    State.inByte { s with inMem := Memory.write s.inMem a v } b = if b = a then v else s.inByte b := by
  by_cases h : b = a <;> simp [State.inByte, Memory.read_write, h]

/-- What a byte of OUT reads as after an append. -/
theorem outByte_pushByte (b : Byte) (s : State) (a : Nat) :
    (pushByte b s).outByte a = if a = s.olen then b else s.outByte a := by
  by_cases h : a = s.olen <;> simp [State.outByte, pushByte, Memory.read_write, h]

theorem outByte_writeBytes (s : State) (a b : Nat) (bs : List Byte) :
    State.outByte { s with outMem := Memory.writeBytes s.outMem a bs } b =
      if h : a ≤ b ∧ b - a < bs.length then bs[b - a] else s.outByte b := by
  by_cases h : a ≤ b ∧ b - a < bs.length <;> simp [State.outByte, Memory.read_writeBytes, h]

/-- What a byte of OUT reads as after a byte string was written from address 0. -/
theorem outByte_writeOut (bs : List Byte) (s : State) (a : Nat) :
    (writeOut bs s).outByte a = if h : a < bs.length then bs[a] else s.outByte a := by
  by_cases h : a < bs.length <;> simp [State.outByte, writeOut, Memory.read_writeBytes, h]

theorem inByte_writeBytes (s : State) (a b : Nat) (bs : List Byte) :
    State.inByte { s with inMem := Memory.writeBytes s.inMem a bs } b =
      if h : a ≤ b ∧ b - a < bs.length then bs[b - a] else s.inByte b := by
  by_cases h : a ≤ b ∧ b - a < bs.length <;> simp [State.inByte, Memory.read_writeBytes, h]

/-! ## Reads of IN, reads and appends of OUT -/

@[simp] theorem inBytes_length (s : State) (a n : Nat) : (inBytes s a n).length = n := by simp [inBytes]

theorem inBytes_getElem (s : State) (a n i : Nat) (h : i < (inBytes s a n).length) : (inBytes s a n)[i] = s.inByte (a + i) := by
  simp [inBytes]

/-- MemRead gives nothing exactly where the read passes IN_LEN (R51). -/
theorem memRead_eq_none {s : State} {a n : Nat} : memRead s a n = none ↔ s.inLen.toNat < a + n := by
  simp [memRead]

/-- Everything MemRead can answer (R11, R51). -/
theorem memRead_eq_some {s : State} {a n v : Nat} :
    memRead s a n = some v ↔ a + n ≤ s.inLen.toNat ∧ v = leNat (inBytes s a n) := by
  simp only [memRead]; split_ifs with h
  · simp; omega
  · simp [eq_comm]; omega

/-- Everything OutRead can answer (R11). -/
theorem outRead_eq_some {s : State} {i : Nat} {b : Byte} : outRead s i = some b ↔ i < s.olen ∧ b = s.outByte i := by
  simp only [outRead]; split_ifs with h <;> simp [h, eq_comm]

/-- Everything OutAppend can answer (R11, R50). -/
theorem outAppend_eq_some {b : Byte} {s t : State} :
    outAppend b s = some t ↔
      s.olen < s.params.outCap ∧ t = pushByte b s := by
  simp only [outAppend]; split_ifs with h <;> simp [h, eq_comm]

/-- Everything MemWrite of a byte string can answer (R11, R193). -/
theorem outWriteAll_eq_some {bs : List Byte} {s t : State} :
    outWriteAll bs s = some t ↔
      bs.length ≤ s.params.outCap ∧ t = writeOut bs s := by
  simp only [outWriteAll]; split_ifs with h <;> simp [h, eq_comm]

/-- A value MemRead gives is below 256^n. -/
theorem memRead_lt {s : State} {a n v : Nat} (h : memRead s a n = some v) : v < 256 ^ n := by
  obtain ⟨-, rfl⟩ := memRead_eq_some.1 h
  have lt : ∀ bs : List Byte, leNat bs < 256 ^ bs.length := by
    intro bs
    induction bs with
    | nil => simp [leNat]
    | cons b bs ih => simp only [leNat, List.length_cons, pow_succ]; have := b.isLt; omega
  simpa using lt (inBytes s a n)

/-- IN and its listed bytes alone decide what a byte of IN reads as. -/
theorem inBytes_congr {s t : State} (hm : t.inMem = s.inMem) (a n : Nat) : inBytes t a n = inBytes s a n := by
  simp [inBytes, State.inByte, hm]

end Sys2Proof.Machine
end

