-- ==== Sys2Proof/Laws/Codec.lean ====
section
/-! SUPPORT. The laws of the pure units: byte order, rounding, the token codec, the flag packer and the flag queue. -/

namespace Sys2Proof.Machine

/-! ## Byte order and rounding -/

@[simp] theorem leBytes_length (n v : Nat) : (leBytes n v).length = n := by
  induction n generalizing v with
  | zero => rfl
  | succ n ih => simp [leBytes, ih]

/-- A byte string is below 256^length. -/
theorem leNat_lt (bs : List Byte) : leNat bs < 256 ^ bs.length := by
  induction bs with
  | nil => simp [leNat]
  | cons b bs ih => simp only [leNat, List.length_cons, pow_succ]; have := b.isLt; omega

/-- The bytes of a number, read back (R11). -/
theorem leNat_leBytes (n v : Nat) : leNat (leBytes n v) = v % 256 ^ n := by
  induction n generalizing v with
  | zero => simp [leNat, leBytes, Nat.mod_one]
  | succ n ih =>
    rw [leBytes, leNat, ih, BitVec.toNat_ofNat, pow_succ' 256 n, Nat.mod_mul]

/-- The number of a byte string, written back (R11). -/
theorem leBytes_leNat (bs : List Byte) : leBytes bs.length (leNat bs) = bs := by
  induction bs with
  | nil => rfl
  | cons b bs ih =>
    have hb := b.isLt
    simp only [List.length_cons, leBytes, leNat]
    rw [show (b.toNat + 256 * leNat bs) / 256 = leNat bs by omega, ih]
    congr 1
    apply BitVec.eq_of_toNat_eq
    rw [BitVec.toNat_ofNat]
    omega

/-- The bytes MemRead assembled, taken apart again (R11, R52). -/
theorem leBytes_leNat_inBytes (s : State) (a n : Nat) : leBytes n (leNat (inBytes s a n)) = inBytes s a n := by
  have h := leBytes_leNat (inBytes s a n)
  rwa [inBytes_length] at h

/-- Bit i of byte k of a byte string is bit 8k + i of its number (R53). -/
theorem leNat_testBit (bs : List Byte) (k i : Nat) (hi : i < 8) (hk : k < bs.length) :
    (leNat bs).testBit (8 * k + i) = bs[k].getLsbD i := by
  induction bs generalizing k with
  | nil => simp at hk
  | cons b bs ih =>
    have hb := b.isLt
    rw [leNat, show b.toNat + 256 * leNat bs = 2 ^ 8 * leNat bs + b.toNat by omega, Nat.testBit_two_pow_mul_add _ hb]
    cases k with
    | zero => simp [hi, BitVec.getLsbD]
    | succ k =>
      simp only [show ¬ 8 * (k + 1) + i < 8 by omega, if_false, show 8 * (k + 1) + i - 8 = 8 * k + i by omega]
      simpa using ih k (by simpa using hk)

/-- Bit i of byte k of the flag word at a (R53). -/
theorem flagWordAt_getLsbD (s : State) (a k i : Nat) (hi : i < 8) (hk : k < 4) :
    (BitVec.ofNat 32 (leNat (inBytes s a 4))).getLsbD (8 * k + i) = (s.inByte (a + k)).getLsbD i := by
  rw [BitVec.getLsbD_ofNat, leNat_testBit _ _ _ hi (by simpa using hk), inBytes_getElem]
  simp; omega

theorem leNat_append (xs ys : List Byte) : leNat (xs ++ ys) = leNat xs + 256 ^ xs.length * leNat ys := by
  induction xs with
  | nil => simp [leNat]
  | cons x xs ih => simp only [List.cons_append, leNat, ih, List.length_cons, pow_succ]; ring

/-- pad4 is the least multiple of 4 that is at least x (R10). -/
theorem pad4_spec (x : Nat) : x ≤ pad4 x ∧ pad4 x < x + 4 ∧ pad4 x % 4 = 0 := by
  simp only [pad4, ceilDiv]; omega

@[simp] theorem padded_length (bs : List Byte) : (padded bs).length = pad4 bs.length := by
  have := (pad4_spec bs.length).1
  simp [padded]; omega

/-! ## Token codec -/

theorem nbitsLegal_iff {nb : Nat} : nbitsLegal nb = true ↔ 10 ≤ nb ∧ nb ≤ 13 := by
  simp [nbitsLegal]; omega

theorem variantLegal_iff {v : Nat} : variantLegal v = true ↔ v = 0 ∨ v = 2 := by
  simp [variantLegal]

theorem tokenInRange_iff {jump run nb : Nat} :
    tokenInRange jump run nb = true ↔
      nbitsLegal nb = true ∧ 1 ≤ jump ∧ jump ≤ 2 ^ nb ∧ 3 ≤ run ∧ run ≤ 2 ^ (16 - nb) + 2 := by
  simp only [tokenInRange, Bool.and_eq_true, decide_eq_true_eq, and_assoc]
  rfl

/-- TOKEN_DECODE in terms of division: the low nb bits and the rest (R83, R101). -/
theorem tokenDecode_eq (cell : BitVec 16) (nb : Nat) :
    tokenDecode cell nb = (cell.toNat % 2 ^ nb + 1, cell.toNat / 2 ^ nb + 3) := by
  simp [tokenDecode, Nat.shiftLeft_eq, Nat.shiftRight_eq_div_pow, Nat.and_two_pow_sub_one_eq_mod]

/-- A jump is at least 1 and a run at least 3, for any nbits (R101, R102). -/
theorem tokenDecode_pos (cell : BitVec 16) (nb : Nat) : 1 ≤ (tokenDecode cell nb).1 ∧ 3 ≤ (tokenDecode cell nb).2 := by
  simp [tokenDecode_eq]

/-- The cell of an in-range pair in terms of arithmetic (R83, R100). -/
theorem tokenCell_toNat {jump run nb : Nat} (h : tokenInRange jump run nb = true) :
    (tokenCell jump run nb).toNat = (run - 3) * 2 ^ nb + (jump - 1) := by
  obtain ⟨hn, h1, h2, h3, h4⟩ := tokenInRange_iff.1 h
  obtain ⟨hlo, hhi⟩ := nbitsLegal_iff.1 hn
  have hj : jump - 1 < 2 ^ nb := by omega
  have hr : run - 3 + 1 ≤ 2 ^ (16 - nb) := by omega
  have hp : 2 ^ (16 - nb) * 2 ^ nb = 65536 := by rw [← pow_add, show 16 - nb + nb = 16 by omega]; norm_num
  have hlt : (run - 3) * 2 ^ nb + (jump - 1) < 65536 := by
    calc (run - 3) * 2 ^ nb + (jump - 1) < (run - 3 + 1) * 2 ^ nb := by rw [Nat.add_mul]; omega
      _ ≤ 2 ^ (16 - nb) * 2 ^ nb := Nat.mul_le_mul_right _ hr
      _ = 65536 := hp
  have hor : (run - 3) <<< nb ||| (jump - 1) = (run - 3) * 2 ^ nb + (jump - 1) := by
    rw [← Nat.shiftLeft_add_eq_or_of_lt hj, Nat.shiftLeft_eq]
  have hmask : ∀ x : Nat, x &&& 0xFFFF = x % 65536 := fun x => Nat.and_two_pow_sub_one_eq_mod x 16
  simp only [tokenCell, BitVec.toNat_ofNat, hor, hmask]
  omega

/-- Decoding the cell of an in-range pair gives the pair (R103). -/
theorem tokenDecode_tokenCell {jump run nb : Nat} (h : tokenInRange jump run nb = true) :
    tokenDecode (tokenCell jump run nb) nb = (jump, run) := by
  obtain ⟨_, h1, h2, h3, _⟩ := tokenInRange_iff.1 h
  have hj : jump - 1 < 2 ^ nb := by omega
  rw [tokenDecode_eq, tokenCell_toNat h]
  refine Prod.ext ?_ ?_
  · simp [Nat.mul_comm _ (2 ^ nb), Nat.mod_eq_of_lt hj]; omega
  · simp only; rw [Nat.mul_comm, Nat.mul_add_div (Nat.two_pow_pos nb), Nat.div_eq_of_lt hj]; omega

/-- Every cell of a legal nbits names an in-range pair (R83). -/
theorem tokenDecode_inRange {nb : Nat} (h : nbitsLegal nb = true) (cell : BitVec 16) :
    tokenInRange (tokenDecode cell nb).1 (tokenDecode cell nb).2 nb = true := by
  obtain ⟨hlo, hhi⟩ := nbitsLegal_iff.1 h
  have hp : 2 ^ (16 - nb) * 2 ^ nb = 65536 := by rw [← pow_add, show 16 - nb + nb = 16 by omega]; norm_num
  have hc := cell.isLt
  have hm : cell.toNat % 2 ^ nb < 2 ^ nb := Nat.mod_lt _ (Nat.two_pow_pos nb)
  have hd : cell.toNat / 2 ^ nb < 2 ^ (16 - nb) := by
    rw [Nat.div_lt_iff_lt_mul (Nat.two_pow_pos nb), hp]; exact hc
  rw [tokenInRange_iff, tokenDecode_eq]
  exact ⟨h, Nat.le_add_left _ _, hm, Nat.le_add_left _ _, by dsimp only; generalize cell.toNat / 2 ^ nb = q at *; omega⟩

/-! ## Flag packer -/

theorem flagsPerWord_pos (variant : BitVec 8) : 0 < flagsPerWord variant := by
  rw [flagsPerWord]; split_ifs <;> omega

theorem packFlags_lt (k : Nat) (fs : List Bool) : packFlags k fs < 2 ^ k := by
  induction k generalizing fs with
  | zero => cases fs <;> simp [packFlags]
  | succ k ih =>
    cases fs with
    | nil => simp [packFlags]
    | cons f fs => have := ih fs; cases f <;> simp [packFlags, pow_succ] <;> omega

/-- ceil of a positive count steps down by one word per B flags. -/
theorem ceilDiv_succ {n b : Nat} (hb : 0 < b) (hn : 0 < n) : ceilDiv n b = ceilDiv (n - b) b + 1 := by
  simp only [ceilDiv]
  rcases Nat.lt_or_ge n b with h | h
  · rw [show n - b = 0 by omega, show n + b - 1 = (n - 1) + b by omega, Nat.add_div_right _ hb,
      Nat.div_eq_of_lt (show n - 1 < b by omega), Nat.div_eq_of_lt (show 0 + b - 1 < b by omega)]
  · rw [show n + b - 1 = (n - b + b - 1) + b by omega, Nat.add_div_right _ hb]

@[simp] theorem ceilDiv_zero {b : Nat} (hb : 0 < b) : ceilDiv 0 b = 0 := Nat.div_eq_of_lt (by omega)

theorem packWords_length (variant : BitVec 8) (fs : List Bool) :
    (packWords variant (ceilDiv fs.length (flagsPerWord variant)) fs).length =
      4 * ceilDiv fs.length (flagsPerWord variant) := by
  generalize hn : ceilDiv fs.length (flagsPerWord variant) = n
  induction n generalizing fs with
  | zero => rfl
  | succ n ih =>
    cases fs with
    | nil => simp [ceilDiv_zero (flagsPerWord_pos variant)] at hn
    | cons f fs =>
      have h := ceilDiv_succ (flagsPerWord_pos variant) (n := (f :: fs).length) (by simp)
      rw [hn] at h
      have := ih ((f :: fs).drop (flagsPerWord variant)) (by rw [List.length_drop]; omega)
      simp only [packWords, List.length_append, leBytes_length, this]; omega

/-- |FLAG_PACK| (R126). -/
theorem flagPack_length (fs : List Bool) (variant : BitVec 8) :
    (flagPack fs variant).length =
      4 * ceilDiv fs.length (flagsPerWord variant) + (if variant = 0 then 4 else 0) := by
  rw [flagPack, List.length_append, packWords_length]; split_ifs <;> simp

theorem flagPack_length_mod (fs : List Bool) (variant : BitVec 8) : (flagPack fs variant).length % 4 = 0 := by
  rw [flagPack_length]; split_ifs <;> omega

/-! ## Flag queue -/

theorem refillQueue_count (var : BitVec 8) (w : Word) : (refillQueue var w).count = if var = 0 then 31 else 32 := by
  rw [refillQueue]; split_ifs <;> rfl

/-- FLAG_NEXT gives nothing exactly where a refill is due and the word passes IN_LEN (R120). -/
theorem flagNext_eq_none {s : State} : flagNext s = none ↔ s.fq.count = 0 ∧ s.inLen.toNat < s.cur.fc + 4 := by
  simp only [flagNext, flagRefill, memRead]
  by_cases h : s.fq.count = 0 <;> by_cases h' : s.inLen.toNat < s.cur.fc + 4 <;> simp [h, h']

/-- Everything FLAG_NEXT can answer (R120): a pop of the pending queue, or of the queue filled from the word at FC. -/
theorem flagNext_eq_some {s t : State} {f : Bool} :
    flagNext s = some (f, t) ↔
      (s.fq.count ≠ 0 ∧ (f, t) = flagPop s) ∨
      (s.fq.count = 0 ∧ s.cur.fc + 4 ≤ s.inLen.toNat ∧
        (f, t) = flagPop (takeFlagWord (leNat (inBytes s s.cur.fc 4)) s)) := by
  simp only [flagNext, flagRefill, memRead]
  by_cases h : s.fq.count = 0 <;> by_cases h' : s.inLen.toNat < s.cur.fc + 4 <;> simp [h, h', eq_comm]; all_goals omega

/-- FLAG_NEXT touches the flag queue and FC only, and FC only by a word inside the input (R120). -/
theorem flagNext_frame {s t : State} {f : Bool} (h : flagNext s = some (f, t)) :
    t = { s with fq := t.fq, cur := { s.cur with fc := t.cur.fc } } ∧
      (t.cur.fc = s.cur.fc ∨ (t.cur.fc = s.cur.fc + 4 ∧ s.cur.fc + 4 ≤ s.inLen.toNat)) := by
  rcases flagNext_eq_some.1 h with ⟨_, h⟩ | ⟨_, hl, h⟩
  · obtain ⟨rfl, rfl⟩ := Prod.ext_iff.1 h; exact ⟨rfl, .inl rfl⟩
  · obtain ⟨rfl, rfl⟩ := Prod.ext_iff.1 h; exact ⟨rfl, .inr ⟨rfl, hl⟩⟩

end Sys2Proof.Machine
end

