-- ==== Sys2Proof/Laws/Decode.lean ====
section
/-! SUPPORT. The laws of decoding: match cells (30_encoding.md R82, R83) and CTRL words (10_state.md R23). -/

namespace Sys2Proof

open Sys2Proof.Machine

/-! ## Match cells -/

theorem leBytes_two (v : Nat) : leBytes 2 v = [BitVec.ofNat 8 v, BitVec.ofNat 8 (v / 256)] := rfl

/-- The two operand bytes of a cell, put together again (R82). -/
theorem cellOf_leBytes (cell : BitVec 16) : cellOf (BitVec.ofNat 8 cell.toNat) (BitVec.ofNat 8 (cell.toNat / 256)) = cell := by
  apply BitVec.eq_of_toNat_eq
  rw [cellOf, ← leBytes_two, BitVec.toNat_ofNat, leNat_leBytes]
  have := cell.isLt
  omega

/-- The cell of two operand bytes, taken apart again (R82). -/
theorem leBytes_cellOf (lo hi : Byte) : leBytes 2 (cellOf lo hi).toNat = [lo, hi] := by
  have h := leBytes_leNat [lo, hi]
  have hl := leNat_lt [lo, hi]
  simp only [List.length_cons, List.length_nil] at h hl
  rw [cellOf, BitVec.toNat_ofNat, Nat.mod_eq_of_lt (by simpa using hl)]
  exact h

/-- The operand bytes of a cell decode to the MATCH of the cell. -/
theorem decode_cell (nb : BitVec 8) (cell : BitVec 16) : decode nb (.op 0 (leBytes 2 cell.toNat)) = decodeCell nb cell := by
  simp only [leBytes_two, decode, show ((0 : BitVec 1) = 1) = False by simp, if_false, cellOf_leBytes]

/-- Encoding what a cell names gives the cell (R103). -/
theorem tokenCell_tokenDecode {nb : Nat} (h : nbitsLegal nb = true) (cell : BitVec 16) :
    tokenCell (tokenDecode cell nb).1 (tokenDecode cell nb).2 nb = cell := by
  apply BitVec.eq_of_toNat_eq
  rw [tokenCell_toNat (tokenDecode_inRange h cell), tokenDecode_eq]
  simp only [Nat.add_sub_cancel]
  rw [Nat.mul_comm]
  exact Nat.div_add_mod _ _

/-! ## CTRL words -/

theorem ctrlVariant_toNat (w : Word) : (ctrlVariant w).toNat = w.toNat / 2 ^ 16 % 256 := by
  simp [ctrlVariant, BitVec.extractLsb'_toNat, Nat.shiftRight_eq_div_pow]

theorem ctrlNbits_toNat (w : Word) : (ctrlNbits w).toNat = w.toNat / 2 ^ 8 % 256 := by
  simp [ctrlNbits, BitVec.extractLsb'_toNat, Nat.shiftRight_eq_div_pow]

/-- START = 1 and OP = op, as a mask of the CTRL word (R23). -/
theorem ctrlSelects_iff (w : Word) (op : BitVec 2) :
    (ctrlStart w = true ∧ ctrlOp w = op) ↔ w &&& 0x80000003 = 0x80000000 ||| op.setWidth 32 := by
  constructor
  · rintro ⟨h1, rfl⟩
    apply BitVec.eq_of_getLsbD_eq; intro i hi
    rw [ctrlStart] at h1
    interval_cases i <;> simp [ctrlOp, h1]
  · intro h
    have hb : ∀ i, (w &&& 0x80000003).getLsbD i = (0x80000000 ||| op.setWidth 32 : Word).getLsbD i := fun i => by rw [h]
    constructor
    · simpa [ctrlStart] using hb 31
    · apply BitVec.eq_of_getLsbD_eq; intro i hi
      have := hb i
      interval_cases i <;> simpa [ctrlOp] using this

/-- The fields of an encoded command (R23). -/
theorem encodeCtrl_fields (op : BitVec 2) (variant nbits : BitVec 8) :
    ∃ w, encodeCtrl op variant nbits = .ctrl w ∧
      ctrlStart w = true ∧ ctrlOp w = op ∧ ctrlVariant w = variant ∧ ctrlNbits w = nbits := by
  refine ⟨_, rfl, ?_, ?_, ?_, ?_⟩
  · simp [ctrlStart]
  · apply BitVec.eq_of_getLsbD_eq; intro i hi
    interval_cases i <;> simp [ctrlOp]
  · apply BitVec.eq_of_getLsbD_eq; intro i hi
    have h1 : variant.getLsbD (16 + i) = false ∧ op.getLsbD (16 + i) = false ∧ nbits.getLsbD (16 + i - 8) = false := by
      refine ⟨?_, ?_, ?_⟩ <;> apply BitVec.getLsbD_of_ge <;> omega
    interval_cases i <;> simp [ctrlVariant]
  · apply BitVec.eq_of_getLsbD_eq; intro i hi
    interval_cases i <;> simp [ctrlNbits]

/-- A CTRL word that is an instruction is DECODE or ENCODE (R90). -/
theorem decodeCtrl_eq_ok {w : Word} {i : Instr} (h : decodeCtrl w = .ok i) :
    i = .decode (ctrlVariant w) (ctrlNbits w) ∨ i = .encode (ctrlVariant w) (ctrlNbits w) := by
  unfold decodeCtrl at h
  split_ifs at h <;> cases h
  · exact .inl rfl
  · exact .inr rfl

/-- What CTRL reads after its fields were stored from w: w with the reserved bits and START 0 (R23). -/
theorem ctrlWord_fields (w : Word) :
    ctrlWord { op := ctrlOp w, nbits := ctrlNbits w, variant := ctrlVariant w } = w &&& 0x00FFFF03 := by
  apply BitVec.eq_of_getLsbD_eq
  intro i hi
  simp only [ctrlWord, ctrlOp, ctrlNbits, ctrlVariant]
  interval_cases i <;> simp

end Sys2Proof
end

