-- ==== Sys2Proof/Laws/State.lean ====
section
/-! SUPPORT. What each named update of State makes of each field: one lemma per field, true by rfl; and what a read of memory
sees of the updates that write none. -/

namespace Sys2Proof.Machine

/-! Error entry (R228) -/

@[simp] theorem raiseError_params (e : Err) (s : State) : (raiseError e s).params = s.params := rfl
@[simp] theorem raiseError_ctrl (e : Err) (s : State) : (raiseError e s).ctrl = s.ctrl := rfl
@[simp] theorem raiseError_status (e : Err) (s : State) : (raiseError e s).status = statusError e := rfl
@[simp] theorem raiseError_inLen (e : Err) (s : State) : (raiseError e s).inLen = s.inLen := rfl
@[simp] theorem raiseError_outLen (e : Err) (s : State) : (raiseError e s).outLen = Config.freeOutLen (s.draw + 1) := rfl
@[simp] theorem raiseError_ph (e : Err) (s : State) : (raiseError e s).ph = .idle := rfl
@[simp] theorem raiseError_hdrNext (e : Err) (s : State) : (raiseError e s).hdrNext = s.hdrNext := rfl
@[simp] theorem raiseError_hdr (e : Err) (s : State) : (raiseError e s).hdr = s.hdr := rfl
@[simp] theorem raiseError_cur (e : Err) (s : State) : (raiseError e s).cur = s.cur := rfl
@[simp] theorem raiseError_fq (e : Err) (s : State) : (raiseError e s).fq = s.fq := rfl
@[simp] theorem raiseError_copy (e : Err) (s : State) : (raiseError e s).copy = s.copy := rfl
@[simp] theorem raiseError_enc (e : Err) (s : State) : (raiseError e s).enc = s.enc := rfl
@[simp] theorem raiseError_pools (e : Err) (s : State) : (raiseError e s).pools = s.pools := rfl
@[simp] theorem raiseError_inMem (e : Err) (s : State) : (raiseError e s).inMem = s.inMem := rfl
@[simp] theorem raiseError_outMem (e : Err) (s : State) : (raiseError e s).outMem = [] := rfl
@[simp] theorem raiseError_olen (e : Err) (s : State) : (raiseError e s).olen = s.olen := rfl
@[simp] theorem raiseError_draw (e : Err) (s : State) : (raiseError e s).draw = s.draw + 1 := rfl
@[simp] theorem raiseError_inbox (e : Err) (s : State) : (raiseError e s).inbox = s.inbox := rfl
@[simp] theorem raiseError_busData (e : Err) (s : State) : (raiseError e s).busData = s.busData := rfl
@[simp] theorem raiseError_inByte (e : Err) (s : State) (a : Nat) : (raiseError e s).inByte a = s.inByte a := rfl
@[simp] theorem raiseError_outByte (e : Err) (s : State) (a : Nat) :
    (raiseError e s).outByte a = Config.freeOutByte (s.draw + 1) a := rfl

/-! Per-command initialisation (R251) -/

@[simp] theorem beginCommand_params (s : State) : (beginCommand s).params = s.params := rfl
@[simp] theorem beginCommand_ctrl (s : State) : (beginCommand s).ctrl = s.ctrl := rfl
@[simp] theorem beginCommand_status (s : State) : (beginCommand s).status = statusBusy := rfl
@[simp] theorem beginCommand_inLen (s : State) : (beginCommand s).inLen = s.inLen := rfl
@[simp] theorem beginCommand_outLen (s : State) : (beginCommand s).outLen = s.outLen := rfl
@[simp] theorem beginCommand_ph (s : State) : (beginCommand s).ph = s.ph := rfl
@[simp] theorem beginCommand_hdrNext (s : State) : (beginCommand s).hdrNext = s.hdrNext := rfl
@[simp] theorem beginCommand_hdr (s : State) : (beginCommand s).hdr = s.hdr := rfl
@[simp] theorem beginCommand_cur (s : State) : (beginCommand s).cur = s.cur := rfl
@[simp] theorem beginCommand_fq (s : State) : (beginCommand s).fq = s.fq := rfl
@[simp] theorem beginCommand_copy (s : State) : (beginCommand s).copy = s.copy := rfl
@[simp] theorem beginCommand_enc (s : State) : (beginCommand s).enc = s.enc := rfl
@[simp] theorem beginCommand_pools (s : State) :
    (beginCommand s).pools = { flagbits := [], litpool := [], tokpool := [] } := rfl
@[simp] theorem beginCommand_inMem (s : State) : (beginCommand s).inMem = s.inMem := rfl
@[simp] theorem beginCommand_outMem (s : State) : (beginCommand s).outMem = s.outMem := rfl
@[simp] theorem beginCommand_olen (s : State) : (beginCommand s).olen = 0 := rfl
@[simp] theorem beginCommand_draw (s : State) : (beginCommand s).draw = s.draw := rfl
@[simp] theorem beginCommand_inbox (s : State) : (beginCommand s).inbox = s.inbox := rfl
@[simp] theorem beginCommand_busData (s : State) : (beginCommand s).busData = s.busData := rfl
@[simp] theorem beginCommand_inByte (s : State) (a : Nat) : (beginCommand s).inByte a = s.inByte a := rfl
@[simp] theorem beginCommand_outByte (s : State) (a : Nat) : (beginCommand s).outByte a = s.outByte a := rfl

/-! A CTRL write's fields (R23) -/

@[simp] theorem storeCtrl_params (op : BitVec 2) (n v : BitVec 8) (s : State) : (storeCtrl op n v s).params = s.params := rfl
@[simp] theorem storeCtrl_ctrl (op : BitVec 2) (n v : BitVec 8) (s : State) :
    (storeCtrl op n v s).ctrl = { op := op, nbits := n, variant := v } := rfl
@[simp] theorem storeCtrl_status (op : BitVec 2) (n v : BitVec 8) (s : State) : (storeCtrl op n v s).status = s.status := rfl
@[simp] theorem storeCtrl_inLen (op : BitVec 2) (n v : BitVec 8) (s : State) : (storeCtrl op n v s).inLen = s.inLen := rfl
@[simp] theorem storeCtrl_outLen (op : BitVec 2) (n v : BitVec 8) (s : State) : (storeCtrl op n v s).outLen = s.outLen := rfl
@[simp] theorem storeCtrl_ph (op : BitVec 2) (n v : BitVec 8) (s : State) : (storeCtrl op n v s).ph = s.ph := rfl
@[simp] theorem storeCtrl_hdrNext (op : BitVec 2) (n v : BitVec 8) (s : State) :
    (storeCtrl op n v s).hdrNext = s.hdrNext := rfl
@[simp] theorem storeCtrl_hdr (op : BitVec 2) (n v : BitVec 8) (s : State) : (storeCtrl op n v s).hdr = s.hdr := rfl
@[simp] theorem storeCtrl_cur (op : BitVec 2) (n v : BitVec 8) (s : State) : (storeCtrl op n v s).cur = s.cur := rfl
@[simp] theorem storeCtrl_fq (op : BitVec 2) (n v : BitVec 8) (s : State) : (storeCtrl op n v s).fq = s.fq := rfl
@[simp] theorem storeCtrl_copy (op : BitVec 2) (n v : BitVec 8) (s : State) : (storeCtrl op n v s).copy = s.copy := rfl
@[simp] theorem storeCtrl_enc (op : BitVec 2) (n v : BitVec 8) (s : State) : (storeCtrl op n v s).enc = s.enc := rfl
@[simp] theorem storeCtrl_pools (op : BitVec 2) (n v : BitVec 8) (s : State) : (storeCtrl op n v s).pools = s.pools := rfl
@[simp] theorem storeCtrl_inMem (op : BitVec 2) (n v : BitVec 8) (s : State) : (storeCtrl op n v s).inMem = s.inMem := rfl
@[simp] theorem storeCtrl_outMem (op : BitVec 2) (n v : BitVec 8) (s : State) : (storeCtrl op n v s).outMem = s.outMem := rfl
@[simp] theorem storeCtrl_olen (op : BitVec 2) (n v : BitVec 8) (s : State) : (storeCtrl op n v s).olen = s.olen := rfl
@[simp] theorem storeCtrl_draw (op : BitVec 2) (n v : BitVec 8) (s : State) : (storeCtrl op n v s).draw = s.draw := rfl
@[simp] theorem storeCtrl_inbox (op : BitVec 2) (n v : BitVec 8) (s : State) : (storeCtrl op n v s).inbox = s.inbox := rfl
@[simp] theorem storeCtrl_busData (op : BitVec 2) (n v : BitVec 8) (s : State) :
    (storeCtrl op n v s).busData = s.busData := rfl
@[simp] theorem storeCtrl_inByte (op : BitVec 2) (n v : BitVec 8) (s : State) (a : Nat) : (storeCtrl op n v s).inByte a = s.inByte a := rfl
@[simp] theorem storeCtrl_outByte (op : BitVec 2) (n v : BitVec 8) (s : State) (a : Nat) : (storeCtrl op n v s).outByte a = s.outByte a := rfl

/-! INIT_DECODE (R145) -/

@[simp] theorem initDecode_params (s : State) : (initDecode s).params = s.params := rfl
@[simp] theorem initDecode_ctrl (s : State) : (initDecode s).ctrl = s.ctrl := rfl
@[simp] theorem initDecode_status (s : State) : (initDecode s).status = s.status := rfl
@[simp] theorem initDecode_inLen (s : State) : (initDecode s).inLen = s.inLen := rfl
@[simp] theorem initDecode_outLen (s : State) : (initDecode s).outLen = s.outLen := rfl
@[simp] theorem initDecode_ph (s : State) : (initDecode s).ph = s.ph := rfl
@[simp] theorem initDecode_hdrNext (s : State) : (initDecode s).hdrNext = s.hdrNext := rfl
@[simp] theorem initDecode_hdr (s : State) : (initDecode s).hdr = s.hdr := rfl
@[simp] theorem initDecode_cur (s : State) :
    (initDecode s).cur = { fc := flagBase, lc := s.hdr.loff.toNat, mc := s.hdr.moff.toNat } := rfl
@[simp] theorem initDecode_fq (s : State) : (initDecode s).fq = { s.fq with count := 0 } := rfl
@[simp] theorem initDecode_copy (s : State) : (initDecode s).copy = s.copy := rfl
@[simp] theorem initDecode_enc (s : State) : (initDecode s).enc = s.enc := rfl
@[simp] theorem initDecode_pools (s : State) : (initDecode s).pools = s.pools := rfl
@[simp] theorem initDecode_inMem (s : State) : (initDecode s).inMem = s.inMem := rfl
@[simp] theorem initDecode_outMem (s : State) : (initDecode s).outMem = s.outMem := rfl
@[simp] theorem initDecode_olen (s : State) : (initDecode s).olen = 0 := rfl
@[simp] theorem initDecode_draw (s : State) : (initDecode s).draw = s.draw := rfl
@[simp] theorem initDecode_inbox (s : State) : (initDecode s).inbox = s.inbox := rfl
@[simp] theorem initDecode_busData (s : State) : (initDecode s).busData = s.busData := rfl
@[simp] theorem initDecode_inByte (s : State) (a : Nat) : (initDecode s).inByte a = s.inByte a := rfl
@[simp] theorem initDecode_outByte (s : State) (a : Nat) : (initDecode s).outByte a = s.outByte a := rfl

/-! An append to OUT (R11) -/

@[simp] theorem pushByte_params (b : Byte) (s : State) : (pushByte b s).params = s.params := rfl
@[simp] theorem pushByte_ctrl (b : Byte) (s : State) : (pushByte b s).ctrl = s.ctrl := rfl
@[simp] theorem pushByte_status (b : Byte) (s : State) : (pushByte b s).status = s.status := rfl
@[simp] theorem pushByte_inLen (b : Byte) (s : State) : (pushByte b s).inLen = s.inLen := rfl
@[simp] theorem pushByte_outLen (b : Byte) (s : State) : (pushByte b s).outLen = s.outLen := rfl
@[simp] theorem pushByte_ph (b : Byte) (s : State) : (pushByte b s).ph = s.ph := rfl
@[simp] theorem pushByte_hdrNext (b : Byte) (s : State) : (pushByte b s).hdrNext = s.hdrNext := rfl
@[simp] theorem pushByte_hdr (b : Byte) (s : State) : (pushByte b s).hdr = s.hdr := rfl
@[simp] theorem pushByte_cur (b : Byte) (s : State) : (pushByte b s).cur = s.cur := rfl
@[simp] theorem pushByte_fq (b : Byte) (s : State) : (pushByte b s).fq = s.fq := rfl
@[simp] theorem pushByte_copy (b : Byte) (s : State) : (pushByte b s).copy = s.copy := rfl
@[simp] theorem pushByte_enc (b : Byte) (s : State) : (pushByte b s).enc = s.enc := rfl
@[simp] theorem pushByte_pools (b : Byte) (s : State) : (pushByte b s).pools = s.pools := rfl
@[simp] theorem pushByte_inMem (b : Byte) (s : State) : (pushByte b s).inMem = s.inMem := rfl
@[simp] theorem pushByte_outMem (b : Byte) (s : State) : (pushByte b s).outMem = Memory.write s.outMem s.olen b := rfl
@[simp] theorem pushByte_olen (b : Byte) (s : State) : (pushByte b s).olen = s.olen + 1 := rfl
@[simp] theorem pushByte_draw (b : Byte) (s : State) : (pushByte b s).draw = s.draw := rfl
@[simp] theorem pushByte_inbox (b : Byte) (s : State) : (pushByte b s).inbox = s.inbox := rfl
@[simp] theorem pushByte_busData (b : Byte) (s : State) : (pushByte b s).busData = s.busData := rfl
@[simp] theorem pushByte_inByte (b : Byte) (s : State) (a : Nat) : (pushByte b s).inByte a = s.inByte a := rfl

/-! The container in OUT (R193) -/

@[simp] theorem writeOut_params (bs : List Byte) (s : State) : (writeOut bs s).params = s.params := rfl
@[simp] theorem writeOut_ctrl (bs : List Byte) (s : State) : (writeOut bs s).ctrl = s.ctrl := rfl
@[simp] theorem writeOut_status (bs : List Byte) (s : State) : (writeOut bs s).status = s.status := rfl
@[simp] theorem writeOut_inLen (bs : List Byte) (s : State) : (writeOut bs s).inLen = s.inLen := rfl
@[simp] theorem writeOut_outLen (bs : List Byte) (s : State) : (writeOut bs s).outLen = s.outLen := rfl
@[simp] theorem writeOut_ph (bs : List Byte) (s : State) : (writeOut bs s).ph = s.ph := rfl
@[simp] theorem writeOut_hdrNext (bs : List Byte) (s : State) : (writeOut bs s).hdrNext = s.hdrNext := rfl
@[simp] theorem writeOut_hdr (bs : List Byte) (s : State) : (writeOut bs s).hdr = s.hdr := rfl
@[simp] theorem writeOut_cur (bs : List Byte) (s : State) : (writeOut bs s).cur = s.cur := rfl
@[simp] theorem writeOut_fq (bs : List Byte) (s : State) : (writeOut bs s).fq = s.fq := rfl
@[simp] theorem writeOut_copy (bs : List Byte) (s : State) : (writeOut bs s).copy = s.copy := rfl
@[simp] theorem writeOut_enc (bs : List Byte) (s : State) : (writeOut bs s).enc = s.enc := rfl
@[simp] theorem writeOut_pools (bs : List Byte) (s : State) : (writeOut bs s).pools = s.pools := rfl
@[simp] theorem writeOut_inMem (bs : List Byte) (s : State) : (writeOut bs s).inMem = s.inMem := rfl
@[simp] theorem writeOut_outMem (bs : List Byte) (s : State) :
    (writeOut bs s).outMem = Memory.writeBytes s.outMem 0 bs := rfl
@[simp] theorem writeOut_olen (bs : List Byte) (s : State) : (writeOut bs s).olen = s.olen := rfl
@[simp] theorem writeOut_draw (bs : List Byte) (s : State) : (writeOut bs s).draw = s.draw := rfl
@[simp] theorem writeOut_inbox (bs : List Byte) (s : State) : (writeOut bs s).inbox = s.inbox := rfl
@[simp] theorem writeOut_busData (bs : List Byte) (s : State) : (writeOut bs s).busData = s.busData := rfl
@[simp] theorem writeOut_inByte (bs : List Byte) (s : State) (a : Nat) : (writeOut bs s).inByte a = s.inByte a := rfl

/-! The literal cursor (R147) -/

@[simp] theorem advanceLc_params (s : State) : (advanceLc s).params = s.params := rfl
@[simp] theorem advanceLc_ctrl (s : State) : (advanceLc s).ctrl = s.ctrl := rfl
@[simp] theorem advanceLc_status (s : State) : (advanceLc s).status = s.status := rfl
@[simp] theorem advanceLc_inLen (s : State) : (advanceLc s).inLen = s.inLen := rfl
@[simp] theorem advanceLc_outLen (s : State) : (advanceLc s).outLen = s.outLen := rfl
@[simp] theorem advanceLc_ph (s : State) : (advanceLc s).ph = s.ph := rfl
@[simp] theorem advanceLc_hdrNext (s : State) : (advanceLc s).hdrNext = s.hdrNext := rfl
@[simp] theorem advanceLc_hdr (s : State) : (advanceLc s).hdr = s.hdr := rfl
@[simp] theorem advanceLc_cur (s : State) : (advanceLc s).cur = { s.cur with lc := s.cur.lc + 1 } := rfl
@[simp] theorem advanceLc_fq (s : State) : (advanceLc s).fq = s.fq := rfl
@[simp] theorem advanceLc_copy (s : State) : (advanceLc s).copy = s.copy := rfl
@[simp] theorem advanceLc_enc (s : State) : (advanceLc s).enc = s.enc := rfl
@[simp] theorem advanceLc_pools (s : State) : (advanceLc s).pools = s.pools := rfl
@[simp] theorem advanceLc_inMem (s : State) : (advanceLc s).inMem = s.inMem := rfl
@[simp] theorem advanceLc_outMem (s : State) : (advanceLc s).outMem = s.outMem := rfl
@[simp] theorem advanceLc_olen (s : State) : (advanceLc s).olen = s.olen := rfl
@[simp] theorem advanceLc_draw (s : State) : (advanceLc s).draw = s.draw := rfl
@[simp] theorem advanceLc_inbox (s : State) : (advanceLc s).inbox = s.inbox := rfl
@[simp] theorem advanceLc_busData (s : State) : (advanceLc s).busData = s.busData := rfl
@[simp] theorem advanceLc_inByte (s : State) (a : Nat) : (advanceLc s).inByte a = s.inByte a := rfl
@[simp] theorem advanceLc_outByte (s : State) (a : Nat) : (advanceLc s).outByte a = s.outByte a := rfl

/-! The match-token cursor (R148) -/

@[simp] theorem advanceMc_params (s : State) : (advanceMc s).params = s.params := rfl
@[simp] theorem advanceMc_ctrl (s : State) : (advanceMc s).ctrl = s.ctrl := rfl
@[simp] theorem advanceMc_status (s : State) : (advanceMc s).status = s.status := rfl
@[simp] theorem advanceMc_inLen (s : State) : (advanceMc s).inLen = s.inLen := rfl
@[simp] theorem advanceMc_outLen (s : State) : (advanceMc s).outLen = s.outLen := rfl
@[simp] theorem advanceMc_ph (s : State) : (advanceMc s).ph = s.ph := rfl
@[simp] theorem advanceMc_hdrNext (s : State) : (advanceMc s).hdrNext = s.hdrNext := rfl
@[simp] theorem advanceMc_hdr (s : State) : (advanceMc s).hdr = s.hdr := rfl
@[simp] theorem advanceMc_cur (s : State) : (advanceMc s).cur = { s.cur with mc := s.cur.mc + 2 } := rfl
@[simp] theorem advanceMc_fq (s : State) : (advanceMc s).fq = s.fq := rfl
@[simp] theorem advanceMc_copy (s : State) : (advanceMc s).copy = s.copy := rfl
@[simp] theorem advanceMc_enc (s : State) : (advanceMc s).enc = s.enc := rfl
@[simp] theorem advanceMc_pools (s : State) : (advanceMc s).pools = s.pools := rfl
@[simp] theorem advanceMc_inMem (s : State) : (advanceMc s).inMem = s.inMem := rfl
@[simp] theorem advanceMc_outMem (s : State) : (advanceMc s).outMem = s.outMem := rfl
@[simp] theorem advanceMc_olen (s : State) : (advanceMc s).olen = s.olen := rfl
@[simp] theorem advanceMc_draw (s : State) : (advanceMc s).draw = s.draw := rfl
@[simp] theorem advanceMc_inbox (s : State) : (advanceMc s).inbox = s.inbox := rfl
@[simp] theorem advanceMc_busData (s : State) : (advanceMc s).busData = s.busData := rfl
@[simp] theorem advanceMc_inByte (s : State) (a : Nat) : (advanceMc s).inByte a = s.inByte a := rfl
@[simp] theorem advanceMc_outByte (s : State) (a : Nat) : (advanceMc s).outByte a = s.outByte a := rfl

/-! The copy engine loaded (R149) -/

@[simp] theorem loadCopy_params (jump run : Nat) (s : State) : (loadCopy jump run s).params = s.params := rfl
@[simp] theorem loadCopy_ctrl (jump run : Nat) (s : State) : (loadCopy jump run s).ctrl = s.ctrl := rfl
@[simp] theorem loadCopy_status (jump run : Nat) (s : State) : (loadCopy jump run s).status = s.status := rfl
@[simp] theorem loadCopy_inLen (jump run : Nat) (s : State) : (loadCopy jump run s).inLen = s.inLen := rfl
@[simp] theorem loadCopy_outLen (jump run : Nat) (s : State) : (loadCopy jump run s).outLen = s.outLen := rfl
@[simp] theorem loadCopy_ph (jump run : Nat) (s : State) : (loadCopy jump run s).ph = .decCopy := rfl
@[simp] theorem loadCopy_hdrNext (jump run : Nat) (s : State) : (loadCopy jump run s).hdrNext = s.hdrNext := rfl
@[simp] theorem loadCopy_hdr (jump run : Nat) (s : State) : (loadCopy jump run s).hdr = s.hdr := rfl
@[simp] theorem loadCopy_cur (jump run : Nat) (s : State) : (loadCopy jump run s).cur = s.cur := rfl
@[simp] theorem loadCopy_fq (jump run : Nat) (s : State) : (loadCopy jump run s).fq = s.fq := rfl
@[simp] theorem loadCopy_copy (jump run : Nat) (s : State) :
    (loadCopy jump run s).copy = { cbase := s.olen, cjump := jump, crun := run, cr := 0 } := rfl
@[simp] theorem loadCopy_enc (jump run : Nat) (s : State) : (loadCopy jump run s).enc = s.enc := rfl
@[simp] theorem loadCopy_pools (jump run : Nat) (s : State) : (loadCopy jump run s).pools = s.pools := rfl
@[simp] theorem loadCopy_inMem (jump run : Nat) (s : State) : (loadCopy jump run s).inMem = s.inMem := rfl
@[simp] theorem loadCopy_outMem (jump run : Nat) (s : State) : (loadCopy jump run s).outMem = s.outMem := rfl
@[simp] theorem loadCopy_olen (jump run : Nat) (s : State) : (loadCopy jump run s).olen = s.olen := rfl
@[simp] theorem loadCopy_draw (jump run : Nat) (s : State) : (loadCopy jump run s).draw = s.draw := rfl
@[simp] theorem loadCopy_inbox (jump run : Nat) (s : State) : (loadCopy jump run s).inbox = s.inbox := rfl
@[simp] theorem loadCopy_busData (jump run : Nat) (s : State) : (loadCopy jump run s).busData = s.busData := rfl
@[simp] theorem loadCopy_inByte (jump run : Nat) (s : State) (a : Nat) : (loadCopy jump run s).inByte a = s.inByte a := rfl
@[simp] theorem loadCopy_outByte (jump run : Nat) (s : State) (a : Nat) : (loadCopy jump run s).outByte a = s.outByte a := rfl

/-! One byte of a copy counted (R149) -/

@[simp] theorem countCopied_params (s : State) : (countCopied s).params = s.params := rfl
@[simp] theorem countCopied_ctrl (s : State) : (countCopied s).ctrl = s.ctrl := rfl
@[simp] theorem countCopied_status (s : State) : (countCopied s).status = s.status := rfl
@[simp] theorem countCopied_inLen (s : State) : (countCopied s).inLen = s.inLen := rfl
@[simp] theorem countCopied_outLen (s : State) : (countCopied s).outLen = s.outLen := rfl
@[simp] theorem countCopied_ph (s : State) : (countCopied s).ph = s.ph := rfl
@[simp] theorem countCopied_hdrNext (s : State) : (countCopied s).hdrNext = s.hdrNext := rfl
@[simp] theorem countCopied_hdr (s : State) : (countCopied s).hdr = s.hdr := rfl
@[simp] theorem countCopied_cur (s : State) : (countCopied s).cur = s.cur := rfl
@[simp] theorem countCopied_fq (s : State) : (countCopied s).fq = s.fq := rfl
@[simp] theorem countCopied_copy (s : State) : (countCopied s).copy = { s.copy with cr := s.copy.cr + 1 } := rfl
@[simp] theorem countCopied_enc (s : State) : (countCopied s).enc = s.enc := rfl
@[simp] theorem countCopied_pools (s : State) : (countCopied s).pools = s.pools := rfl
@[simp] theorem countCopied_inMem (s : State) : (countCopied s).inMem = s.inMem := rfl
@[simp] theorem countCopied_outMem (s : State) : (countCopied s).outMem = s.outMem := rfl
@[simp] theorem countCopied_olen (s : State) : (countCopied s).olen = s.olen := rfl
@[simp] theorem countCopied_draw (s : State) : (countCopied s).draw = s.draw := rfl
@[simp] theorem countCopied_inbox (s : State) : (countCopied s).inbox = s.inbox := rfl
@[simp] theorem countCopied_busData (s : State) : (countCopied s).busData = s.busData := rfl
@[simp] theorem countCopied_inByte (s : State) (a : Nat) : (countCopied s).inByte a = s.inByte a := rfl
@[simp] theorem countCopied_outByte (s : State) (a : Nat) : (countCopied s).outByte a = s.outByte a := rfl

/-! FINISH_DECODE (R152) -/

@[simp] theorem finishDecode_params (s : State) : (finishDecode s).params = s.params := rfl
@[simp] theorem finishDecode_ctrl (s : State) : (finishDecode s).ctrl = s.ctrl := rfl
@[simp] theorem finishDecode_status (s : State) : (finishDecode s).status = statusDone := rfl
@[simp] theorem finishDecode_inLen (s : State) : (finishDecode s).inLen = s.inLen := rfl
@[simp] theorem finishDecode_outLen (s : State) : (finishDecode s).outLen = s.hdr.size.setWidth 32 := rfl
@[simp] theorem finishDecode_ph (s : State) : (finishDecode s).ph = .idle := rfl
@[simp] theorem finishDecode_hdrNext (s : State) : (finishDecode s).hdrNext = s.hdrNext := rfl
@[simp] theorem finishDecode_hdr (s : State) : (finishDecode s).hdr = s.hdr := rfl
@[simp] theorem finishDecode_cur (s : State) : (finishDecode s).cur = s.cur := rfl
@[simp] theorem finishDecode_fq (s : State) : (finishDecode s).fq = s.fq := rfl
@[simp] theorem finishDecode_copy (s : State) : (finishDecode s).copy = s.copy := rfl
@[simp] theorem finishDecode_enc (s : State) : (finishDecode s).enc = s.enc := rfl
@[simp] theorem finishDecode_pools (s : State) : (finishDecode s).pools = s.pools := rfl
@[simp] theorem finishDecode_inMem (s : State) : (finishDecode s).inMem = s.inMem := rfl
@[simp] theorem finishDecode_outMem (s : State) : (finishDecode s).outMem = s.outMem := rfl
@[simp] theorem finishDecode_olen (s : State) : (finishDecode s).olen = s.olen := rfl
@[simp] theorem finishDecode_draw (s : State) : (finishDecode s).draw = s.draw := rfl
@[simp] theorem finishDecode_inbox (s : State) : (finishDecode s).inbox = s.inbox := rfl
@[simp] theorem finishDecode_busData (s : State) : (finishDecode s).busData = s.busData := rfl
@[simp] theorem finishDecode_inByte (s : State) (a : Nat) : (finishDecode s).inByte a = s.inByte a := rfl
@[simp] theorem finishDecode_outByte (s : State) (a : Nat) : (finishDecode s).outByte a = s.outByte a := rfl

/-! EMIT of a Literal (R187) -/

@[simp] theorem emitLiteral_params (b : Byte) (s : State) : (emitLiteral b s).params = s.params := rfl
@[simp] theorem emitLiteral_ctrl (b : Byte) (s : State) : (emitLiteral b s).ctrl = s.ctrl := rfl
@[simp] theorem emitLiteral_status (b : Byte) (s : State) : (emitLiteral b s).status = s.status := rfl
@[simp] theorem emitLiteral_inLen (b : Byte) (s : State) : (emitLiteral b s).inLen = s.inLen := rfl
@[simp] theorem emitLiteral_outLen (b : Byte) (s : State) : (emitLiteral b s).outLen = s.outLen := rfl
@[simp] theorem emitLiteral_ph (b : Byte) (s : State) : (emitLiteral b s).ph = s.ph := rfl
@[simp] theorem emitLiteral_hdrNext (b : Byte) (s : State) : (emitLiteral b s).hdrNext = s.hdrNext := rfl
@[simp] theorem emitLiteral_hdr (b : Byte) (s : State) : (emitLiteral b s).hdr = s.hdr := rfl
@[simp] theorem emitLiteral_cur (b : Byte) (s : State) : (emitLiteral b s).cur = s.cur := rfl
@[simp] theorem emitLiteral_fq (b : Byte) (s : State) : (emitLiteral b s).fq = s.fq := rfl
@[simp] theorem emitLiteral_copy (b : Byte) (s : State) : (emitLiteral b s).copy = s.copy := rfl
@[simp] theorem emitLiteral_enc (b : Byte) (s : State) : (emitLiteral b s).enc = s.enc := rfl
@[simp] theorem emitLiteral_pools (b : Byte) (s : State) :
    (emitLiteral b s).pools = { s.pools with flagbits := s.pools.flagbits ++ [false], litpool := s.pools.litpool ++ [b] } := rfl
@[simp] theorem emitLiteral_inMem (b : Byte) (s : State) : (emitLiteral b s).inMem = s.inMem := rfl
@[simp] theorem emitLiteral_outMem (b : Byte) (s : State) : (emitLiteral b s).outMem = s.outMem := rfl
@[simp] theorem emitLiteral_olen (b : Byte) (s : State) : (emitLiteral b s).olen = s.olen := rfl
@[simp] theorem emitLiteral_draw (b : Byte) (s : State) : (emitLiteral b s).draw = s.draw := rfl
@[simp] theorem emitLiteral_inbox (b : Byte) (s : State) : (emitLiteral b s).inbox = s.inbox := rfl
@[simp] theorem emitLiteral_busData (b : Byte) (s : State) : (emitLiteral b s).busData = s.busData := rfl
@[simp] theorem emitLiteral_inByte (b : Byte) (s : State) (a : Nat) : (emitLiteral b s).inByte a = s.inByte a := rfl
@[simp] theorem emitLiteral_outByte (b : Byte) (s : State) (a : Nat) : (emitLiteral b s).outByte a = s.outByte a := rfl

/-! EMIT of a Match (R188) -/

@[simp] theorem emitCell_params (c : BitVec 16) (s : State) : (emitCell c s).params = s.params := rfl
@[simp] theorem emitCell_ctrl (c : BitVec 16) (s : State) : (emitCell c s).ctrl = s.ctrl := rfl
@[simp] theorem emitCell_status (c : BitVec 16) (s : State) : (emitCell c s).status = s.status := rfl
@[simp] theorem emitCell_inLen (c : BitVec 16) (s : State) : (emitCell c s).inLen = s.inLen := rfl
@[simp] theorem emitCell_outLen (c : BitVec 16) (s : State) : (emitCell c s).outLen = s.outLen := rfl
@[simp] theorem emitCell_ph (c : BitVec 16) (s : State) : (emitCell c s).ph = s.ph := rfl
@[simp] theorem emitCell_hdrNext (c : BitVec 16) (s : State) : (emitCell c s).hdrNext = s.hdrNext := rfl
@[simp] theorem emitCell_hdr (c : BitVec 16) (s : State) : (emitCell c s).hdr = s.hdr := rfl
@[simp] theorem emitCell_cur (c : BitVec 16) (s : State) : (emitCell c s).cur = s.cur := rfl
@[simp] theorem emitCell_fq (c : BitVec 16) (s : State) : (emitCell c s).fq = s.fq := rfl
@[simp] theorem emitCell_copy (c : BitVec 16) (s : State) : (emitCell c s).copy = s.copy := rfl
@[simp] theorem emitCell_enc (c : BitVec 16) (s : State) : (emitCell c s).enc = s.enc := rfl
@[simp] theorem emitCell_pools (c : BitVec 16) (s : State) :
    (emitCell c s).pools = { s.pools with flagbits := s.pools.flagbits ++ [true], tokpool := s.pools.tokpool ++ leBytes 2 c.toNat } := rfl
@[simp] theorem emitCell_inMem (c : BitVec 16) (s : State) : (emitCell c s).inMem = s.inMem := rfl
@[simp] theorem emitCell_outMem (c : BitVec 16) (s : State) : (emitCell c s).outMem = s.outMem := rfl
@[simp] theorem emitCell_olen (c : BitVec 16) (s : State) : (emitCell c s).olen = s.olen := rfl
@[simp] theorem emitCell_draw (c : BitVec 16) (s : State) : (emitCell c s).draw = s.draw := rfl
@[simp] theorem emitCell_inbox (c : BitVec 16) (s : State) : (emitCell c s).inbox = s.inbox := rfl
@[simp] theorem emitCell_busData (c : BitVec 16) (s : State) : (emitCell c s).busData = s.busData := rfl
@[simp] theorem emitCell_inByte (c : BitVec 16) (s : State) (a : Nat) : (emitCell c s).inByte a = s.inByte a := rfl
@[simp] theorem emitCell_outByte (c : BitVec 16) (s : State) (a : Nat) : (emitCell c s).outByte a = s.outByte a := rfl

/-! The search cursor (R186) -/

@[simp] theorem advanceP_params (k : Nat) (s : State) : (advanceP k s).params = s.params := rfl
@[simp] theorem advanceP_ctrl (k : Nat) (s : State) : (advanceP k s).ctrl = s.ctrl := rfl
@[simp] theorem advanceP_status (k : Nat) (s : State) : (advanceP k s).status = s.status := rfl
@[simp] theorem advanceP_inLen (k : Nat) (s : State) : (advanceP k s).inLen = s.inLen := rfl
@[simp] theorem advanceP_outLen (k : Nat) (s : State) : (advanceP k s).outLen = s.outLen := rfl
@[simp] theorem advanceP_ph (k : Nat) (s : State) : (advanceP k s).ph = s.ph := rfl
@[simp] theorem advanceP_hdrNext (k : Nat) (s : State) : (advanceP k s).hdrNext = s.hdrNext := rfl
@[simp] theorem advanceP_hdr (k : Nat) (s : State) : (advanceP k s).hdr = s.hdr := rfl
@[simp] theorem advanceP_cur (k : Nat) (s : State) : (advanceP k s).cur = s.cur := rfl
@[simp] theorem advanceP_fq (k : Nat) (s : State) : (advanceP k s).fq = s.fq := rfl
@[simp] theorem advanceP_copy (k : Nat) (s : State) : (advanceP k s).copy = s.copy := rfl
@[simp] theorem advanceP_enc (k : Nat) (s : State) : (advanceP k s).enc = { s.enc with p := s.enc.p + k } := rfl
@[simp] theorem advanceP_pools (k : Nat) (s : State) : (advanceP k s).pools = s.pools := rfl
@[simp] theorem advanceP_inMem (k : Nat) (s : State) : (advanceP k s).inMem = s.inMem := rfl
@[simp] theorem advanceP_outMem (k : Nat) (s : State) : (advanceP k s).outMem = s.outMem := rfl
@[simp] theorem advanceP_olen (k : Nat) (s : State) : (advanceP k s).olen = s.olen := rfl
@[simp] theorem advanceP_draw (k : Nat) (s : State) : (advanceP k s).draw = s.draw := rfl
@[simp] theorem advanceP_inbox (k : Nat) (s : State) : (advanceP k s).inbox = s.inbox := rfl
@[simp] theorem advanceP_busData (k : Nat) (s : State) : (advanceP k s).busData = s.busData := rfl
@[simp] theorem advanceP_inByte (k : Nat) (s : State) (a : Nat) : (advanceP k s).inByte a = s.inByte a := rfl
@[simp] theorem advanceP_outByte (k : Nat) (s : State) (a : Nat) : (advanceP k s).outByte a = s.outByte a := rfl

/-! The end of ENCODE (R193) -/

@[simp] theorem finishEncode_params (total : Nat) (s : State) : (finishEncode total s).params = s.params := rfl
@[simp] theorem finishEncode_ctrl (total : Nat) (s : State) : (finishEncode total s).ctrl = s.ctrl := rfl
@[simp] theorem finishEncode_status (total : Nat) (s : State) : (finishEncode total s).status = statusDone := rfl
@[simp] theorem finishEncode_inLen (total : Nat) (s : State) : (finishEncode total s).inLen = s.inLen := rfl
@[simp] theorem finishEncode_outLen (total : Nat) (s : State) : (finishEncode total s).outLen = BitVec.ofNat 32 total := rfl
@[simp] theorem finishEncode_ph (total : Nat) (s : State) : (finishEncode total s).ph = .idle := rfl
@[simp] theorem finishEncode_hdrNext (total : Nat) (s : State) : (finishEncode total s).hdrNext = s.hdrNext := rfl
@[simp] theorem finishEncode_hdr (total : Nat) (s : State) : (finishEncode total s).hdr = s.hdr := rfl
@[simp] theorem finishEncode_cur (total : Nat) (s : State) : (finishEncode total s).cur = s.cur := rfl
@[simp] theorem finishEncode_fq (total : Nat) (s : State) : (finishEncode total s).fq = s.fq := rfl
@[simp] theorem finishEncode_copy (total : Nat) (s : State) : (finishEncode total s).copy = s.copy := rfl
@[simp] theorem finishEncode_enc (total : Nat) (s : State) : (finishEncode total s).enc = s.enc := rfl
@[simp] theorem finishEncode_pools (total : Nat) (s : State) : (finishEncode total s).pools = s.pools := rfl
@[simp] theorem finishEncode_inMem (total : Nat) (s : State) : (finishEncode total s).inMem = s.inMem := rfl
@[simp] theorem finishEncode_outMem (total : Nat) (s : State) : (finishEncode total s).outMem = s.outMem := rfl
@[simp] theorem finishEncode_olen (total : Nat) (s : State) : (finishEncode total s).olen = total := rfl
@[simp] theorem finishEncode_draw (total : Nat) (s : State) : (finishEncode total s).draw = s.draw := rfl
@[simp] theorem finishEncode_inbox (total : Nat) (s : State) : (finishEncode total s).inbox = s.inbox := rfl
@[simp] theorem finishEncode_busData (total : Nat) (s : State) : (finishEncode total s).busData = s.busData := rfl
@[simp] theorem finishEncode_inByte (total : Nat) (s : State) (a : Nat) : (finishEncode total s).inByte a = s.inByte a := rfl
@[simp] theorem finishEncode_outByte (total : Nat) (s : State) (a : Nat) : (finishEncode total s).outByte a = s.outByte a := rfl

/-! The loop tests (R140, R146, R186): their outcomes, and what they do not touch. -/

theorem loopTest_runs {s : State} (h : s.olen < s.hdr.size.toNat) : loopTest s = { s with ph := .decRun } := if_pos h

theorem loopTest_finishes {s : State} (h : ¬s.olen < s.hdr.size.toNat) : loopTest s = finishDecode s := if_neg h

theorem searchTest_more {s : State} (h : s.enc.p < s.enc.n) : searchTest s = s := if_pos h

theorem searchTest_over {s : State} (h : ¬s.enc.p < s.enc.n) : searchTest s = { s with ph := .encAsm } := if_neg h

@[simp] theorem loopTest_params (s : State) : (loopTest s).params = s.params := by
  rw [loopTest]; split_ifs <;> rfl
@[simp] theorem loopTest_ctrl (s : State) : (loopTest s).ctrl = s.ctrl := by
  rw [loopTest]; split_ifs <;> rfl
@[simp] theorem loopTest_inLen (s : State) : (loopTest s).inLen = s.inLen := by
  rw [loopTest]; split_ifs <;> rfl
@[simp] theorem loopTest_hdrNext (s : State) : (loopTest s).hdrNext = s.hdrNext := by
  rw [loopTest]; split_ifs <;> rfl
@[simp] theorem loopTest_hdr (s : State) : (loopTest s).hdr = s.hdr := by
  rw [loopTest]; split_ifs <;> rfl
@[simp] theorem loopTest_cur (s : State) : (loopTest s).cur = s.cur := by
  rw [loopTest]; split_ifs <;> rfl
@[simp] theorem loopTest_fq (s : State) : (loopTest s).fq = s.fq := by
  rw [loopTest]; split_ifs <;> rfl
@[simp] theorem loopTest_copy (s : State) : (loopTest s).copy = s.copy := by
  rw [loopTest]; split_ifs <;> rfl
@[simp] theorem loopTest_enc (s : State) : (loopTest s).enc = s.enc := by
  rw [loopTest]; split_ifs <;> rfl
@[simp] theorem loopTest_pools (s : State) : (loopTest s).pools = s.pools := by
  rw [loopTest]; split_ifs <;> rfl
@[simp] theorem loopTest_inMem (s : State) : (loopTest s).inMem = s.inMem := by
  rw [loopTest]; split_ifs <;> rfl
@[simp] theorem loopTest_outMem (s : State) : (loopTest s).outMem = s.outMem := by
  rw [loopTest]; split_ifs <;> rfl
@[simp] theorem loopTest_olen (s : State) : (loopTest s).olen = s.olen := by
  rw [loopTest]; split_ifs <;> rfl
@[simp] theorem loopTest_draw (s : State) : (loopTest s).draw = s.draw := by
  rw [loopTest]; split_ifs <;> rfl
@[simp] theorem loopTest_inbox (s : State) : (loopTest s).inbox = s.inbox := by
  rw [loopTest]; split_ifs <;> rfl
@[simp] theorem loopTest_busData (s : State) : (loopTest s).busData = s.busData := by
  rw [loopTest]; split_ifs <;> rfl
@[simp] theorem loopTest_inByte (s : State) (a : Nat) : (loopTest s).inByte a = s.inByte a := by simp [State.inByte]
@[simp] theorem loopTest_outByte (s : State) (a : Nat) : (loopTest s).outByte a = s.outByte a := by simp [State.outByte]
@[simp] theorem searchTest_params (s : State) : (searchTest s).params = s.params := by
  rw [searchTest]; split_ifs <;> rfl
@[simp] theorem searchTest_ctrl (s : State) : (searchTest s).ctrl = s.ctrl := by
  rw [searchTest]; split_ifs <;> rfl
@[simp] theorem searchTest_status (s : State) : (searchTest s).status = s.status := by
  rw [searchTest]; split_ifs <;> rfl
@[simp] theorem searchTest_inLen (s : State) : (searchTest s).inLen = s.inLen := by
  rw [searchTest]; split_ifs <;> rfl
@[simp] theorem searchTest_outLen (s : State) : (searchTest s).outLen = s.outLen := by
  rw [searchTest]; split_ifs <;> rfl
@[simp] theorem searchTest_hdrNext (s : State) : (searchTest s).hdrNext = s.hdrNext := by
  rw [searchTest]; split_ifs <;> rfl
@[simp] theorem searchTest_hdr (s : State) : (searchTest s).hdr = s.hdr := by
  rw [searchTest]; split_ifs <;> rfl
@[simp] theorem searchTest_cur (s : State) : (searchTest s).cur = s.cur := by
  rw [searchTest]; split_ifs <;> rfl
@[simp] theorem searchTest_fq (s : State) : (searchTest s).fq = s.fq := by
  rw [searchTest]; split_ifs <;> rfl
@[simp] theorem searchTest_copy (s : State) : (searchTest s).copy = s.copy := by
  rw [searchTest]; split_ifs <;> rfl
@[simp] theorem searchTest_enc (s : State) : (searchTest s).enc = s.enc := by
  rw [searchTest]; split_ifs <;> rfl
@[simp] theorem searchTest_pools (s : State) : (searchTest s).pools = s.pools := by
  rw [searchTest]; split_ifs <;> rfl
@[simp] theorem searchTest_inMem (s : State) : (searchTest s).inMem = s.inMem := by
  rw [searchTest]; split_ifs <;> rfl
@[simp] theorem searchTest_outMem (s : State) : (searchTest s).outMem = s.outMem := by
  rw [searchTest]; split_ifs <;> rfl
@[simp] theorem searchTest_olen (s : State) : (searchTest s).olen = s.olen := by
  rw [searchTest]; split_ifs <;> rfl
@[simp] theorem searchTest_draw (s : State) : (searchTest s).draw = s.draw := by
  rw [searchTest]; split_ifs <;> rfl
@[simp] theorem searchTest_inbox (s : State) : (searchTest s).inbox = s.inbox := by
  rw [searchTest]; split_ifs <;> rfl
@[simp] theorem searchTest_busData (s : State) : (searchTest s).busData = s.busData := by
  rw [searchTest]; split_ifs <;> rfl
@[simp] theorem copyEnd_params (s : State) : (copyEnd s).params = s.params := by
  rw [copyEnd]; split_ifs <;> simp
@[simp] theorem copyEnd_ctrl (s : State) : (copyEnd s).ctrl = s.ctrl := by
  rw [copyEnd]; split_ifs <;> simp
@[simp] theorem copyEnd_inLen (s : State) : (copyEnd s).inLen = s.inLen := by
  rw [copyEnd]; split_ifs <;> simp
@[simp] theorem copyEnd_hdrNext (s : State) : (copyEnd s).hdrNext = s.hdrNext := by
  rw [copyEnd]; split_ifs <;> simp
@[simp] theorem copyEnd_hdr (s : State) : (copyEnd s).hdr = s.hdr := by
  rw [copyEnd]; split_ifs <;> simp
@[simp] theorem copyEnd_cur (s : State) : (copyEnd s).cur = s.cur := by
  rw [copyEnd]; split_ifs <;> simp
@[simp] theorem copyEnd_fq (s : State) : (copyEnd s).fq = s.fq := by
  rw [copyEnd]; split_ifs <;> simp
@[simp] theorem copyEnd_copy (s : State) : (copyEnd s).copy = s.copy := by
  rw [copyEnd]; split_ifs <;> simp
@[simp] theorem copyEnd_enc (s : State) : (copyEnd s).enc = s.enc := by
  rw [copyEnd]; split_ifs <;> simp
@[simp] theorem copyEnd_pools (s : State) : (copyEnd s).pools = s.pools := by
  rw [copyEnd]; split_ifs <;> simp
@[simp] theorem copyEnd_inMem (s : State) : (copyEnd s).inMem = s.inMem := by
  rw [copyEnd]; split_ifs <;> simp
@[simp] theorem copyEnd_outMem (s : State) : (copyEnd s).outMem = s.outMem := by
  rw [copyEnd]; split_ifs <;> simp
@[simp] theorem copyEnd_olen (s : State) : (copyEnd s).olen = s.olen := by
  rw [copyEnd]; split_ifs <;> simp
@[simp] theorem copyEnd_draw (s : State) : (copyEnd s).draw = s.draw := by
  rw [copyEnd]; split_ifs <;> simp
@[simp] theorem copyEnd_inbox (s : State) : (copyEnd s).inbox = s.inbox := by
  rw [copyEnd]; split_ifs <;> simp
@[simp] theorem copyEnd_busData (s : State) : (copyEnd s).busData = s.busData := by
  rw [copyEnd]; split_ifs <;> simp
@[simp] theorem copyEnd_inByte (s : State) (a : Nat) : (copyEnd s).inByte a = s.inByte a := by simp [State.inByte]
@[simp] theorem copyEnd_outByte (s : State) (a : Nat) : (copyEnd s).outByte a = s.outByte a := by simp [State.outByte]

/-- IN and IN_LEN alone decide what MemRead answers (R51). -/
theorem memRead_congr {s t : State} (hm : t.inMem = s.inMem) (hl : t.inLen = s.inLen) (a n : Nat) :
    memRead t a n = memRead s a n := by
  simp [memRead, inBytes, State.inByte, hm, hl]

end Sys2Proof.Machine
end

