-- ==== Sys2Proof/Laws/Engine.lean ====
section
/-! SUPPORT. What a step can do: one lemma per phase and per shared operation, which later proofs cite instead of unfolding. -/

namespace Sys2Proof.Machine

/-! ## Who moves -/

theorem step_engine {s : State} (h : s.inbox = []) : step s = engineStep s := by simp [step, h]

theorem step_wait {s : State} {rest : List HostAct} (h : s.inbox = .wait :: rest) :
    step s = engineStep { s with inbox := rest } := by simp [step, h]

theorem step_host {s : State} {act : HostAct} {rest : List HostAct} (h : s.inbox = act :: rest) (hw : act ≠ .wait) :
    step s = hostStep act { s with inbox := rest } := by
  cases act <;> simp_all [step]

/-- Everything a step can be: an engine step, with the inbox empty or a `wait` taken off it, or a host action taken off it. -/
theorem step_cases (s : State) :
    (s.inbox = [] ∧ step s = engineStep s) ∨
    (∃ rest, s.inbox = .wait :: rest ∧ step s = engineStep { s with inbox := rest }) ∨
    (∃ act rest, s.inbox = act :: rest ∧ act ≠ .wait ∧ step s = hostStep act { s with inbox := rest }) := by
  rcases h : s.inbox with _ | ⟨act, rest⟩
  · exact .inl ⟨rfl, step_engine h⟩
  · by_cases hw : act = .wait
    · subst hw; exact .inr (.inl ⟨rest, rfl, step_wait h⟩)
    · exact .inr (.inr ⟨act, rest, rfl, hw, step_host h hw⟩)

theorem engineStep_idle {s : State} (h : s.ph = .idle) : engineStep s = .next s := by simp [engineStep, h]
theorem engineStep_decHdr {s : State} (h : s.ph = .decHdr) : engineStep s = .next (hdrStep s) := by simp [engineStep, h]
theorem engineStep_decRun {s : State} (h : s.ph = .decRun) : engineStep s = runStep s := by simp [engineStep, h]
theorem engineStep_decCopy {s : State} (h : s.ph = .decCopy) : engineStep s = copyStep s := by simp [engineStep, h]
theorem engineStep_encCheck {s : State} (h : s.ph = .encCheck) : engineStep s = .next (encCheckStep s) := by
  simp [engineStep, h]
theorem engineStep_encSearch {s : State} (h : s.ph = .encSearch) : engineStep s = searchStep s := by simp [engineStep, h]
theorem engineStep_encAsm {s : State} (h : s.ph = .encAsm) : engineStep s = asmStep s := by simp [engineStep, h]

/-! ## k steps -/

theorem runSteps_zero (s : State) : runSteps 0 s = .next s := rfl

theorem runSteps_succ {k : Nat} {s t : State} (h : step s = .next t) : runSteps (k + 1) s = runSteps k t := by
  have h' : core.step s = .next t := h
  simp only [runSteps, Host.Core.run, h']
  rfl

theorem runSteps_stops {k : Nat} {s t : State} (h : runSteps (k + 1) s = .next t) : ∃ u, step s = .next u := by
  cases hs : step s with
  | next u => exact ⟨u, rfl⟩
  | fault r =>
    have h' : core.step s = .fault r := hs
    simp [runSteps, Host.Core.run, h'] at h
  | refused r =>
    have h' : core.step s = .refused r := hs
    simp [runSteps, Host.Core.run, h'] at h

/-- Runs join end to end. -/
theorem runSteps_add {j k : Nat} {s t : State} (h : runSteps j s = .next t) : runSteps (j + k) s = runSteps k t := by
  induction j generalizing s with
  | zero => cases h; simp
  | succ j ih =>
    obtain ⟨u, hu⟩ := runSteps_stops h
    rw [runSteps_succ hu] at h
    rw [Nat.add_right_comm, runSteps_succ hu, ih h]

/-- IDLE with nothing from the host stays as it is (R238). -/
theorem runSteps_idle {s : State} (h : s.ph = .idle) (hb : s.inbox = []) (k : Nat) : runSteps k s = .next s := by
  induction k with
  | zero => rfl
  | succ k ih => rw [runSteps_succ (by rw [step_engine hb, engineStep_idle h]), ih]

/-! ## The decoder's operations -/

/-- LIT where its byte is inside the input and OUT has room (R147). -/
theorem execLit_next {b : Byte} {s : State} (h : s.cur.lc + 1 ≤ s.inLen.toNat) (hc : s.olen < s.params.outCap) :
    execLit b s = .next (pushByte b (advanceLc s)) := by
  simp [execLit, outAppend, Nat.not_lt.2 h, hc]

/-- LIT past the input (R147). -/
theorem execLit_truncated {b : Byte} {s : State} (h : s.inLen.toNat < s.cur.lc + 1) :
    execLit b s = .next (raiseError .truncatedStream s) := by
  simp [execLit, h]

/-- MATCH past the input (R148). -/
theorem opMatch_truncated {jump run : Nat} {s : State} (h : s.inLen.toNat < s.cur.mc + 2) :
    opMatch jump run s = raiseError .truncatedStream s := by
  simp [opMatch, h]

/-- MATCH that reaches before OUT[0] (R151). -/
theorem opMatch_badReference {jump run : Nat} {s : State} (h : s.cur.mc + 2 ≤ s.inLen.toNat) (hj : s.olen < jump) :
    opMatch jump run s = raiseError .badReference (loadCopy jump run (advanceMc s)) := by
  simp [opMatch, copyStart, Nat.not_lt.2 h, hj]

/-- MATCH that starts its copy (R148, R149). -/
theorem opMatch_starts {jump run : Nat} {s : State} (h : s.cur.mc + 2 ≤ s.inLen.toNat) (hj : jump ≤ s.olen) :
    opMatch jump run s = loadCopy jump run (advanceMc s) := by
  simp [opMatch, copyStart, Nat.not_lt.2 h, Nat.not_lt.2 hj]

/-! ## The decoder's steps -/

/-- A step of DEC_COPY while the copy is not over (R149): the byte at CBASE − CJUMP + CR is appended. -/
theorem copyStep_next {s : State} (hm : s.copy.cr < s.copy.crun) (hs : s.olen ≠ s.hdr.size.toNat)
    (hr : s.copy.cbase - s.copy.cjump + s.copy.cr < s.olen) (hc : s.olen < s.params.outCap) :
    copyStep s =
      .next (copyEnd (countCopied (pushByte (s.outByte (s.copy.cbase - s.copy.cjump + s.copy.cr)) s))) := by
  simp [copyStep, copyOver, hm, hs, outRead, hr, outAppend, hc]

/-- Everything a step of DEC_COPY can answer (R149, R150). -/
theorem copyStep_eq_next {s t : State} (h : copyStep s = .next t) :
    (copyOver s = true ∧ t = copyEnd s) ∨
    (copyOver s = false ∧ s.copy.cbase - s.copy.cjump + s.copy.cr < s.olen ∧ s.olen < s.params.outCap ∧
      t = copyEnd (countCopied (pushByte (s.outByte (s.copy.cbase - s.copy.cjump + s.copy.cr)) s))) := by
  rw [copyStep] at h
  split_ifs at h with ho
  · cases h; exact .inl ⟨ho, rfl⟩
  · split at h
    · cases h
    · rename_i b hb
      obtain ⟨hr, rfl⟩ := outRead_eq_some.1 hb
      split at h
      · cases h
      · rename_i u hu
        obtain ⟨hc, rfl⟩ := outAppend_eq_some.1 hu
        cases h
        exact .inr ⟨by simpa using ho, hr, hc, rfl⟩

theorem copyEnd_over {s : State} (h : copyOver s = true) : copyEnd s = loopTest { s with ph := .decRun } := if_pos h

theorem copyEnd_more {s : State} (h : copyOver s = false) : copyEnd s = s := by simp [copyEnd, h]

theorem copyOver_eq_false {s : State} : copyOver s = false ↔ s.copy.cr < s.copy.crun ∧ s.olen ≠ s.hdr.size.toNat := by
  simp [copyOver]

/-- A fetched LIT runs LIT, whatever nbits is (R85, R147). -/
theorem runOp_lit (b : Byte) (s : State) : runOp 1 [b] s = execLit b s := rfl

/-- A fetched MATCH runs OP_MATCH on its token, whatever nbits is: by its row of the opcode table, or by R102. -/
theorem runOp_match (lo hi : Byte) (s : State) :
    runOp 0 [lo, hi] s =
      .next (opMatch (tokenDecode (cellOf lo hi) s.hdr.nb.toNat).1 (tokenDecode (cellOf lo hi) s.hdr.nb.toNat).2 s) := by
  have hd : decode s.hdr.nb (.op 0 [lo, hi]) = decodeCell s.hdr.nb (cellOf lo hi) := rfl
  simp only [runOp, hd, decodeCell]
  split_ifs <;> rfl

/-- The token of the cell at MC. -/
abbrev tokenAt (s : State) : Nat × Nat :=
  tokenDecode (cellOf (s.inByte s.cur.mc) (s.inByte (s.cur.mc + 1))) s.hdr.nb.toNat

/-- Everything one operation of DEC_RUN can do (R120, R146 to R151): the flag is truncated; or, on the state FLAG_NEXT left, the
literal is truncated or appended, or the cell is truncated, refers before the output, or starts its copy. -/
theorem runStep_cases {s : State} (ho : s.olen < s.hdr.size.toNat) :
    (flagNext s = none ∧ runStep s = .next (raiseError .truncatedStream s)) ∨
    ∃ s1 f, flagNext s = some (f, s1) ∧
      ((f = false ∧ s.inLen.toNat < s.cur.lc + 1 ∧ runStep s = .next (raiseError .truncatedStream s1)) ∨
       (f = false ∧ s.cur.lc + 1 ≤ s.inLen.toNat ∧ runStep s = afterOp (execLit (s.inByte s.cur.lc) s1)) ∨
       (f = true ∧ s.inLen.toNat < s.cur.mc + 2 ∧ runStep s = .next (raiseError .truncatedStream s1)) ∨
       (f = true ∧ s.cur.mc + 2 ≤ s.inLen.toNat ∧ s.olen < (tokenAt s).1 ∧
          runStep s = .next (raiseError .badReference (loadCopy (tokenAt s).1 (tokenAt s).2 (advanceMc s1)))) ∨
       (f = true ∧ s.cur.mc + 2 ≤ s.inLen.toNat ∧ (tokenAt s).1 ≤ s.olen ∧
          runStep s = .next (loadCopy (tokenAt s).1 (tokenAt s).2 (advanceMc s1)))) := by
  rcases hn : flagNext s with _ | ⟨f, s1⟩
  · exact .inl ⟨rfl, by simp [runStep, ho, fetchOp, hn]⟩
  · obtain ⟨hf, -⟩ := flagNext_frame hn
    have hl : s1.cur.lc = s.cur.lc := congrArg (·.cur.lc) hf
    have hm : s1.cur.mc = s.cur.mc := congrArg (·.cur.mc) hf
    have hin : s1.inMem = s.inMem := by rw [hf]
    have hlen : s1.inLen = s.inLen := by rw [hf]
    have hhdr : s1.hdr = s.hdr := by rw [hf]
    have holen : s1.olen = s.olen := by rw [hf]
    refine .inr ⟨s1, f, rfl, ?_⟩
    cases f with
    | false =>
      by_cases ht : s.inLen.toNat < s.cur.lc + 1
      · refine .inl ⟨rfl, ht, ?_⟩
        have : memRead s1 s1.cur.lc 1 = none := by rw [memRead_eq_none, hlen, hl]; exact ht
        simp [runStep, ho, fetchOp, hn, fetchOperand, this]
      · refine .inr (.inl ⟨rfl, by omega, ?_⟩)
        have : memRead s1 s1.cur.lc 1 = some (leNat (inBytes s s.cur.lc 1)) := by
          rw [memRead_eq_some, hlen, hl, inBytes_congr hin]; exact ⟨by omega, rfl⟩
        simp only [runStep, ho, if_true, fetchOp, hn, fetchOperand, this, Option.map_some, leBytes_leNat_inBytes]
        simp [inBytes, rawFlag]
        rfl
    | true =>
      by_cases ht : s.inLen.toNat < s.cur.mc + 2
      · refine .inr (.inr (.inl ⟨rfl, ht, ?_⟩))
        have : memRead s1 s1.cur.mc 2 = none := by rw [memRead_eq_none, hlen, hm]; exact ht
        simp [runStep, ho, fetchOp, hn, fetchOperand, this]
      · have hr : memRead s1 s1.cur.mc 2 = some (leNat (inBytes s s.cur.mc 2)) := by
          rw [memRead_eq_some, hlen, hm, inBytes_congr hin]; exact ⟨by omega, rfl⟩
        have hrun : runStep s = afterOp (.next (opMatch (tokenAt s).1 (tokenAt s).2 s1)) := by
          simp only [runStep, ho, if_true, fetchOp, hn, fetchOperand, hr, Option.map_some, leBytes_leNat_inBytes]
          have hb : inBytes s s.cur.mc 2 = [s.inByte s.cur.mc, s.inByte (s.cur.mc + 1)] := by simp [inBytes, List.range_succ]
          rw [hb]
          show afterOp (runOp 0 [s.inByte s.cur.mc, s.inByte (s.cur.mc + 1)] s1) = _
          rw [runOp_match, hhdr]
        have hmc : s1.cur.mc + 2 ≤ s1.inLen.toNat := by rw [hm, hlen]; omega
        by_cases hj : s.olen < (tokenAt s).1
        · refine .inr (.inr (.inr (.inl ⟨rfl, by omega, hj, ?_⟩)))
          rw [hrun, opMatch_badReference hmc (by rw [holen]; exact hj)]
          simp [afterOp]
        · refine .inr (.inr (.inr (.inr ⟨rfl, by omega, by omega, ?_⟩)))
          rw [hrun, opMatch_starts hmc (by rw [holen]; omega)]
          simp [afterOp]

/-- A LIT of DEC_RUN that has its byte and its room (R147, R140). -/
theorem afterOp_execLit {b : Byte} {s : State} (h : s.cur.lc + 1 ≤ s.inLen.toNat) (hc : s.olen < s.params.outCap)
    (hp : s.ph = .decRun) :
    afterOp (execLit b s) = .next (loopTest (pushByte b (advanceLc s))) := by
  rw [execLit_next h hc]; simp [afterOp, hp]

/-- Everything a LIT with the loop test after it can answer (R147, R140). -/
theorem afterOp_execLit_eq_next {b : Byte} {s t : State} (h : afterOp (execLit b s) = .next t) :
    (s.inLen.toNat < s.cur.lc + 1 ∧ t = raiseError .truncatedStream s) ∨
    (s.cur.lc + 1 ≤ s.inLen.toNat ∧ s.olen < s.params.outCap ∧
      t = if s.ph = .decRun then loopTest (pushByte b (advanceLc s)) else pushByte b (advanceLc s)) := by
  by_cases hl : s.inLen.toNat < s.cur.lc + 1
  · rw [execLit_truncated hl] at h; simp [afterOp] at h; exact .inl ⟨hl, h.symm⟩
  · by_cases hc : s.olen < s.params.outCap
    · rw [execLit_next (by omega) hc] at h
      simp only [afterOp, Host.Outcome.next.injEq] at h
      exact .inr ⟨by omega, hc, h.symm⟩
    · simp [execLit, outAppend, hl, hc, afterOp] at h

/-! ## Launches -/

/-- A launch that is admitted (R23, R251). -/
theorem launch_next {op : BitVec 2} {variant nbits : BitVec 8} {fits : State → Bool} {ph : Phase} {s : State}
    (hb : s.status.busy = false) (hl : s.inLen.toNat ≤ s.params.maxInLen)
    (hf : fits (storeCtrl op nbits variant s) = true) :
    launch op variant nbits fits ph s =
      .next { beginCommand (storeCtrl op nbits variant s) with ph := ph, hdrNext := .sig } := by
  unfold launch
  dsimp only
  rw [if_neg (by simp [hb]), if_neg (by omega), if_pos hf]

/-- Everything a launch that gives a next state can be. -/
theorem launch_eq_next {op : BitVec 2} {variant nbits : BitVec 8} {fits : State → Bool} {ph : Phase} {s t : State}
    (h : launch op variant nbits fits ph s = .next t) :
    s.status.busy = false ∧ s.inLen.toNat ≤ s.params.maxInLen ∧ fits (storeCtrl op nbits variant s) = true ∧
      t = { beginCommand (storeCtrl op nbits variant s) with ph := ph, hdrNext := .sig } := by
  unfold launch at h
  dsimp only at h
  split_ifs at h with h1 h2 h3
  cases h
  exact ⟨by simpa using h1, by omega, h3, rfl⟩

/-! ## The host's register file -/

@[simp] theorem regIndex_base (p : Params) : regIndex p p.regBase = some 0 := by simp [regIndex]

@[simp] theorem regIndex_add (p : Params) (i : Nat) : regIndex p (p.regBase + i) = some i := by simp [regIndex]

/-! ## The encoder's search -/

/-- LEN from length l on (R184): how far it can go, that the bytes agree up to it, and that it stops for a reason. -/
theorem lenFrom_spec (s : State) (p d left l : Nat) :
    l ≤ lenFrom s p d left l ∧ lenFrom s p d left l ≤ l + left ∧
    (∀ i, l ≤ i → i < lenFrom s p d left l → s.inByte (p + i) = s.inByte (p - d + i)) ∧
    (lenFrom s p d left l < l + left →
      s.inByte (p + lenFrom s p d left l) ≠ s.inByte (p - d + lenFrom s p d left l)) := by
  induction left generalizing l with
  | zero => simp [lenFrom]; intro i h1 h2; omega
  | succ k ih =>
    rw [lenFrom]
    split_ifs with he
    · obtain ⟨h1, h2, h3, h4⟩ := ih (l + 1)
      refine ⟨by omega, by omega, fun i hi hi' => ?_, fun h => h4 (by omega)⟩
      by_cases hl : i = l
      · subst hl; exact he
      · exact h3 i (by omega) hi'
    · exact ⟨le_refl _, by omega, fun i h1 h2 => by omega, fun _ => he⟩

/-- |C| (R190, R193). -/
theorem container_length (s : State) : (container s).length = moffE s + pad4 s.pools.tokpool.length := by
  simp [container, headerBytes, signatureBytes, moffE, loffE, Pools.nlit]; omega

/-! ## What the engine leaves alone, and the outcomes it can report -/

/-- t has the same IN, IN_LEN, CTRL, parameters and host actions as s. -/
def SameInput (s t : State) : Prop :=
  t.inMem = s.inMem ∧ t.inLen = s.inLen ∧ t.ctrl = s.ctrl ∧ t.params = s.params ∧ t.inbox = s.inbox

theorem SameInput.refl (s : State) : SameInput s s := ⟨rfl, rfl, rfl, rfl, rfl⟩

theorem SameInput.trans {s t u : State} (h : SameInput s t) (h' : SameInput t u) : SameInput s u :=
  ⟨h'.1.trans h.1, h'.2.1.trans h.2.1, h'.2.2.1.trans h.2.2.1, h'.2.2.2.1.trans h.2.2.2.1, h'.2.2.2.2.trans h.2.2.2.2⟩

/-- t's STATUS is s's, or the block's report of an ended command (R152, R193, R228); IoError is never reported (R225). -/
def Reports (s t : State) : Prop := t.status = s.status ∨ t.status = statusDone ∨ ∃ e, e ≠ Err.ioError ∧ t.status = statusError e

theorem Reports.raise (s u : State) {e : Err} (h : e ≠ .ioError) : Reports s (raiseError e u) := .inr (.inr ⟨e, h, rfl⟩)

theorem Reports.of_eq {s t u : State} (h : t.status = s.status) (h' : Reports t u) : Reports s u := by
  rcases h' with h' | h' | h'
  · exact .inl (h'.trans h)
  · exact .inr (.inl h')
  · exact .inr (.inr h')

theorem loopTest_same (s : State) : SameInput s (loopTest s) ∧ Reports s (loopTest s) := by
  unfold loopTest
  split_ifs
  · exact ⟨.refl s, .inl rfl⟩
  · exact ⟨.refl s, .inr (.inl rfl)⟩

theorem copyEnd_same (s : State) : SameInput s (copyEnd s) ∧ Reports s (copyEnd s) := by
  unfold copyEnd
  split_ifs
  · exact loopTest_same { s with ph := .decRun }
  · exact ⟨.refl s, .inl rfl⟩

/-- A header step changes nothing of the input and reports what R141 to R145 say. -/
theorem hdrStep_same (s : State) : SameInput s (hdrStep s) ∧ Reports s (hdrStep s) := by
  have err : ∀ (e : Err) (u : State), e ≠ .ioError → SameInput s u → SameInput s (raiseError e u) ∧ Reports s (raiseError e u) :=
    fun e u he hu => ⟨hu, .raise s u he⟩
  have ok : ∀ u : State, SameInput s u → u.status = s.status → SameInput s u ∧ Reports s u := fun u hu h => ⟨hu, .inl h⟩
  unfold hdrStep
  cases s.hdrNext <;> dsimp only
  · unfold hdrSig hdrRead; split
    · exact err _ _ (by decide) (.refl s)
    · dsimp only; split_ifs
      · exact ok _ (.refl s) rfl
      · exact err _ _ (by decide) (.refl s)
  · unfold hdrSize hdrRead; split
    · exact err _ _ (by decide) (.refl s)
    · exact ok _ (.refl s) rfl
  · unfold hdrVariant hdrRead; split
    · exact err _ _ (by decide) (.refl s)
    · dsimp only; split_ifs
      · exact ok _ (.refl s) rfl
      · exact err .unsupportedVariant _ (by decide) (.refl s)
  · unfold hdrLoff hdrRead; split
    · exact err _ _ (by decide) (.refl s)
    · exact ok _ (.refl s) rfl
  · unfold hdrNbits hdrRead; split
    · exact err _ _ (by decide) (.refl s)
    · dsimp only; split_ifs
      · exact ok _ (.refl s) rfl
      · exact err (.configError .invalidNbits) _ (by decide) (.refl s)
  · unfold hdrMoff hdrRead; split
    · exact err _ _ (by decide) (.refl s)
    · rename_i v _
      exact loopTest_same (initDecode { s with hdr := { s.hdr with moff := BitVec.ofNat 24 (v &&& 0xFFFFFF) } })

theorem runStep_same {s t : State} (h : runStep s = .next t) : SameInput s t ∧ Reports s t := by
  by_cases ho : s.olen < s.hdr.size.toNat
  · rcases runStep_cases ho with ⟨-, h'⟩ | ⟨s1, f, hf, hc⟩
    · rw [h'] at h; cases h; exact ⟨.refl s, .raise _ _ (by decide)⟩
    · obtain ⟨hs1, -⟩ := flagNext_frame hf
      have h1 : SameInput s s1 := by rw [hs1]; exact .refl s
      have h2 : s1.status = s.status := by rw [hs1]
      rcases hc with ⟨-, -, h'⟩ | ⟨-, -, h'⟩ | ⟨-, -, h'⟩ | ⟨-, -, -, h'⟩ | ⟨-, -, -, h'⟩ <;> rw [h'] at h
      · cases h; exact ⟨h1, .raise _ _ (by decide)⟩
      · rcases afterOp_execLit_eq_next h with ⟨-, rfl⟩ | ⟨-, -, rfl⟩
        · exact ⟨h1, .raise _ _ (by decide)⟩
        · split_ifs
          · have := loopTest_same (pushByte (s.inByte s.cur.lc) (advanceLc s1))
            exact ⟨h1.trans this.1, .of_eq h2 this.2⟩
          · exact ⟨h1, .inl h2⟩
      · cases h; exact ⟨h1, .raise _ _ (by decide)⟩
      · cases h; exact ⟨h1, .raise _ _ (by decide)⟩
      · cases h; exact ⟨h1, .inl h2⟩
  · simp [runStep, ho] at h; subst h; exact ⟨.refl s, .inr (.inl rfl)⟩

theorem copyStep_same {s t : State} (h : copyStep s = .next t) : SameInput s t ∧ Reports s t := by
  rcases copyStep_eq_next h with ⟨-, rfl⟩ | ⟨-, -, -, rfl⟩
  · exact copyEnd_same s
  · exact copyEnd_same (countCopied (pushByte (s.outByte (s.copy.cbase - s.copy.cjump + s.copy.cr)) s))

theorem encCheckStep_same (s : State) : SameInput s (encCheckStep s) ∧ Reports s (encCheckStep s) := by
  unfold encCheckStep
  dsimp only
  split_ifs
  · exact ⟨.refl s, .inr (.inr ⟨.configError .invalidNbits, by decide, rfl⟩)⟩
  · exact ⟨.refl s, .inr (.inr ⟨.configError .invalidVariant, by decide, rfl⟩)⟩
  · exact ⟨.refl s, .inr (.inr ⟨.configError .emptyInput, by decide, rfl⟩)⟩
  · exact ⟨.refl s, .inr (.inr ⟨.configError .inputTooLarge, by decide, rfl⟩)⟩
  · exact ⟨.refl s, .inl rfl⟩

theorem searchTest_same (s : State) : SameInput s (searchTest s) ∧ Reports s (searchTest s) := by
  unfold searchTest; split_ifs <;> exact ⟨.refl s, .inl rfl⟩

theorem emitOp_same {op : Op} {s t : State} (h : emitOp op s = some t) : SameInput s t ∧ t.status = s.status := by
  unfold emitOp at h
  split at h
  · cases h; exact ⟨.refl s, rfl⟩
  · obtain ⟨c, -, rfl⟩ := Option.map_eq_some_iff.1 h; exact ⟨.refl s, rfl⟩

theorem searchStep_same {s t : State} (h : searchStep s = .next t) : SameInput s t ∧ Reports s t := by
  unfold searchStep at h
  split_ifs at h
  · split at h
    · cases h
    · rename_i u hu
      cases h
      obtain ⟨h1, h2⟩ := emitOp_same hu
      have := searchTest_same (advanceP (opSpan (matchFind s s.enc.p)) u)
      exact ⟨h1.trans this.1, .of_eq h2 this.2⟩
  · cases h; exact searchTest_same s

theorem asmStep_same {s t : State} (h : asmStep s = .next t) : SameInput s t ∧ Reports s t := by
  unfold asmStep at h
  split_ifs at h
  · cases h; exact ⟨.refl s, .raise _ _ (by decide)⟩
  · split at h
    · cases h
    · rename_i u hu
      obtain ⟨-, rfl⟩ := outWriteAll_eq_some.1 hu
      generalize container s = c at h
      cases h
      exact ⟨.refl s, .inr (.inl rfl)⟩

/-- No step of the engine changes IN, IN_LEN, CTRL, the parameters or the host's actions, and STATUS changes only to the report of
an ended command (R24, R56). -/
theorem engineStep_same {s t : State} (h : engineStep s = .next t) : SameInput s t ∧ Reports s t := by
  cases hp : s.ph
  · rw [engineStep_idle hp] at h; cases h; exact ⟨.refl s, .inl rfl⟩
  · rw [engineStep_decHdr hp] at h; cases h; exact hdrStep_same s
  · rw [engineStep_decRun hp] at h; exact runStep_same h
  · rw [engineStep_decCopy hp] at h; exact copyStep_same h
  · rw [engineStep_encCheck hp] at h; cases h; exact encCheckStep_same s
  · rw [engineStep_encSearch hp] at h; exact searchStep_same h
  · rw [engineStep_encAsm hp] at h; exact asmStep_same h

end Sys2Proof.Machine
end

