-- ==== Sys2Proof/Laws/Decoder.lean ====
section
/-! SUPPORT. The copy engine over many steps (42_decoder.md R149), and the input as a byte string. -/

namespace Sys2Proof.Machine

/-! ## The copy engine -/

/-- The state j bytes into a copy that has just been loaded (R149). -/
def copied (s : State) (j : Nat) : State :=
  { s with
    outMem := Memory.writeBytes s.outMem s.olen
      ((List.range j).map fun r => s.outByte (s.copy.cbase - s.copy.cjump + r % s.copy.cjump))
    olen := s.olen + j
    copy := { s.copy with cr := j } }

/-- What OUT holds j bytes into a copy: the source repeated with period CJUMP (R149). -/
theorem copied_outByte (s : State) (j a : Nat) : (copied s j).outByte a =
   if s.olen ≤ a ∧ a - s.olen < j then s.outByte (s.copy.cbase - s.copy.cjump + (a - s.olen) % s.copy.cjump) else s.outByte a := by
  have := outByte_writeBytes s s.olen a ((List.range j).map fun r => s.outByte (s.copy.cbase - s.copy.cjump + r % s.copy.cjump))
  simp only [State.outByte, copied] at this ⊢
  rw [this]
  by_cases h : s.olen ≤ a ∧ a - s.olen < j <;> simp [h]

/-- One more byte of a copy. -/
theorem copied_step {s : State} {j : Nat} (hp : s.ph = .decCopy) (hi : s.inbox = []) (h1 : 1 ≤ s.copy.cjump)
    (h2 : s.copy.cjump ≤ s.copy.cbase) (h3 : s.olen = s.copy.cbase) (hs : s.hdr.size.toNat ≤ s.params.outCap)
    (hj : j < min s.copy.crun (s.hdr.size.toNat - s.copy.cbase)) :
    step (copied s j) = .next (copyEnd (copied s (j + 1))) := by
  rw [step_engine (by exact hi), engineStep_decCopy (by exact hp), copyStep_next]
  · have hsrc : (copied s j).outByte ((copied s j).copy.cbase - (copied s j).copy.cjump + (copied s j).copy.cr) = s.outByte (s.copy.cbase - s.copy.cjump + j % s.copy.cjump) := by
      show (copied s j).outByte (s.copy.cbase - s.copy.cjump + j) = _
      rw [copied_outByte]
      by_cases hc : s.copy.cjump ≤ j
      · rw [if_pos (by omega), show s.copy.cbase - s.copy.cjump + j - s.olen = j - s.copy.cjump by omega,
          ← Nat.mod_eq_sub_mod hc]
      · rw [if_neg (by omega), Nat.mod_eq_of_lt (by omega)]
    rw [hsrc]
    congr 2
    simp only [copied, List.range_succ, List.map_append, Memory.writeBytes_append]
    simp [Memory.writeBytes, Nat.add_assoc, countCopied, pushByte]
  · simp [copied]; omega
  · simp [copied]; omega
  · simp [copied]; omega
  · simp [copied]; omega

/-- Before its first byte. -/
theorem copied_zero (s : State) (h : s.copy.cr = 0) : copied s 0 = s := by
  simp [copied, Memory.writeBytes]
  cases s; simp_all
  rename_i copy _ _ _ _ _ _ _ _
  cases copy; simp_all

/-- j steps of DEC_COPY, while the copy is not over. -/
theorem run_copied {s : State} (hp : s.ph = .decCopy) (hi : s.inbox = []) (h0 : s.copy.cr = 0) (h1 : 1 ≤ s.copy.cjump)
    (h2 : s.copy.cjump ≤ s.copy.cbase) (h3 : s.olen = s.copy.cbase) (hs : s.hdr.size.toNat ≤ s.params.outCap)
    (j : Nat) (hj : j < min s.copy.crun (s.hdr.size.toNat - s.copy.cbase)) :
    runSteps j s = .next (copied s j) := by
  induction j with
  | zero => rw [copied_zero s h0]; rfl
  | succ j ih =>
    rw [runSteps_add (ih (by omega)), runSteps_succ (copied_step hp hi h1 h2 h3 hs (by omega))]
    rw [copyEnd_more]; rfl
    rw [copyOver_eq_false]; simp [copied]; omega

/-! ## The input as a byte string -/

/-- The bytes of IN below IN_LEN. -/
abbrev inputBytes (s : State) : List Byte := inBytes s 0 s.inLen.toNat

/-- A field of the input, as the reference reads it, is MemRead's (R51, R52). -/
theorem field_inputBytes (s : State) (a n : Nat) :
    Reference.field (inputBytes s) a n = match memRead s a n with | none => .error .truncatedStream | some v => .ok v := by
  unfold Reference.field memRead
  rw [inBytes_length]
  split_ifs with h
  · rfl
  · have : ((inputBytes s).drop a).take n = inBytes s a n := by
      apply List.ext_getElem
      · simp; omega
      · intro i h1 h2
        rw [List.getElem_take, List.getElem_drop, inBytes_getElem, inBytes_getElem]; congr 1; omega
    rw [this]

end Sys2Proof.Machine
end

