-- ==== Sys2Proof/Laws/Flags.lean ====
section
/-! SUPPORT. The flag queue as the list of bits still to come, and what a packed word unpacks to (41_flag_stream.md). -/

namespace Sys2Proof.Machine

/-- The is_match bits still in the flag queue, in the order FLAG_NEXT returns them (R30, R120). -/
def pending (s : State) : List Bool := (List.range s.fq.count).map fun i => s.fq.bits.getLsbD (31 - i)

/-- Nothing is pending exactly where FQN = 0. -/
theorem pending_zero {s : State} : pending s = [] ↔ s.fq.count = 0 := by simp [pending]

/-- A pop takes the first pending bit. -/
theorem pending_pop {s : State} (h0 : s.fq.count ≠ 0) (h : s.fq.count ≤ 32) :
    pending s = s.fq.bits.getLsbD 31 :: pending (flagPop s).2 := by
  obtain ⟨n, hn⟩ : ∃ n, s.fq.count = n + 1 := ⟨s.fq.count - 1, by omega⟩
  simp only [pending, flagPop, hn, Nat.add_sub_cancel, List.range_succ_eq_map, List.map_cons, List.map_map]
  congr 1
  apply List.map_congr_left
  intro i hi
  have : i < n := List.mem_range.1 hi
  simp only [Function.comp, Nat.succ_eq_add_one, BitVec.getLsbD_shiftLeft]
  rw [show 31 - i - 1 = 31 - (i + 1) by omega]
  simp; omega

/-- A word taken at FC makes its flags pending, marker dropped and bits inverted (R120, R122). -/
theorem pending_take (s : State) (w : Nat) : pending (takeFlagWord w s) = Reference.flagsOf s.hdr.var.toNat w := by
  simp only [pending, takeFlagWord, Reference.flagsOf, refillQueue_count]
  have hz : s.hdr.var = 0 ↔ s.hdr.var.toNat = 0 := by rw [← BitVec.toNat_inj]; rfl
  by_cases h : s.hdr.var = 0
  · have h' := hz.1 h
    simp only [h, if_true, refillQueue]
    apply List.map_congr_left
    intro i hi
    have : i < 31 := List.mem_range.1 hi
    simp only [BitVec.getLsbD_shiftLeft, BitVec.getLsbD_not, BitVec.getLsbD_ofNat]
    rw [show 31 - i - 1 = 30 - i by omega]
    have a : decide (31 - i < 32) = true := by simp; omega
    have b : decide (30 - i < 32) = true := by simp; omega
    simp [a, b]; omega
  · have h' := mt hz.2 h
    simp only [h, if_false, h', refillQueue]
    apply List.map_congr_left
    intro i hi
    have : i < 32 := List.mem_range.1 hi
    have a : 31 - i < 32 := by omega
    simp only [BitVec.getLsbD_not, BitVec.getLsbD_ofNat, a, decide_true, Bool.true_and]

/-- FLAG_NEXT as a pop of the pending bits, after the word at FC was made pending where there were none (R120, R121). -/
theorem flagNext_pending {s t : State} {f : Bool} (h : flagNext s = some (f, t)) (hq : s.fq.count ≤ 32) :
    (pending s = f :: pending t) ∨ (pending s = [] ∧ s.cur.fc + 4 ≤ s.inLen.toNat ∧
      Reference.flagsOf s.hdr.var.toNat (leNat (inBytes s s.cur.fc 4)) = f :: pending t ∧ t.cur.fc = s.cur.fc + 4) := by
  rcases flagNext_eq_some.1 h with ⟨h0, h⟩ | ⟨h0, hl, h⟩
  · obtain ⟨rfl, rfl⟩ := Prod.ext_iff.1 h
    exact .inl (pending_pop h0 hq)
  · obtain ⟨rfl, rfl⟩ := Prod.ext_iff.1 h
    refine .inr ⟨pending_zero.2 h0, hl, ?_, rfl⟩
    rw [← pending_take, pending_pop]; rfl
    · simp only [takeFlagWord, refillQueue_count]; split_ifs <;> decide
    · simp only [takeFlagWord, refillQueue_count]; split_ifs <;> decide

/-- FQN never passes 32 (R30). -/
theorem flagNext_count_le {s t : State} {f : Bool} (h : flagNext s = some (f, t)) (hq : s.fq.count ≤ 32) : t.fq.count ≤ 32 := by
  rcases flagNext_eq_some.1 h with ⟨h0, h⟩ | ⟨h0, hl, h⟩
  · obtain ⟨rfl, rfl⟩ := Prod.ext_iff.1 h; simp only [flagPop]; omega
  · obtain ⟨rfl, rfl⟩ := Prod.ext_iff.1 h
    simp only [flagPop, takeFlagWord, refillQueue_count]; split_ifs <;> decide

/-- Where a bit is pending, FLAG_NEXT returns it and changes the flag queue only. -/
theorem flagNext_of_pending {s : State} {f : Bool} {fs : List Bool} (h : pending s = f :: fs) (hq : s.fq.count ≤ 32) :
    ∃ t, flagNext s = some (f, t) ∧ pending t = fs ∧ t = { s with fq := t.fq } := by
  have h0 : s.fq.count ≠ 0 := fun h0 => by rw [pending_zero.2 h0] at h; cases h
  have hp := pending_pop h0 hq
  rw [h] at hp
  injection hp with h1 h2
  exact ⟨(flagPop s).2, flagNext_eq_some.2 (.inl ⟨h0, by rw [h1]; rfl⟩), h2.symm, rfl⟩

/-- Pending bits are returned one after the other, with no word read. -/
theorem flagsRead_pending (fs : List Bool) {s : State} {rest : List Bool} (h : pending s = fs ++ rest) (hq : s.fq.count ≤ 32) :
    ∃ t, flagsRead fs.length s = some (fs, t) ∧ pending t = rest ∧ t.fq.count ≤ 32 ∧ t = { s with fq := t.fq } := by
  induction fs generalizing s with
  | nil => exact ⟨s, rfl, h, hq, rfl⟩
  | cons f fs ih =>
    obtain ⟨t, h1, h2, h3⟩ := flagNext_of_pending h hq
    obtain ⟨u, g1, g2, g3, g4⟩ := ih h2 (flagNext_count_le h1 hq)
    refine ⟨u, ?_, g2, g3, ?_⟩
    · simp [flagsRead, h1, g1]
    · rw [g4, h3]

/-- Runs of FLAG_NEXT join end to end. -/
theorem flagsRead_add (a b : Nat) {s t u : State} {fs gs : List Bool} (h1 : flagsRead a s = some (fs, t)) (h2 : flagsRead b t = some (gs, u)) :
    flagsRead (a + b) s = some (fs ++ gs, u) := by
  induction a generalizing s fs with
  | zero => simp [flagsRead] at h1; obtain ⟨rfl, rfl⟩ := h1; simpa using h2
  | succ a ih =>
    rw [Nat.add_right_comm]
    simp only [flagsRead] at h1 ⊢
    split at h1
    · cases h1
    · rename_i f s1 hf
      cases hr : flagsRead a s1 with
      | none => simp [hr] at h1
      | some r =>
        obtain ⟨r1, r2⟩ := r
        simp [hr] at h1
        obtain ⟨rfl, rfl⟩ := h1
        simp [ih hr]

/-- Flag i of a chunk stands i bits below the top of its word, raw (R123). -/
theorem packFlags_testBit (k : Nat) (fs : List Bool) (i : Nat) (hi : i < fs.length) (hk : i < k) :
    (packFlags k fs).testBit (k - 1 - i) = !fs[i] := by
  induction k generalizing fs i with
  | zero => omega
  | succ k ih =>
    cases fs with
    | nil => simp at hi
    | cons f fs =>
      have hlt := packFlags_lt k fs
      simp only [packFlags]
      cases i with
      | zero =>
        simp only [Nat.add_sub_cancel, Nat.sub_zero, List.getElem_cons_zero]
        cases f
        · simp only [Bool.false_eq_true, if_false]
          rw [← Nat.mul_one (2 ^ k), Nat.testBit_two_pow_mul_add _ hlt]; simp
        · simp; exact Nat.testBit_lt_two_pow hlt
      | succ i =>
        have := ih fs i (by simpa using hi) (by omega)
        simp only [List.getElem_cons_succ]
        rw [show k + 1 - 1 - (i + 1) = k - 1 - i by omega, ← this]
        cases f
        · simp only [Bool.false_eq_true, if_false]
          rw [← Nat.mul_one (2 ^ k), Nat.testBit_two_pow_mul_add _ hlt, if_pos (by omega)]
        · simp

/-- The flags of a packed word begin with its chunk (R123, R124). -/
theorem flagsOf_flagWord {var : BitVec 8} (hv : variantLegal var.toNat = true) (chunk : List Bool) (hc : chunk.length ≤ flagsPerWord var) :
    ∃ rest, Reference.flagsOf var.toNat (flagWord var chunk) = chunk ++ rest := by
  refine ⟨(Reference.flagsOf var.toNat (flagWord var chunk)).drop chunk.length, ?_⟩
  have key : (Reference.flagsOf var.toNat (flagWord var chunk)).take chunk.length = chunk := by
    rcases variantLegal_iff.1 hv with h0 | h2
    · have hz : var = 0 := BitVec.eq_of_toNat_eq h0
      subst hz
      simp only [flagsPerWord] at hc
      apply List.ext_getElem
      · simp [Reference.flagsOf]; simpa using hc
      · intro i h1 h2
        have hb : i < 31 := by simp at hc; omega
        have hb2 : packFlags 31 chunk < 2 ^ 31 := packFlags_lt 31 chunk
        simp [Reference.flagsOf, flagWord, flagsPerWord]
        have e : 2147483648 + packFlags 31 chunk = 2 ^ 31 * 1 + packFlags 31 chunk := by norm_num
        rw [e, Nat.testBit_two_pow_mul_add _ hb2, if_pos (by omega)]
        have := packFlags_testBit 31 chunk i h2 hb
        rw [show 31 - 1 - i = 30 - i by omega] at this
        rw [this]
    · have hz : var = 2 := BitVec.eq_of_toNat_eq h2
      subst hz
      simp only [flagsPerWord] at hc
      apply List.ext_getElem
      · simp [Reference.flagsOf]; simpa using hc
      · intro i h1 h2
        have hb : i < 32 := by simp at hc; omega
        simp [Reference.flagsOf, flagWord, flagsPerWord]
        have := packFlags_testBit 32 chunk i h2 hb
        rw [show 32 - 1 - i = 31 - i by omega] at this
        rw [this]
  conv_lhs => rw [← List.take_append_drop chunk.length (Reference.flagsOf var.toNat (flagWord var chunk)), key]

/-- A flag word has 32 bits. -/
theorem flagWord_lt (var : BitVec 8) (chunk : List Bool) : flagWord var chunk < 2 ^ 32 := by
  have h := packFlags_lt (flagsPerWord var) chunk
  have hB : flagsPerWord var ≤ 32 := by simp only [flagsPerWord]; split_ifs <;> omega
  by_cases hz : var = 0
  · subst hz
    have : packFlags 31 chunk < 2 ^ 31 := h
    show 2 ^ 31 + packFlags 31 chunk < 2 ^ 32
    omega
  · simp only [flagWord, hz, if_false, Nat.zero_add]
    exact h.trans_le (Nat.pow_le_pow_right (by norm_num) hB)

/-- A word of a legal variant carries B flags (R123). -/
theorem flagsOf_length {var : BitVec 8} (hv : variantLegal var.toNat = true) (w : Nat) :
    (Reference.flagsOf var.toNat w).length = flagsPerWord var := by
  rcases variantLegal_iff.1 hv with h | h
  · have hz : var = 0 := BitVec.eq_of_toNat_eq h
    subst hz; simp [Reference.flagsOf, flagsPerWord]
  · have hz : var = 2 := BitVec.eq_of_toNat_eq h
    subst hz; simp [Reference.flagsOf, flagsPerWord]

end Sys2Proof.Machine
end

