-- ==== Sys2Proof/Laws/PerInstr.lean ====
section
/-! SUPPORT. The family TableRow: each instruction's encoding fits its row of spec/opcode_table.json (30_encoding.md R83, R86,
R93, 10_state.md R23), one lemma per constructor. -/

namespace Sys2Proof.Laws.TableRow

open Sys2Proof.Machine

/-- The bits of a code word that the opcode table numbers: the raw flag bit, or the CTRL word. -/
def numbered : CodeWord → Nat
  | .op raw _ => raw.toNat
  | .ctrl w => w.toNat

/-- The operand bytes of a code word. -/
def operand : CodeWord → List Byte
  | .op _ bs => bs
  | .ctrl _ => []

/-- The mask of the instruction's row. -/
def mask : Instr → Nat
  | .lit _ => 0x1
  | .matchN10 _ _ => 0x1
  | .matchN11 _ _ => 0x1
  | .matchN12 _ _ => 0x1
  | .matchN13 _ _ => 0x1
  | .decode _ _ => 0x80000003
  | .encode _ _ => 0x80000003

/-- The fixed bits of the instruction's row. -/
def fixedBits : Instr → Nat
  | .lit _ => 0x1
  | .matchN10 _ _ => 0x0
  | .matchN11 _ _ => 0x0
  | .matchN12 _ _ => 0x0
  | .matchN13 _ _ => 0x0
  | .decode _ _ => 0x80000001
  | .encode _ _ => 0x80000002

/-- How many operand bytes the row gives the instruction (R86). -/
def operandLength : Instr → Nat
  | .lit _ => 1
  | .matchN10 _ _ => 2
  | .matchN11 _ _ => 2
  | .matchN12 _ _ => 2
  | .matchN13 _ _ => 2
  | .decode _ _ => 0
  | .encode _ _ => 0

/-- The operand as a number: the literal, or run − 3 above and jump − 1 below bit nbits (R83). -/
def operandValue : Instr → Nat
  | .lit b => b.toNat
  | .matchN10 jump run => (run - 3) * 2 ^ 10 + (jump - 1)
  | .matchN11 jump run => (run - 3) * 2 ^ 11 + (jump - 1)
  | .matchN12 jump run => (run - 3) * 2 ^ 12 + (jump - 1)
  | .matchN13 jump run => (run - 3) * 2 ^ 13 + (jump - 1)
  | .decode _ _ => 0
  | .encode _ _ => 0

/-- A well-formed instruction's encoding has its row's fixed bits, operand length and operand layout. -/
def Statement (i : Instr) : Prop :=
  i.wf = true →
    numbered (Sys2Proof.encode i) &&& mask i = fixedBits i ∧
    (operand (Sys2Proof.encode i)).length = operandLength i ∧
    leNat (operand (Sys2Proof.encode i)) = operandValue i

theorem lit (b : Byte) : Statement (.lit b) := fun _ =>
  ⟨by simp [Sys2Proof.encode, numbered, mask, fixedBits], rfl, by simp [Sys2Proof.encode, operand, leNat, operandValue]⟩

/-- The number of an encoded cell (R82, R83). -/
theorem cell_value {nb jump run : Nat} (h : tokenInRange jump run nb = true) :
    leNat (leBytes 2 (tokenCell jump run nb).toNat) = (run - 3) * 2 ^ nb + (jump - 1) := by
  rw [leNat_leBytes, show 256 ^ 2 = 2 ^ 16 by norm_num, Nat.mod_eq_of_lt (tokenCell jump run nb).isLt, tokenCell_toNat h]

theorem matchN10 (jump run : Nat) : Statement (.matchN10 jump run) := fun h =>
  ⟨by simp [Sys2Proof.encode, encodeMatch, numbered, mask, fixedBits], leBytes_length _ _, cell_value h⟩

theorem matchN11 (jump run : Nat) : Statement (.matchN11 jump run) := fun h =>
  ⟨by simp [Sys2Proof.encode, encodeMatch, numbered, mask, fixedBits], leBytes_length _ _, cell_value h⟩

theorem matchN12 (jump run : Nat) : Statement (.matchN12 jump run) := fun h =>
  ⟨by simp [Sys2Proof.encode, encodeMatch, numbered, mask, fixedBits], leBytes_length _ _, cell_value h⟩

theorem matchN13 (jump run : Nat) : Statement (.matchN13 jump run) := fun h =>
  ⟨by simp [Sys2Proof.encode, encodeMatch, numbered, mask, fixedBits], leBytes_length _ _, cell_value h⟩

/-- The fixed bits of an encoded command (R23, R90). -/
theorem ctrl_fixed (op : BitVec 2) (variant nbits : BitVec 8) :
    numbered (encodeCtrl op variant nbits) &&& 0x80000003 = (0x80000000 ||| op.setWidth 32 : Word).toNat := by
  obtain ⟨w, hw, h1, h2, -, -⟩ := encodeCtrl_fields op variant nbits
  rw [hw, ← (ctrlSelects_iff w op).1 ⟨h1, h2⟩]
  rfl

theorem decode (variant nbits : BitVec 8) : Statement (.decode variant nbits) := fun _ => ⟨ctrl_fixed 1 variant nbits, rfl, rfl⟩

theorem encode (variant nbits : BitVec 8) : Statement (.encode variant nbits) := fun _ => ⟨ctrl_fixed 2 variant nbits, rfl, rfl⟩

end Sys2Proof.Laws.TableRow
end

