-- ==== Sys2Proof/Tests/Slice0.lean ====
section
/-! SUPPORT. Tests. Expected values are those of spec/95_test_vectors.md, or worked out by hand from the rule cited. Each test is
one step or one pure function. The witnesses show, for each statement with hypotheses, states and operands that meet them. -/

namespace Sys2Proof.Tests

open Sys2Proof Sys2Proof.Machine

/-! ## Well-formedness: each check refuses an ill-formed term, and accepts its bounds (R83) -/

theorem test_wf_n10_jump_zero : Instr.wf (.matchN10 0 3) = false := by decide
theorem test_wf_n10_jump_high : Instr.wf (.matchN10 1025 3) = false := by decide
theorem test_wf_n10_run_low : Instr.wf (.matchN10 1 2) = false := by decide
theorem test_wf_n10_run_high : Instr.wf (.matchN10 1 67) = false := by decide
theorem test_wf_n10_bounds : Instr.wf (.matchN10 1 3) = true ∧ Instr.wf (.matchN10 1024 66) = true := by decide
theorem test_wf_n11_refuses : Instr.wf (.matchN11 0 3) = false ∧ Instr.wf (.matchN11 2049 3) = false ∧
    Instr.wf (.matchN11 1 2) = false ∧ Instr.wf (.matchN11 1 35) = false := by decide
theorem test_wf_n11_bounds : Instr.wf (.matchN11 1 3) = true ∧ Instr.wf (.matchN11 2048 34) = true := by decide
theorem test_wf_n12_refuses : Instr.wf (.matchN12 0 3) = false ∧ Instr.wf (.matchN12 4097 3) = false ∧
    Instr.wf (.matchN12 1 2) = false ∧ Instr.wf (.matchN12 1 19) = false := by decide
theorem test_wf_n12_bounds : Instr.wf (.matchN12 1 3) = true ∧ Instr.wf (.matchN12 4096 18) = true := by decide
theorem test_wf_n13_refuses : Instr.wf (.matchN13 0 3) = false ∧ Instr.wf (.matchN13 8193 3) = false ∧
    Instr.wf (.matchN13 1 2) = false ∧ Instr.wf (.matchN13 1 11) = false := by decide
theorem test_wf_n13_bounds : Instr.wf (.matchN13 1 3) = true ∧ Instr.wf (.matchN13 8192 10) = true := by decide

/-! ## Decoding: one word of each row, written out from the spec's encoding -/

/-- R85: raw flag 1, operand the literal byte. -/
theorem test_decode_lit : decode 12 (.op 1 [0x41]) = .ok (.lit 0x41) := by decide
/-- TOK-1: `01 08` at nbits 10 is (2, 5). -/
theorem test_decode_matchN10 : decode 10 (.op 0 [0x01, 0x08]) = .ok (.matchN10 2 5) := by decide
/-- TOK-1: `01 10` at nbits 11 is (2, 5). -/
theorem test_decode_matchN11 : decode 11 (.op 0 [0x01, 0x10]) = .ok (.matchN11 2 5) := by decide
/-- TOK-1: `01 20` at nbits 12 is (2, 5). -/
theorem test_decode_matchN12 : decode 12 (.op 0 [0x01, 0x20]) = .ok (.matchN12 2 5) := by decide
/-- TOK-1: `01 40` at nbits 13 is (2, 5). -/
theorem test_decode_matchN13 : decode 13 (.op 0 [0x01, 0x40]) = .ok (.matchN13 2 5) := by decide
/-- TOK-1: the all-ones cell is (W, MAXRUN) in every layout. -/
theorem test_decode_match_ones :
    decode 10 (.op 0 [0xFF, 0xFF]) = .ok (.matchN10 1024 66) ∧ decode 11 (.op 0 [0xFF, 0xFF]) = .ok (.matchN11 2048 34) ∧
    decode 12 (.op 0 [0xFF, 0xFF]) = .ok (.matchN12 4096 18) ∧ decode 13 (.op 0 [0xFF, 0xFF]) = .ok (.matchN13 8192 10) := by
  decide
/-- DEC-22: NBITS, VARIANT and reserved bits are no part of DECODE's selection. -/
theorem test_decode_decode : decode 0 (.ctrl 0x80FFFF01) = .ok (.decode 0xFF 0xFF) := by decide
/-- ENC-5: CTRL of ENCODE at nbits 12, variant 2. -/
theorem test_decode_encode : decode 0 (.ctrl 0x80020C02) = .ok (.encode 2 12) := by decide
/-- R23, R90: no START, and the two reserved OP values. -/
theorem test_decode_ctrl_rejects :
    decode 0 (.ctrl 0x00020C02) = .error .notStarted ∧ decode 0 (.ctrl 0x80000000) = .error .reservedOp ∧
    decode 0 (.ctrl 0x80000003) = .error .reservedOp := by decide
/-- R86: operand lengths; R93: no row for nbits 9. -/
theorem test_decode_op_rejects :
    decode 12 (.op 1 [0x41, 0x42]) = .error .operandLength ∧ decode 12 (.op 0 [0x01]) = .error .operandLength ∧
    decode 9 (.op 0 [0x01, 0x20]) = .error .nbitsWithoutRow := by decide
/-- The table words of LIT 'A', of a MATCH with a zero cell, and of the two commands (log 10). -/
theorem test_decodeTableWord :
    decodeTableWord 16 0x83 = some (.lit 0x41) ∧ decodeTableWord 8 0 = some (.matchN10 1 3) ∧
    decodeTableWord 32 0x80000001 = some (.decode 0 0) ∧ decodeTableWord 32 0x80000002 = some (.encode 0 0) := by decide

/-! ## The pure units -/

/-- TOK-2 and TOK-4. -/
theorem test_tokenDecode :
    tokenDecode 0x1234 10 = (565, 7) ∧ tokenDecode 0x1234 13 = (4661, 3) ∧ tokenDecode 0x1234 0 = (1, 4663) ∧
    tokenDecode 0x1234 9 = (53, 12) ∧ tokenDecode 0x1234 16 = (4661, 3) := by decide
/-- TOK-1, and TOK-5's refused calls. -/
theorem test_tokenEncode :
    tokenEncode 2 5 12 = some 0x2001 ∧ tokenEncode 1 66 10 = some 0xFC00 ∧ tokenEncode 0 3 12 = none ∧
    tokenEncode 1 19 12 = none := by decide
/-- FLG-7, FLG-9 and FLG-11b. -/
theorem test_flagPack_short :
    flagPack [true] 2 = [0, 0, 0, 0] ∧ flagPack [false] 0 = [0, 0, 0, 0xC0, 0, 0, 0, 0] ∧
    flagPack [false, false, true] 0 = [0, 0, 0, 0xE0, 0, 0, 0, 0] := by decide
/-- FLG-5: 32 literals cross the format-0 word. -/
theorem test_flagPack_crosses_word :
    flagPack (List.replicate 32 false) 0 = [0xFF, 0xFF, 0xFF, 0xFF, 0, 0, 0, 0xC0, 0, 0, 0, 0] := by decide

/-! ## States -/

/-- Right after reset, with bytes of IN from address 0 and their count in IN_LEN. -/
def atRest (bytes : List Byte) : State :=
  { State.reset with inMem := Memory.writeBytes [] 0 bytes, inLen := BitVec.ofNat 32 bytes.length }

/-- A command running in a phase. -/
def running (ph : Phase) (bytes : List Byte) : State := { atRest bytes with status := statusBusy, ph := ph }

/-- P1's container: L 'A', L 'B', M(2, 5), format 2, nbits 12. -/
def p1 : List Byte :=
  [0x55, 0x6C, 0x7A, 0x1A, 7, 0, 0, 2, 0x14, 0, 0, 12, 0x18, 0, 0, 0, 0, 0, 0, 0xC0, 0x41, 0x42, 0, 0, 0x01, 0x20, 0, 0]

/-- P1 with its header read, before its first operation (R145). -/
def p1Start : State :=
  { running .decRun p1 with
    hdr := { size := 7, var := 2, loff := 0x14, nb := 12, moff := 0x18 }
    cur := { fc := 0x10, lc := 0x14, mc := 0x18 } }

/-- P1 after its two literals: the flag queue holds the third flag, raw 0, as is_match in bit 31. -/
def p1Match : State :=
  { p1Start with
    cur := { fc := 0x14, lc := 0x16, mc := 0x18 }
    fq := { bits := 0xFFFFFFFC, count := 30 }
    outMem := [(0, 0x41), (1, 0x42)]
    olen := 2 }

/-- P1 with its copy loaded (R149). -/
def p1Copy : State :=
  { p1Match with
    cur := { fc := 0x14, lc := 0x16, mc := 0x1A }
    fq := { bits := 0xFFFFFFF8, count := 29 }
    copy := { cbase := 2, cjump := 2, crun := 5, cr := 0 }
    ph := .decCopy }

/-- A header being read at a field, before any output. -/
def reading (next : HdrField) (bytes : List Byte) : State := { running .decHdr bytes with hdrNext := next }

/-- ENCODE's checks about to run on an input, nbits and variant. -/
def checking (variant nbits : BitVec 8) (bytes : List Byte) : State :=
  { running .encCheck bytes with ctrl := { op := 2, nbits := nbits, variant := variant } }

/-- ENCODE of one byte 'A' at nbits 10, variant 2 (ENC-1), at the start of its search. -/
def enc1Search : State :=
  { checking 2 10 [0x41] with
    ph := .encSearch, enc := { n := 1, nb := 10, var := 2, w := 1024, maxrun := 66, p := 0 } }

/-- ENCODE of "AAAA" at nbits 10, variant 2, with its first literal emitted: the search chooses the Match (1, 3) at position 1. -/
def encMatchSearch : State :=
  { checking 2 10 [0x41, 0x41, 0x41, 0x41] with
    ph := .encSearch, enc := { n := 4, nb := 10, var := 2, w := 1024, maxrun := 66, p := 1 }
    pools := { flagbits := [false], litpool := [0x41], tokpool := [] } }

/-- ENC-1 with its literal emitted. -/
def enc1Asm : State :=
  { enc1Search with
    ph := .encAsm, enc := { n := 1, nb := 10, var := 2, w := 1024, maxrun := 66, p := 1 }
    pools := { flagbits := [false], litpool := [0x41], tokpool := [] } }

/-- A machine with a smaller OUT. -/
def withOutCap (cap : Nat) (s : State) : State := { s with params := { s.params with outCap := cap } }

/-- The state after a step, for tests on a single field. -/
def after (o : Host.Outcome State Fault Refusal) : State :=
  match o with
  | .next s => s
  | .fault _ => State.reset
  | .refused _ => State.reset

/-! ## One step -/

/-- P1: the first step is LIT 'A' read at 20 with the flag word at 16 (fc 20, lc 21). -/
theorem test_step_lit :
    (after (step p1Start)).outByte 0 = 0x41 ∧ (after (step p1Start)).olen = 1 ∧
    (after (step p1Start)).cur = { fc := 20, lc := 21, mc := 24 } ∧ (after (step p1Start)).fq.count = 31 := by decide
/-- P1: the third step is MATCH (2, 5) with CBASE 2. -/
theorem test_step_match :
    (after (step p1Match)).copy = { cbase := 2, cjump := 2, crun := 5, cr := 0 } ∧ (after (step p1Match)).ph = .decCopy ∧
    (after (step p1Match)).cur.mc = 26 := by decide
/-- P1: the first copied byte is OUT[0]. -/
theorem test_step_copy :
    (after (step p1Copy)).outByte 2 = 0x41 ∧ (after (step p1Copy)).olen = 3 ∧ (after (step p1Copy)).copy.cr = 1 := by decide
/-- The four MATCH rows on one state: the copy engine takes the operands of the instruction (R148). -/
theorem test_exec_match_rows :
    (after (exec (.matchN10 1 66) p1Match)).copy.crun = 66 ∧ (after (exec (.matchN11 2 34) p1Match)).copy.cjump = 2 ∧
    (after (exec (.matchN12 2 18) p1Match)).copy.cbase = 2 ∧ (after (exec (.matchN13 2 10) p1Match)).copy.cr = 0 := by decide
/-- P4: a match at OLEN = 0 is BadReference (STATUS 0x64). -/
theorem test_exec_match_bad :
    statusWord (after (exec (.matchN13 1 3) { p1Match with olen := 0 })).status = 0x64 := by decide
/-- DEC-2: FormatError (STATUS 0x14); DEC-1: TruncatedStream (STATUS 0x34). -/
theorem test_step_signature :
    statusWord (after (step (reading .sig [0x55, 0x6C, 0x7A, 0x1B]))).status = 0x14 ∧
    statusWord (after (step (reading .sig [0x55, 0x6C, 0x7A]))).status = 0x34 := by decide
/-- DEC-22: CTRL 0x80FFFF01 starts DECODE; it reads back without START and the reserved bits (R23). -/
theorem test_step_start_decode :
    (after (step { atRest p1 with inbox := [.writeReg 0 0x80FFFF01] })).ph = .decHdr ∧
    readReg (after (step { atRest p1 with inbox := [.writeReg 0 0x80FFFF01] })) 0 = 0x00FFFF01 ∧
    readReg (after (step { atRest p1 with inbox := [.writeReg 0 0x80FFFF01] })) 1 = 1 := by decide
/-- ENC-5's CTRL word starts ENCODE. -/
theorem test_step_start_encode :
    (after (step { atRest [0x41] with inbox := [.writeReg 0 0x80020C02] })).ph = .encCheck := by decide
/-- ENC-12: a reserved OP is BadOp (STATUS 0x644). -/
theorem test_step_start_reserved :
    statusWord (after (step { atRest [0x41] with inbox := [.writeReg 0 0x80000003] })).status = 0x644 := by decide
/-- ENC-11: the nbits check comes first (STATUS 0x144). -/
theorem test_step_check_order : statusWord (after (step (checking 1 9 []))).status = 0x144 := by decide
/-- ENC-1: the container of "A" at nbits 10, variant 2. -/
theorem test_step_assembly :
    container enc1Asm = [0x55, 0x6C, 0x7A, 0x1A, 1, 0, 0, 2, 0x14, 0, 0, 0x0A, 0x18, 0, 0, 0, 0, 0, 0, 0x80, 0x41, 0, 0, 0] ∧
    (after (step enc1Asm)).outLen = 24 := by decide
/-- MF-12: at position 3 of "xyzxy" no match is long enough. -/
theorem test_matchFind_short :
    matchFind { enc1Search with inMem := Memory.writeBytes [] 0 [0x78, 0x79, 0x7A, 0x78, 0x79],
                                enc := { n := 5, nb := 12, var := 2, w := 4096, maxrun := 18, p := 3 } } 3 =
      .literal 0x78 := by decide
/-- MF-1: at position 3 of "abcabcabc" the match is (3, 6). -/
theorem test_matchFind_overlap :
    matchFind { enc1Search with inMem := Memory.writeBytes [] 0 [0x61, 0x62, 0x63, 0x61, 0x62, 0x63, 0x61, 0x62, 0x63],
                                enc := { n := 9, nb := 12, var := 2, w := 4096, maxrun := 18, p := 3 } } 3 =
      .mat 3 6 := by decide
/-- P1's listing: its text and its container. -/
theorem test_listing :
    Reference.Listing.container { size := 7, variant := 2, nbits := 12, ops := [.literal 0x41, .literal 0x42, .mat 2 5] } =
      .ok p1 := by rfl
theorem test_listing_text :
    Reference.Listing.lines { size := 7, variant := 2, nbits := 12, ops := [.literal 0x41, .mat 2 5] } =
      [".ulz size=7 variant=2 nbits=12", "LIT 0x41", "MATCH 2, 5"] := by decide
/-- A table word is fetched and run as the very next step (log 11). -/
theorem test_withFetchWord :
    (after (step (State.reset.withFetchWord 16 0x83))).outByte 0 = 0x41 ∧
    step (State.reset.withFetchWord 32 0x80000001) = exec (.decode 0 0) State.reset := ⟨by decide, rfl⟩

/-! ## Witnesses: for each statement with hypotheses, what meets them; for each clause, a boundary value -/

/-- FlagNextRefillsFromTheWordAtFC, both clauses: the word ends just past, and exactly at, IN_LEN. -/
theorem witness_FlagNextRefills :
    (p1Start.fq.count = 0 ∧ variantLegal p1Start.hdr.var.toNat = true ∧ p1Start.cur.fc + 4 ≤ p1Start.inLen.toNat) ∧
    ({ p1Start with inLen := 19 } : State).inLen.toNat < p1Start.cur.fc + 4 ∧
    p1Start.cur.fc + 4 ≤ ({ p1Start with inLen := 20 } : State).inLen.toNat := by decide
theorem witness_FlagNextPops : p1Match.fq.count ≠ 0 := by decide
theorem witness_EncodeOfDecoded :
    decode 13 (.op 0 [0xFF, 0xFF]) = .ok (.matchN13 8192 10) ∧ decode 0 (.op 1 [0x00]) = .ok (.lit 0) := by decide
theorem witness_TokenRoundTrip : nbitsLegal 10 = true ∧ nbitsLegal 13 = true ∧ 8192 ≤ 2 ^ 13 ∧ 10 ≤ 2 ^ (16 - 13) + 2 := by decide
/-- TokenDecodeOutsideLegalNbits at the bounds of its clauses: nbits 0, 1, 15 and 16 (R102, by hand). -/
theorem witness_TokenDecodeOutside :
    tokenDecode 0xFFFF 0 = (1, 65538) ∧ tokenDecode 0xFFFF 1 = (2, 32770) ∧ tokenDecode 0xFFFF 15 = (32768, 4) ∧
    tokenDecode 0xFFFF 16 = (65536, 3) := by decide
theorem witness_FlagSectionLength : [true] ≠ [] ∧ (List.replicate 40 true).length = 40 := by decide
/-- FlagUnpackInvertsPack: P1's flags stand at 0x10 of P1. -/
theorem witness_FlagUnpack :
    [false, false, true] ≠ [] ∧ variantLegal p1Start.hdr.var.toNat = true ∧ p1Start.fq.count = 0 ∧ p1Start.cur.fc = 0x10 ∧
    0x10 + (flagPack [false, false, true] p1Start.hdr.var).length ≤ p1Start.inLen.toNat ∧
    ∀ i (h : i < (flagPack [false, false, true] p1Start.hdr.var).length),
      p1Start.inByte (0x10 + i) = (flagPack [false, false, true] p1Start.hdr.var)[i] := by decide
theorem witness_LitAppends : p1Start.cur.lc + 1 ≤ p1Start.inLen.toNat ∧ p1Start.olen < p1Start.params.outCap := by decide
theorem witness_MatchStarts : p1Match.cur.mc + 2 ≤ p1Match.inLen.toNat ∧ 2 ≤ p1Match.olen := by decide
/-- OperationsRaiseTheirErrors, each clause at its bound. -/
theorem witness_OperationsRaise :
    ({ p1Start with inLen := 20 } : State).inLen.toNat < p1Start.cur.lc + 1 ∧
    ({ p1Match with inLen := 25 } : State).inLen.toNat < p1Match.cur.mc + 2 ∧
    p1Match.cur.mc + 2 ≤ ({ p1Match with inLen := 26 } : State).inLen.toNat ∧ p1Match.olen < 3 := by decide
theorem witness_CopyRepeats :
    p1Copy.ph = .decCopy ∧ p1Copy.inbox = [] ∧ p1Copy.copy.cr = 0 ∧ 1 ≤ p1Copy.copy.crun ∧ 1 ≤ p1Copy.copy.cjump ∧
    p1Copy.copy.cjump ≤ p1Copy.copy.cbase ∧ p1Copy.olen = p1Copy.copy.cbase ∧ p1Copy.olen < p1Copy.hdr.size.toNat ∧
    p1Copy.hdr.size.toNat ≤ p1Copy.params.outCap := by decide
/-- SignatureIsChecked, each clause at its bound: 3 bytes, and 4 bytes wrong and right. -/
theorem witness_Signature :
    (reading .sig [0x55, 0x6C, 0x7A]).inLen.toNat < 4 ∧
    4 ≤ (reading .sig [0x55, 0x6C, 0x7A, 0x1B]).inLen.toNat ∧
    inBytes (reading .sig [0x55, 0x6C, 0x7A, 0x1B]) 0 4 ≠ [0x55, 0x6C, 0x7A, 0x1A] ∧
    inBytes (reading .sig [0x55, 0x6C, 0x7A, 0x1A]) 0 4 = [0x55, 0x6C, 0x7A, 0x1A] ∧
    (reading .sig [0x55, 0x6C, 0x7A, 0x1A]).ph = .decHdr ∧ (reading .sig [0x55, 0x6C, 0x7A, 0x1A]).inbox = [] ∧
    (reading .sig [0x55, 0x6C, 0x7A, 0x1A]).hdrNext = .sig := by decide
/-- HeaderModesAreChecked, each clause at its bound: 7, 8, 11 and 12 bytes of input; variants 1 and 2; nbits 13 and 14. -/
theorem witness_HeaderModes :
    (reading .variant (p1.take 7)).inLen.toNat < 8 ∧ 8 ≤ (reading .variant (p1.take 8)).inLen.toNat ∧
    (reading .variant (p1.take 8)).inByte 7 = 2 ∧ (reading .variant [0, 0, 0, 0, 0, 0, 0, 1]).inByte 7 = 1 ∧
    (reading .nbits (p1.take 11)).inLen.toNat < 12 ∧ 12 ≤ (reading .nbits (p1.take 12)).inLen.toNat ∧
    (reading .nbits [0, 0, 0, 0, 0, 0, 0, 0, 0, 0, 0, 13]).inByte 11 = 13 ∧
    (reading .nbits [0, 0, 0, 0, 0, 0, 0, 0, 0, 0, 0, 14]).inByte 11 = 14 ∧
    (reading .nbits p1).ph = .decHdr ∧ (reading .nbits p1).inbox = [] ∧ (reading .nbits p1).hdrNext = .nbits := by decide
theorem witness_HeaderEnds :
    (reading .moff (p1.take 16)).ph = .decHdr ∧ (reading .moff (p1.take 16)).inbox = [] ∧
    (reading .moff (p1.take 16)).hdrNext = .moff ∧ 16 ≤ (reading .moff (p1.take 16)).inLen.toNat := by decide
theorem witness_StepRunsTheDecodedOperation :
    ∃ s1, p1Start.inbox = [] ∧ p1Start.ph = .decRun ∧ p1Start.olen < p1Start.hdr.size.toNat ∧
      fetchOp p1Start = .op 1 [0x41] s1 ∧ decode s1.hdr.nb (.op 1 [0x41]) = .ok (.lit 0x41) :=
  ⟨_, rfl, rfl, by decide, rfl, rfl⟩
/-- FetchTakesFlagAndOperand, each clause at its bound. -/
theorem witness_Fetch :
    (∃ s1, flagNext p1Start = some (false, s1) ∧ s1.cur.lc + 1 ≤ s1.inLen.toNat) ∧
    (∃ s1, flagNext { p1Start with inLen := 20 } = some (false, s1) ∧ s1.inLen.toNat < s1.cur.lc + 1) ∧
    (∃ s1, flagNext { p1Match with inLen := 26 } = some (true, s1) ∧ s1.cur.mc + 2 ≤ s1.inLen.toNat) ∧
    (∃ s1, flagNext { p1Match with inLen := 25 } = some (true, s1) ∧ s1.inLen.toNat < s1.cur.mc + 2) :=
  ⟨⟨_, rfl, by decide⟩, ⟨_, rfl, by decide⟩, ⟨_, rfl, by decide⟩, ⟨_, rfl, by decide⟩⟩
/-- CursorsMoveByTheirUnits and DecoderOutputIsAppendOnly: a step of each phase that raises no error. -/
theorem witness_DecoderSteps :
    (∃ t, p1Start.inbox = [] ∧ p1Start.ph = .decRun ∧ step p1Start = .next t ∧ t.status.error = false) ∧
    (∃ t, p1Copy.inbox = [] ∧ p1Copy.ph = .decCopy ∧ step p1Copy = .next t ∧ t.status.error = false) :=
  ⟨⟨_, rfl, rfl, rfl, by decide⟩, ⟨_, rfl, rfl, rfl, by decide⟩⟩
/-- DecodeLaunches: OUT_CAP is exactly the declared size. -/
theorem witness_DecodeLaunches :
    (atRest p1).status.busy = false ∧ (atRest p1).inLen.toNat ≤ (atRest p1).params.maxInLen ∧
    declaredSize (withOutCap 7 (atRest p1)) = some 7 ∧ 7 ≤ (withOutCap 7 (atRest p1)).params.outCap := by decide
/-- DecodeRunsAsTheReference. -/
theorem witness_DecodeRuns : ∃ s0, (atRest p1).inbox = [] ∧ exec (.decode 0 0) (atRest p1) = .next s0 := ⟨_, rfl, rfl⟩
/-- DecodeIgnoresTrailingBytes: P1 decodes to "ABABABA". -/
theorem witness_DecodeIgnores : Reference.decodeStream true p1 = .ok [0x41, 0x42, 0x41, 0x42, 0x41, 0x42, 0x41] := by rfl
/-- EncodeLaunches: OUT_CAP is exactly the bound of R194 for one byte. -/
theorem witness_EncodeLaunches :
    (atRest [0x41]).status.busy = false ∧ (atRest [0x41]).inLen.toNat ≤ (atRest [0x41]).params.maxInLen ∧
    16 + 4 * (ceilDiv (atRest [0x41]).inLen.toNat 31 + 1) + (atRest [0x41]).inLen.toNat + 6 ≤
      (withOutCap 31 (atRest [0x41])).params.outCap := by decide
/-- EncodeParametersAreCheckedInOrder: a state for each outcome. -/
theorem witness_EncodeParameters :
    (checking 0 10 [0x41]).ph = .encCheck ∧ (checking 0 10 [0x41]).inbox = [] ∧
    ¬(10 ≤ (checking 0 9 [0x41]).ctrl.nbits.toNat ∧ (checking 0 9 [0x41]).ctrl.nbits.toNat ≤ 13) ∧
    ¬((checking 1 13 [0x41]).ctrl.variant = 0 ∨ (checking 1 13 [0x41]).ctrl.variant = 2) ∧
    (checking 2 13 []).inLen = 0 ∧ 0xFFFFFF < ({ checking 2 13 [] with inLen := 0x1000000 } : State).inLen.toNat ∧
    ¬ 0xFFFFFF < ({ checking 2 13 [] with inLen := 0xFFFFFF } : State).inLen.toNat := by decide
/-- MatchLengthIsTheLongestAgreement: at MF-12's position, d = 3 agrees for 2 bytes, below both bounds. -/
theorem witness_MatchLength :
    matchLen { enc1Search with inMem := Memory.writeBytes [] 0 [0x78, 0x79, 0x7A, 0x78, 0x79, 0x7A, 0x78],
                               enc := { n := 7, nb := 12, var := 2, w := 4096, maxrun := 18, p := 3 } } 3 2 = 0 := by decide

/-! Running states of the invariant -/

theorem p1Start_inv : Inv p1Start :=
  ⟨by decide, by decide, by decide, by decide,
    ⟨by decide, by decide, by decide, by decide, by decide, by decide, by decide, by decide, by decide⟩⟩
theorem p1Copy_inv : Inv p1Copy :=
  ⟨by decide, by decide, by decide, by decide,
    ⟨by decide, by decide, by decide, by decide, by decide, by decide, by decide, by decide, by decide⟩,
    ⟨by decide, by decide, by decide, by decide⟩⟩
theorem enc1Search_inv : Inv enc1Search :=
  ⟨by decide, by decide, by decide, by decide,
    ⟨by decide, by decide, by decide, by decide, by decide, by decide, by decide, by decide, by decide, by decide, by decide,
      by decide⟩, by decide⟩
theorem encMatchSearch_inv : Inv encMatchSearch :=
  ⟨by decide, by decide, by decide, by decide,
    ⟨by decide, by decide, by decide, by decide, by decide, by decide, by decide, by decide, by decide, by decide, by decide,
      by decide⟩, by decide⟩
theorem enc1Asm_inv : Inv enc1Asm :=
  ⟨by decide, by decide, by decide, by decide,
    ⟨by decide, by decide, by decide, by decide, by decide, by decide, by decide, by decide, by decide, by decide, by decide,
      by decide⟩, by decide⟩

/-- StepKeepsTheInvariant and EngineNeverStops: states of the invariant in running phases, with their steps. -/
theorem witness_StepKeeps :
    (∃ t, Inv p1Start ∧ p1Start.inbox = [] ∧ step p1Start = .next t) ∧
    (∃ t, Inv p1Copy ∧ p1Copy.inbox = [] ∧ step p1Copy = .next t) := ⟨⟨_, p1Start_inv, rfl, rfl⟩, ⟨_, p1Copy_inv, rfl, rfl⟩⟩
/-- DecodeTerminates. -/
theorem witness_DecodeTerminates : Inv p1Start ∧ p1Start.inbox = [] ∧ p1Start.ph = .decRun := ⟨p1Start_inv, rfl, rfl⟩
/-- SearchStepEmitsItsOperation, with a Literal chosen and with a Match chosen. -/
theorem witness_SearchStep :
    (Inv enc1Search ∧ enc1Search.ph = .encSearch ∧ enc1Search.inbox = [] ∧
      matchFind enc1Search enc1Search.enc.p = .literal 0x41) ∧
    (Inv encMatchSearch ∧ encMatchSearch.ph = .encSearch ∧ encMatchSearch.inbox = [] ∧
      matchFind encMatchSearch encMatchSearch.enc.p = .mat 1 3) :=
  ⟨⟨enc1Search_inv, rfl, rfl, by decide⟩, encMatchSearch_inv, rfl, rfl, by decide⟩
/-- AssemblyWritesTheContainer, ContainerSizeIsBounded and EncodeTerminates. -/
theorem witness_Assembly : Inv enc1Asm ∧ enc1Asm.ph = .encAsm ∧ enc1Asm.inbox = [] := ⟨enc1Asm_inv, rfl, rfl⟩
/-- ContainerSectionsStandAtTheirOffsets. -/
theorem witness_ContainerSections : variantLegal enc1Asm.enc.var.toNat = true := by decide
/-- EncodeRunsAsTheReference. -/
theorem witness_EncodeRuns : ∃ s0, (atRest [0x41]).inbox = [] ∧ exec (.encode 2 10) (atRest [0x41]) = .next s0 := ⟨_, rfl, rfl⟩
/-- ListingDecodesToItsOutput: P1's listing, with SIZE at what its operations reach. -/
theorem witness_Listing :
    nbitsLegal (12 : BitVec 8).toNat = true ∧ variantLegal (2 : BitVec 8).toNat = true ∧
    Reference.Listing.reaches 12 [] [.literal 0x41, .literal 0x42, .mat 2 5] = true ∧
    7 ≤ (Reference.expand [] [.literal 0x41, .literal 0x42, .mat 2 5]).length ∧ 7 ≤ 0xFFFFFF ∧
    Reference.Listing.container { size := 7, variant := 2, nbits := 12, ops := [.literal 0x41, .literal 0x42, .mat 2 5] } =
      .ok p1 := ⟨by decide, by decide, by decide, by decide, by decide, rfl⟩
/-- ReferenceRoundTrip: ENC-1. -/
theorem witness_ReferenceRoundTrip : ∃ c, Reference.encodeStream 10 2 [0x41] = .ok c := ⟨_, rfl⟩

/-- DecodeAfterEncodeReturnsTheInput: ENC-1's run, and a state whose IN holds its container. -/
theorem witness_DecodeAfterEncode :
    ∃ s0 t u0, (atRest [0x41]).inbox = [] ∧ exec (.encode 2 10) (atRest [0x41]) = .next s0 ∧ runSteps 3 s0 = .next t ∧
      t.status.done = true ∧
      ({ State.reset with inMem := t.outMem, inLen := t.outLen } : State).inbox = [] ∧
      (∀ a, a < t.outLen.toNat → ({ State.reset with inMem := t.outMem, inLen := t.outLen } : State).inByte a = t.outByte a) ∧
      exec (.decode 0 0) { State.reset with inMem := t.outMem, inLen := t.outLen } = .next u0 :=
  ⟨_, _, _, rfl, rfl, rfl, by decide, rfl, by decide, rfl⟩

/-! The host's side -/

theorem witness_IoError : ∃ t, p1Start.status.errcode ≠ 5 ∧ step p1Start = .next t := ⟨_, by decide, rfl⟩
/-- StatusIsBlankOnlyBeforeTheFirstCommand, both alternatives: a blank machine that waits, and a reset of a running one. -/
theorem witness_StatusIsBlank :
    (∃ t, step (atRest []) = .next t ∧ t.status.busy = false ∧ t.status.done = false ∧ t.status.error = false) ∧
    (∃ t, step { p1Start with inbox := [.reset] } = .next t ∧ t.status.busy = false ∧ t.status.done = false ∧
      t.status.error = false) := ⟨⟨_, rfl, rfl, rfl, rfl⟩, ⟨_, rfl, rfl, rfl, rfl⟩⟩
theorem witness_StepRunsTheStartedCommand :
    ({ atRest p1 with inbox := [.writeReg 0 0x80000001] } : State).inbox = [.writeReg (atRest p1).params.regBase 0x80000001] ∧
    decodeCtrl 0x80000001 = .ok (.decode 0 0) := by decide
/-- ReservedOpRaisesBadOp, both reserved values of OP. -/
theorem witness_ReservedOp :
    (atRest p1).status.busy = false ∧ (0x80000000 : Word) &&& 0x80000003 = 0x80000000 ∧
    (0x80000003 : Word) &&& 0x80000003 = 0x80000003 := by decide
/-- CtrlReadsBackItsFields. -/
theorem witness_CtrlReadsBack : (atRest p1).status.busy = false ∧ (0x7FFFFFFF : Word).getLsbD 31 = false := by decide
/-- LengthRegistersReadBack and HostDutiesWhileBusy: an idle and a running machine. -/
theorem witness_BusyAndIdle :
    (atRest p1).status.busy = false ∧ p1Start.status.busy = true ∧ p1Start.olen < 2 ^ 32 := by decide
/-- HostMemoryReadsAndWrites, at the last address of IN and of OUT. -/
theorem witness_HostMemory :
    (atRest p1).status.busy = false ∧ 4294967294 < (atRest p1).params.maxInLen ∧ 6 < (withOutCap 7 (atRest p1)).params.outCap := by
  decide
/-- LaunchNeedsRoomForTheResult, both clauses one byte short. -/
theorem witness_LaunchNeedsRoom :
    declaredSize (withOutCap 6 (atRest p1)) = some 7 ∧ (withOutCap 6 (atRest p1)).params.outCap < 7 ∧
    (withOutCap 30 (atRest [0x41])).params.outCap < 16 + 4 * (ceilDiv (atRest [0x41]).inLen.toNat 31 + 1) +
      (atRest [0x41]).inLen.toNat + 6 ∧
    (atRest [0x41]).inLen.toNat ≤ (withOutCap 30 (atRest [0x41])).params.maxInLen := by decide
/-- OnlyStartLeavesIdle, both clauses. -/
theorem witness_OnlyStart :
    (atRest p1).ph = .idle ∧ (atRest p1).inbox = [] ∧
    ∃ t, step { atRest p1 with inbox := [.writeReg 0 0x80000001] } = .next t ∧ t.ph ≠ .idle :=
  ⟨rfl, rfl, _, rfl, by decide⟩
theorem witness_InputIsFixed :
    ∃ t, p1Start.status.busy = true ∧ p1Start.inbox.head? ≠ some .reset ∧ step p1Start = .next t := ⟨_, rfl, by decide, rfl⟩
theorem witness_ResetEvent : ({ p1Start with inbox := [.reset] } : State).inbox = .reset :: [] := by decide

end Sys2Proof.Tests
end

namespace Sys2Proof.Machine

/-! The proofs about the block's state (10_state.md). First what a host action can do and that every step keeps the invariant; then
CTRL words, the decoder's cursors and output, launches, STATUS and the register file. -/

/-! ## What a host action can do -/

/-- What a host action that gives a next state makes of s: one constructor per effect (R22 to R25, R250 to R252). Every effect on
the machine but a reset needs BUSY = 0 (R256). -/
inductive HostEffect (act : HostAct) (s : State) : State → Prop
  | busData (d : Word) : HostEffect act s { s with busData := d }
  | inLen (w : Word) (idle : s.status.busy = false) : HostEffect act s { s with inLen := w }
  | writeIn (a : Nat) (b : Byte) (idle : s.status.busy = false) :
      HostEffect act s { s with inMem := Memory.write s.inMem a b }
  | writeOut (a : Nat) (b : Byte) (idle : s.status.busy = false) :
      HostEffect act s { s with outMem := Memory.write s.outMem a b }
  | storeFields (w : Word) (idle : s.status.busy = false) :
      HostEffect act s (storeCtrl (ctrlOp w) (ctrlNbits w) (ctrlVariant w) s)
  | badOp (w : Word) (idle : s.status.busy = false) : HostEffect act s (startBadOp w s)
  | decode (variant nbits : BitVec 8) (idle : s.status.busy = false)
      (fits : decodeFits (storeCtrl 1 nbits variant s) = true) :
      HostEffect act s { beginCommand (storeCtrl 1 nbits variant s) with ph := .decHdr, hdrNext := .sig }
  | encode (variant nbits : BitVec 8) (idle : s.status.busy = false)
      (fits : encodeFits (storeCtrl 2 nbits variant s) = true) :
      HostEffect act s { beginCommand (storeCtrl 2 nbits variant s) with ph := .encCheck, hdrNext := .sig }
  | reset (h : act = .reset) : HostEffect act s (resetEvent s)

/-- A CTRL word that is an instruction launches its command. -/
theorem exec_ctrl_effect {act : HostAct} {w : Word} {i : Instr} {s t : State} (hd : decodeCtrl w = .ok i)
    (h : exec i s = .next t) : HostEffect act s t := by
  rcases decodeCtrl_eq_ok hd with rfl | rfl
  · obtain ⟨hb, -, hf, rfl⟩ := launch_eq_next h
    exact .decode _ _ hb hf
  · obtain ⟨hb, -, hf, rfl⟩ := launch_eq_next h
    exact .encode _ _ hb hf

/-- Everything a host write to CTRL can answer (R23). -/
theorem writeCtrl_effect {act : HostAct} {w : Word} {s t : State} (h : writeCtrl w s = .next t) : HostEffect act s t := by
  unfold writeCtrl at h
  split at h
  · rename_i i hd
    exact exec_ctrl_effect hd h
  · split_ifs at h with hb hr <;> cases h
    · exact .badOp w (by simpa using hb)
    · exact .storeFields w (by simpa using hb)

/-- Everything a host write to a register can answer (R22). -/
theorem writeReg_effect {act : HostAct} {addr : Nat} {w : Word} {s t : State} (h : writeReg addr w s = .next t) :
    HostEffect act s t := by
  unfold writeReg at h
  split at h
  · exact writeCtrl_effect h
  · unfold writeInLen at h
    split_ifs at h with hb
    cases h
    exact .inLen w (by simpa using hb)
  · cases h
    exact .busData s.busData

/-- Everything a host action can answer. -/
theorem hostStep_effect {act : HostAct} {s t : State} (h : hostStep act s = .next t) : HostEffect act s t := by
  cases act with
  | wait => cases h; exact .busData s.busData
  | readReg addr => cases h; exact .busData _
  | writeReg addr w => exact writeReg_effect h
  | writeIn a b =>
    simp only [hostStep, hostWriteIn] at h
    split_ifs at h with hb
    cases h
    exact .writeIn a b (by simpa using hb)
  | readOut a =>
    simp only [hostStep, hostReadOut] at h
    split_ifs at h
    cases h
    exact .busData _
  | writeOut a b =>
    simp only [hostStep, hostWriteOut] at h
    split_ifs at h with hb
    cases h
    exact .writeOut a b (by simpa using hb)
  | reset => cases h; exact .reset rfl

/-! ## STATUS -/

/-- Every STATUS that error entry writes is legal (R220, R224). -/
theorem statusLegal_statusError {e : Err} (h : e ≠ .ioError) : statusLegal (statusError e) = true := by
  cases e with
  | ioError => exact absurd rfl h
  | configError reason => cases reason <;> decide
  | _ => decide

theorem statusLegal_statusBusy : statusLegal statusBusy = true := by decide

theorem statusLegal_statusDone : statusLegal statusDone = true := by decide

/-- The invariant of a block that runs no command: its phase asks nothing. -/
theorem Inv.of_idle {s : State} (hin : Memory.wf s.inMem = true) (hout : Memory.wf s.outMem = true)
    (hst : statusLegal s.status = true) (hb : s.status.busy = false) (hp : s.ph = .idle) : Inv s where
  inWf := hin
  outWf := hout
  status := hst
  busy := by simp [hb, hp]
  phase := by simp [PhaseInv, hp]

/-- Error entry leads into the invariant from any state whose IN is canonical (R228). -/
theorem inv_raiseError {s : State} {e : Err} (he : e ≠ .ioError) (hin : Memory.wf s.inMem = true) :
    Inv (raiseError e s) :=
  .of_idle hin rfl (statusLegal_statusError he) rfl rfl

/-- A step that leaves IN and STATUS as they were, and enters or stays in a running phase, keeps the invariant where that phase's
own holds. -/
theorem Inv.running {s t : State} (h : Inv s) (hs : s.ph ≠ .idle) (hin : t.inMem = s.inMem)
    (hout : Memory.wf t.outMem = true) (hst : t.status = s.status) (ht : t.ph ≠ .idle) (hp : PhaseInv t) : Inv t where
  inWf := hin ▸ h.inWf
  outWf := hout
  status := hst ▸ h.status
  busy := by simp [hst, h.busy, hs, ht]
  phase := hp

/-- With BUSY = 0 the block is idle (R24). -/
theorem Inv.idle {s : State} (h : Inv s) (hb : s.status.busy = false) : s.ph = .idle := by
  simpa [hb] using h.busy

/-- The host's own fields are no part of the invariant. -/
theorem Inv.hostFields {s : State} (h : Inv s) (inbox : List HostAct) (busData : Word) :
    Inv { s with inbox := inbox, busData := busData } where
  inWf := h.inWf
  outWf := h.outWf
  status := h.status
  busy := h.busy
  phase := by
    have hp := h.phase
    unfold PhaseInv at hp ⊢
    dsimp only
    split at hp
    · trivial
    · exact { hp with }
    · exact { hp with }
    · exact ⟨{ hp.1 with }, { hp.2 with }⟩
    · exact hp
    · exact ⟨{ hp.1 with }, hp.2⟩
    · exact ⟨{ hp.1 with }, hp.2⟩

/-! ## Host actions keep the invariant -/

/-- DEC_HDR before its first field asks only for OLEN = 0 and the room that the launch tested. -/
theorem HdrInv.of_sig {s : State} (hn : s.hdrNext = .sig) (ho : s.olen = 0) (hf : decodeFits s = true) : HdrInv s := by
  constructor <;> simp [hn, ho, hf, HdrField.rank]

/-- Every host action keeps the invariant. -/
theorem Inv.host {act : HostAct} {s t : State} (h : Inv s) (ht : HostEffect act s t) : Inv t := by
  cases ht with
  | busData d => exact h.hostFields s.inbox d
  | inLen w hb => exact .of_idle h.inWf h.outWf h.status hb (h.idle hb)
  | writeIn a b hb => exact .of_idle (Memory.wf_write a b h.inWf) h.outWf h.status hb (h.idle hb)
  | writeOut a b hb => exact .of_idle h.inWf (Memory.wf_write a b h.outWf) h.status hb (h.idle hb)
  | storeFields w hb => exact .of_idle h.inWf h.outWf h.status hb (h.idle hb)
  | badOp w hb => exact inv_raiseError (by decide) h.inWf
  | decode variant nbits hb fits =>
    exact ⟨h.inWf, h.outWf, statusLegal_statusBusy, by simp [statusBusy], HdrInv.of_sig rfl rfl fits⟩
  | encode variant nbits hb fits => exact ⟨h.inWf, h.outWf, statusLegal_statusBusy, by simp [statusBusy], fits⟩
  | reset hr => exact .of_idle h.inWf rfl rfl rfl rfl

/-! ## The running decoder -/

/-- The loop test keeps the invariant where a command that runs on meets DEC_RUN's (R140). -/
theorem inv_loopTest {s : State} (hin : Memory.wf s.inMem = true) (hout : Memory.wf s.outMem = true)
    (hst : statusLegal s.status = true) (hb : s.status.busy = true) (hr : s.olen < s.hdr.size.toNat → RunInv s) :
    Inv (loopTest s) := by
  by_cases h : s.olen < s.hdr.size.toNat
  · rw [loopTest_runs h]
    exact ⟨hin, hout, hst, by simp [hb], { hr h with }⟩
  · rw [loopTest_finishes h]
    exact .of_idle hin hout statusLegal_statusDone rfl rfl

/-- FLAG_NEXT leaves at most a word's flags in the queue, less the one it returned (R30, R120). -/
theorem flagNext_queue {s t : State} {f : Bool} (hv : variantLegal s.hdr.var.toNat = true)
    (hq : s.fq.count ≤ flagsPerWord s.hdr.var) (h : flagNext s = some (f, t)) :
    t.fq.count ≤ flagsPerWord s.hdr.var := by
  rcases flagNext_eq_some.1 h with ⟨-, h⟩ | ⟨-, -, h⟩ <;> obtain ⟨-, rfl⟩ := Prod.ext_iff.1 h
  · exact (Nat.sub_le _ _).trans hq
  · have hle : (refillQueue s.hdr.var (BitVec.ofNat 32 (leNat (inBytes s s.cur.fc 4)))).count ≤ flagsPerWord s.hdr.var := by
      rw [refillQueue_count]
      rcases variantLegal_iff.1 hv with h0 | h2
      · simp [BitVec.eq_of_toNat_eq (y := (0 : BitVec 8)) h0, flagsPerWord]
      · simp [BitVec.eq_of_toNat_eq (y := (2 : BitVec 8)) h2, flagsPerWord]
    exact (Nat.sub_le _ _).trans hle

theorem runInv_flagNext {s t : State} {f : Bool} (h : RunInv s) (hf : flagNext s = some (f, t)) : RunInv t := by
  have hq := flagNext_queue h.variant h.queue hf
  obtain ⟨ht, hfc⟩ := flagNext_frame hf
  have := h.fc
  rw [ht]
  exact { h with queue := hq, fc := by dsimp only; omega }

theorem runInv_advanceLc {s : State} (h : RunInv s) (hl : s.cur.lc + 1 ≤ s.inLen.toNat) : RunInv (advanceLc s) :=
  { h with lc := by simp only [advanceLc_cur, advanceLc_hdr, advanceLc_inLen]; omega }

theorem runInv_advanceMc {s : State} (h : RunInv s) (hm : s.cur.mc + 2 ≤ s.inLen.toNat) : RunInv (advanceMc s) :=
  { h with mc := by simp only [advanceMc_cur, advanceMc_hdr, advanceMc_inLen]; omega }

/-- An append keeps the invariant while the output stays unfinished: the new byte has been written (R31). -/
theorem runInv_pushByte {s : State} (h : RunInv s) (b : Byte) (hs : s.olen + 1 < s.hdr.size.toNat) :
    RunInv (pushByte b s) :=
  { h with
    unfinished := hs
    written := fun a ha => by
      rw [pushByte_outMem, Memory.read_write]
      split_ifs with he
      · simp
      · exact h.written a (by simp only [pushByte_olen] at ha; omega) }

/-- An append and the loop test after it keep the invariant. -/
theorem inv_append {s : State} (h : Inv s) (hb : s.status.busy = true) (hr : RunInv s) (b : Byte) :
    Inv (loopTest (pushByte b s)) :=
  inv_loopTest h.inWf (pushByte_wf b h.outWf) h.status hb fun hs => runInv_pushByte hr b hs

/-! ## DEC_RUN and DEC_COPY keep the invariant -/

theorem Inv.decRun {s : State} (h : Inv s) (hp : s.ph = .decRun) : RunInv s := by
  simpa [PhaseInv, hp] using h.phase

/-- A change inside DEC_RUN that leaves IN, OUT and STATUS as they were keeps the invariant where DEC_RUN's own holds. -/
theorem Inv.withinDecRun {s t : State} (h : Inv s) (hp : s.ph = .decRun) (hin : t.inMem = s.inMem)
    (hout : t.outMem = s.outMem) (hst : t.status = s.status) (ht : t.ph = .decRun) (hr : RunInv t) : Inv t :=
  h.running (by simp [hp]) hin (hout ▸ h.outWf) hst (by simp [ht]) (by simpa [PhaseInv, ht] using hr)

/-- FLAG_NEXT keeps the machine in DEC_RUN's invariant. -/
theorem inv_flagNext {s t : State} {f : Bool} (h : Inv s) (hp : s.ph = .decRun) (hr : RunInv s)
    (hf : flagNext s = some (f, t)) : Inv t ∧ t.ph = .decRun ∧ RunInv t := by
  have hrt := runInv_flagNext hr hf
  obtain ⟨ht, -⟩ := flagNext_frame hf
  have hpt : t.ph = .decRun := by rw [ht]; exact hp
  exact ⟨h.withinDecRun hp (by rw [ht]) (by rw [ht]) (by rw [ht]) hpt hrt, hpt, hrt⟩

/-- A loaded copy that refers inside the output meets DEC_COPY's invariant (R149). -/
theorem inv_loadCopy {jump run : Nat} {s : State} (h : Inv s) (hs : s.ph ≠ .idle) (hr : RunInv s) (hj : 1 ≤ jump)
    (hrun : 1 ≤ run) (hin : jump ≤ s.olen) : Inv (loadCopy jump run s) :=
  h.running hs rfl h.outWf rfl (by simp)
    ⟨{ hr with }, { more := hrun, jumpPos := hj, jumpInside := hin, position := rfl }⟩

/-- Every step of DEC_RUN keeps the invariant (R146 to R151). -/
theorem inv_runStep {s t : State} (h : Inv s) (hp : s.ph = .decRun) (ht : runStep s = .next t) : Inv t := by
  have hr := h.decRun hp
  rcases runStep_cases hr.unfinished with ⟨-, h'⟩ | ⟨s1, f, hf, hc⟩
  · cases h'.symm.trans ht
    exact inv_raiseError (by decide) h.inWf
  obtain ⟨h1, hp1, hr1⟩ := inv_flagNext h hp hr hf
  obtain ⟨hs1, -⟩ := flagNext_frame hf
  obtain ⟨hmc, hlen, ho⟩ : s1.cur.mc = s.cur.mc ∧ s1.inLen = s.inLen ∧ s1.olen = s.olen := by rw [hs1]; exact ⟨rfl, rfl, rfl⟩
  have hrun1 : s1.ph ≠ .idle := by simp [hp1]
  rcases hc with ⟨-, -, h'⟩ | ⟨-, -, h'⟩ | ⟨-, -, h'⟩ | ⟨-, -, -, h'⟩ | ⟨-, hm, hj, h'⟩
  · cases h'.symm.trans ht
    exact inv_raiseError (by decide) h1.inWf
  · rcases afterOp_execLit_eq_next (h'.symm.trans ht) with ⟨-, rfl⟩ | ⟨hl, -, rfl⟩
    · exact inv_raiseError (by decide) h1.inWf
    · have ha := runInv_advanceLc hr1 hl
      rw [if_pos hp1]
      have hi : Inv (advanceLc s1) := h1.withinDecRun hp1 rfl rfl rfl hp1 ha
      exact inv_append hi (h1.busy.2 hrun1) ha _
  · cases h'.symm.trans ht
    exact inv_raiseError (by decide) h1.inWf
  · cases h'.symm.trans ht
    exact inv_raiseError (by decide) h1.inWf
  · cases h'.symm.trans ht
    have ha := runInv_advanceMc hr1 (by rw [hmc, hlen]; exact hm)
    have hi : Inv (advanceMc s1) := h1.withinDecRun hp1 rfl rfl rfl hp1 ha
    obtain ⟨hjump, hrun⟩ : 1 ≤ (tokenAt s).1 ∧ 3 ≤ (tokenAt s).2 := tokenDecode_pos _ _
    exact inv_loadCopy hi hrun1 ha hjump (by omega) (by rw [advanceMc_olen, ho]; exact hj)

/-- Every step of DEC_COPY keeps the invariant (R149, R150). -/
theorem inv_copyStep {s t : State} (h : Inv s) (hp : s.ph = .decCopy) (ht : copyStep s = .next t) : Inv t := by
  obtain ⟨hr, hc⟩ : RunInv s ∧ CopyInv s := by simpa [PhaseInv, hp] using h.phase
  have hb : s.status.busy = true := h.busy.2 (by simp [hp])
  have hnot : copyOver s = false := copyOver_eq_false.2 ⟨hc.more, hr.unfinished.ne⟩
  rcases copyStep_eq_next ht with ⟨ho, -⟩ | ⟨-, -, -, rfl⟩
  · simp [hnot] at ho
  set b := s.outByte (s.copy.cbase - s.copy.cjump + s.copy.cr)
  have hout : Memory.wf (countCopied (pushByte b s)).outMem = true := pushByte_wf b h.outWf
  cases ho : copyOver (countCopied (pushByte b s)) with
  | true =>
    rw [copyEnd_over ho]
    exact inv_loopTest h.inWf hout h.status hb fun hs => { runInv_pushByte hr b hs with }
  | false =>
    obtain ⟨hmore, hne⟩ := copyOver_eq_false.1 ho
    have hlt : s.olen + 1 < s.hdr.size.toNat := Nat.lt_of_le_of_ne hr.unfinished hne
    have hpos : s.olen + 1 = s.copy.cbase + (s.copy.cr + 1) := by rw [hc.position]; rfl
    have hphase : PhaseInv (countCopied (pushByte b s)) := by
      simp only [PhaseInv, countCopied_ph, pushByte_ph, hp]
      exact ⟨{ runInv_pushByte hr b hlt with }, { hc with more := hmore, position := hpos }⟩
    rw [copyEnd_more ho]
    exact h.running (by simp [hp]) rfl hout rfl (by simp [hp]) hphase

/-! ## DEC_HDR keeps the invariant -/

/-- A header read past IN_LEN raises; so the field's own rule has only a value that was read to answer for (R51). -/
theorem inv_hdrRead {s : State} {a n : Nat} {k : Nat → State} (h : Inv s)
    (hk : ∀ v, memRead s a n = some v → Inv (k v)) : Inv (hdrRead s a n k) := by
  unfold hdrRead
  split
  · exact inv_raiseError (by decide) h.inWf
  · rename_i v hv
    exact hk v hv

/-- A byte or a 3-byte field fits its register. -/
theorem memRead_toNat_ofNat {s : State} {a n v : Nat} (h : memRead s a n = some v) :
    memRead s a n = some (BitVec.ofNat (8 * n) v).toNat := by
  have hv := memRead_lt h
  rw [show (256 : Nat) = 2 ^ 8 from rfl, ← pow_mul] at hv
  rw [BitVec.toNat_ofNat, Nat.mod_eq_of_lt hv, h]

/-- What DEC_HDR has read and checked before its last field is what the admission test read (R58). -/
theorem HdrInv.declaredSize {s : State} {v : Nat} (h : HdrInv s) (hn : s.hdrNext = .moff) (hv : memRead s 12 4 = some v) :
    declaredSize s = some s.hdr.size.toNat := by
  have hrank : s.hdrNext.rank = 5 := by rw [hn]; rfl
  have hsig := h.sig (by omega)
  have hsize := h.size (by omega)
  obtain ⟨hvar, hvarLegal⟩ := h.variant (by omega)
  obtain ⟨hnb, hnbLegal⟩ := h.nbits (by omega)
  simp [Machine.declaredSize, hsig, hsize, hvar, hnb, hv, hvarLegal, hnbLegal]

/-- INIT_DECODE enters DEC_RUN's invariant, unless SIZE = 0 (R145, R155). -/
theorem HdrInv.initDecode {s : State} {v : Nat} (h : HdrInv s) (hn : s.hdrNext = .moff) (hv : memRead s 12 4 = some v)
    (moff : BitVec 24) (hs : 0 < s.hdr.size.toNat) : RunInv (initDecode { s with hdr := { s.hdr with moff := moff } }) where
  unfinished := hs
  fits := by simpa [decodeFits, h.declaredSize hn hv] using h.fits
  variant := (h.variant (by rw [hn]; decide)).2
  nbits := (h.nbits (by rw [hn]; decide)).2
  queue := Nat.zero_le _
  fc := Nat.le_max_left _ _
  lc := Nat.le_max_left _ _
  mc := Nat.le_max_left _ _
  written a ha := absurd ha (Nat.not_lt_zero a)

theorem Inv.decHdr {s : State} (h : Inv s) (hp : s.ph = .decHdr) : HdrInv s := by
  simpa [PhaseInv, hp] using h.phase

/-- DEC_HDR runs on to its next field with the header it has read so far. -/
theorem Inv.nextField {s : State} {next : HdrField} {hdr : Header} (h : Inv s) (hp : s.ph = .decHdr)
    (hh : HdrInv { s with hdr := hdr, hdrNext := next }) : Inv { s with hdr := hdr, hdrNext := next } := by
  have hrun : s.ph ≠ .idle := by simp [hp]
  exact h.running hrun rfl h.outWf rfl hrun (by simpa [PhaseInv, hp] using hh)

theorem inv_hdrSig {s : State} (h : Inv s) (hp : s.ph = .decHdr) : Inv (hdrSig s) := by
  have hh := h.decHdr hp
  refine inv_hdrRead h fun v hv => ?_
  split_ifs with hsig
  · subst hsig
    exact h.nextField hp ⟨hh.olen, hh.fits, fun _ => hv, by simp [HdrField.rank], by simp [HdrField.rank],
      by simp [HdrField.rank], by simp [HdrField.rank]⟩
  · exact inv_raiseError (by decide) h.inWf

theorem inv_hdrSize {s : State} (h : Inv s) (hp : s.ph = .decHdr) (hn : s.hdrNext = .size) : Inv (hdrSize s) := by
  have hh := h.decHdr hp
  have hsig := hh.sig (by rw [hn]; decide)
  refine inv_hdrRead h fun v hv => ?_
  exact h.nextField hp ⟨hh.olen, hh.fits, fun _ => hsig, fun _ => memRead_toNat_ofNat hv, by simp [HdrField.rank],
    by simp [HdrField.rank], by simp [HdrField.rank]⟩

theorem inv_hdrVariant {s : State} (h : Inv s) (hp : s.ph = .decHdr) (hn : s.hdrNext = .variant) :
    Inv (hdrVariant s) := by
  have hh := h.decHdr hp
  have hsig := hh.sig (by rw [hn]; decide)
  have hsize := hh.size (by rw [hn]; decide)
  refine inv_hdrRead h fun v hv => ?_
  have hv' := memRead_toNat_ofNat hv
  dsimp only
  split_ifs with hlegal
  · rw [Option.some.inj (hv.symm.trans hv')] at hlegal
    exact h.nextField hp ⟨hh.olen, hh.fits, fun _ => hsig, fun _ => hsize, fun _ => ⟨hv', hlegal⟩,
      by simp [HdrField.rank], by simp [HdrField.rank]⟩
  · exact inv_raiseError (by decide) h.inWf

theorem inv_hdrLoff {s : State} (h : Inv s) (hp : s.ph = .decHdr) (hn : s.hdrNext = .loff) : Inv (hdrLoff s) := by
  have hh := h.decHdr hp
  have hsig := hh.sig (by rw [hn]; decide)
  have hsize := hh.size (by rw [hn]; decide)
  have hvar := hh.variant (by rw [hn]; decide)
  refine inv_hdrRead h fun v hv => ?_
  exact h.nextField hp ⟨hh.olen, hh.fits, fun _ => hsig, fun _ => hsize, fun _ => hvar,
    fun _ => memRead_toNat_ofNat hv, by simp [HdrField.rank]⟩

theorem inv_hdrNbits {s : State} (h : Inv s) (hp : s.ph = .decHdr) (hn : s.hdrNext = .nbits) : Inv (hdrNbits s) := by
  have hh := h.decHdr hp
  have hsig := hh.sig (by rw [hn]; decide)
  have hsize := hh.size (by rw [hn]; decide)
  have hvar := hh.variant (by rw [hn]; decide)
  have hloff := hh.loff (by rw [hn]; decide)
  refine inv_hdrRead h fun v hv => ?_
  have hv' := memRead_toNat_ofNat hv
  dsimp only
  split_ifs with hlegal
  · rw [Option.some.inj (hv.symm.trans hv')] at hlegal
    exact h.nextField hp ⟨hh.olen, hh.fits, fun _ => hsig, fun _ => hsize, fun _ => hvar, fun _ => hloff,
      fun _ => ⟨hv', hlegal⟩⟩
  · exact inv_raiseError (by decide) h.inWf

theorem inv_hdrMoff {s : State} (h : Inv s) (hp : s.ph = .decHdr) (hn : s.hdrNext = .moff) : Inv (hdrMoff s) :=
  inv_hdrRead h fun _ hv =>
    inv_loopTest h.inWf h.outWf h.status (h.busy.2 (by simp [hp])) fun hs => (h.decHdr hp).initDecode hn hv _ hs

/-- Every step of DEC_HDR keeps the invariant (R141 to R145). -/
theorem inv_hdrStep {s : State} (h : Inv s) (hp : s.ph = .decHdr) : Inv (hdrStep s) := by
  unfold hdrStep
  cases hn : s.hdrNext with
  | sig => exact inv_hdrSig h hp
  | size => exact inv_hdrSize h hp hn
  | variant => exact inv_hdrVariant h hp hn
  | loff => exact inv_hdrLoff h hp hn
  | nbits => exact inv_hdrNbits h hp hn
  | moff => exact inv_hdrMoff h hp hn

/-! ## The encoder keeps the invariant -/

/-- The checks of R181 passed are ENC_SEARCH's invariant before its first operation. -/
theorem inv_encCheckStep {s : State} (h : Inv s) (hp : s.ph = .encCheck) : Inv (encCheckStep s) := by
  have hfits : encodeFits s = true := by simpa [PhaseInv, hp] using h.phase
  unfold encCheckStep
  dsimp only
  split_ifs with hnb hvar hempty hlarge
  · exact inv_raiseError (by decide) h.inWf
  · exact inv_raiseError (by decide) h.inWf
  · exact inv_raiseError (by decide) h.inWf
  · exact inv_raiseError (by decide) h.inWf
  simp only [Bool.not_eq_true, Bool.not_eq_false'] at hnb hvar
  have hpos : 0 < s.inLen.toNat := Nat.pos_of_ne_zero hempty
  have hroom : encodeBound s.inLen.toNat ≤ s.params.outCap := by
    simpa [encodeFits, hnb, hvar, hpos, Nat.not_lt.1 hlarge] using hfits
  refine h.running (by simp [hp]) rfl h.outWf rfl (by simp) ⟨?_, hpos⟩
  exact {
    nbits := hnb, variant := hvar, input := rfl, nonempty := hpos, notTooLarge := Nat.not_lt.1 hlarge, window := rfl,
    maxrun := rfl, fits := hroom, inside := Nat.zero_le _,
    cells := by simp [Pools.nmatch], ops := by simp [Pools.nops, Pools.nlit, Pools.nmatch],
    covers := by simp [Pools.nlit, Pools.nmatch] }

/-- MATCH_FIND's best pair is the initial one or a distance of D(p) with its LEN (R183, R185). -/
theorem bestMatch_cases (s : State) (p : Nat) :
    bestMatch s p = (0, 0) ∨ ∃ d, 1 ≤ d ∧ d ≤ min s.enc.w p ∧ bestMatch s p = (d, matchLen s p d) := by
  unfold bestMatch
  refine List.foldlRecOn (motive := fun b => b = (0, 0) ∨ ∃ d, 1 ≤ d ∧ d ≤ min s.enc.w p ∧ b = (d, matchLen s p d))
    _ _ (.inl rfl) fun best hbest d hd => ?_
  obtain ⟨i, hi, rfl⟩ := List.mem_map.1 hd
  have hi' := List.mem_range.1 hi
  unfold better
  split_ifs
  · exact .inr ⟨i + 1, by omega, by omega, rfl⟩
  · exact hbest

theorem matchLen_le (s : State) (p d : Nat) : matchLen s p d ≤ min s.enc.maxrun (s.enc.n - p) := by
  obtain ⟨-, h, -⟩ := lenFrom_spec s p d (min s.enc.maxrun (s.enc.n - p)) 0
  rwa [Nat.zero_add] at h

/-- A Match that MATCH_FIND answers is a distance of D(p) with its LEN, at least MINRUN (R185). -/
theorem matchFind_eq_mat {s : State} {p jump run : Nat} (h : matchFind s p = .mat jump run) :
    1 ≤ jump ∧ jump ≤ min s.enc.w p ∧ minRun ≤ run ∧ run = matchLen s p jump := by
  unfold matchFind at h
  split_ifs at h with hr
  obtain ⟨rfl, rfl⟩ := Op.mat.inj h
  rcases bestMatch_cases s p with h0 | ⟨d, h1, hd, hb⟩
  · simp [h0, minRun] at hr
  · rw [hb] at hr ⊢
    exact ⟨h1, hd, hr, rfl⟩

/-- One search step's operation keeps the pools whole and covering what EN_P passed (R186 to R189). -/
theorem EncInv.emit {s t : State} (h : EncInv s) (hp : s.enc.p < s.enc.n) (ht : emitOp (matchFind s s.enc.p) s = some t) :
    EncInv (advanceP (opSpan (matchFind s s.enc.p)) t) := by
  have hcells := h.cells
  have hops := h.ops
  have hcovers := h.covers
  simp only [Pools.nops, Pools.nlit, Pools.nmatch] at hcells hops hcovers
  cases hm : matchFind s s.enc.p with
  | literal b =>
    rw [hm] at ht
    cases ht
    exact { h with
      inside := hp
      ops := by simp [Pools.nops, Pools.nlit, Pools.nmatch]; omega
      covers := by simp [Pools.nlit, Pools.nmatch, opSpan]; omega }
  | mat jump run =>
    rw [hm] at ht
    obtain ⟨cell, -, rfl⟩ := Option.map_eq_some_iff.1 ht
    obtain ⟨-, -, hmin, hlen⟩ := matchFind_eq_mat hm
    have hle := matchLen_le s s.enc.p jump
    have hrun : 3 ≤ run := hmin
    exact { h with
      inside := by simp [opSpan]; omega
      cells := by simp [Pools.nmatch]; omega
      ops := by simp [Pools.nops, Pools.nlit, Pools.nmatch]; omega
      covers := by simp [Pools.nlit, Pools.nmatch, opSpan]; omega }

/-- The loop test of ENC_SEARCH leads on where the input is not covered, and to ENC_ASM where it is (R186). -/
theorem inv_searchTest {s t : State} (h : Inv s) (hs : s.ph = .encSearch) (hin : t.inMem = s.inMem)
    (hout : t.outMem = s.outMem) (hst : t.status = s.status) (ht : t.ph = .encSearch) (he : EncInv t) :
    Inv (searchTest t) := by
  have hrun : s.ph ≠ .idle := by simp [hs]
  by_cases hp : t.enc.p < t.enc.n
  · rw [searchTest_more hp]
    exact h.running hrun hin (hout ▸ h.outWf) hst (by simp [ht]) (by simpa [PhaseInv, ht] using ⟨he, hp⟩)
  · rw [searchTest_over hp]
    exact h.running hrun hin (hout ▸ h.outWf) hst (by simp) ⟨{ he with }, Nat.le_antisymm he.inside (Nat.not_lt.1 hp)⟩

/-- EMIT leaves memory, STATUS and the phase as they were. -/
theorem emitOp_frame {op : Op} {s t : State} (h : emitOp op s = some t) : t = { s with pools := t.pools } := by
  cases op with
  | literal b => cases h; rfl
  | mat jump run =>
    obtain ⟨cell, -, rfl⟩ := Option.map_eq_some_iff.1 h
    rfl

/-- Every step of ENC_SEARCH keeps the invariant (R186). -/
theorem inv_searchStep {s t : State} (h : Inv s) (hp : s.ph = .encSearch) (ht : searchStep s = .next t) : Inv t := by
  obtain ⟨he, hlt⟩ : EncInv s ∧ s.enc.p < s.enc.n := by simpa [PhaseInv, hp] using h.phase
  unfold searchStep at ht
  rw [if_pos hlt] at ht
  split at ht
  · cases ht
  · rename_i u hu
    cases ht
    have hframe := emitOp_frame hu
    refine inv_searchTest h hp ?_ ?_ ?_ ?_ (he.emit hlt hu) <;> rw [hframe]
    exacts [rfl, rfl, rfl, hp]

/-- Everything the step of ENC_ASM can answer (R191, R193). -/
theorem asmStep_eq_next {s t : State} (h : asmStep s = .next t) :
    t = raiseError (.configError .offsetOverflow) s ∨ t = finishEncode (container s).length (writeOut (container s) s) := by
  unfold asmStep at h
  split_ifs at h
  · cases h; exact .inl rfl
  · split at h
    · cases h
    · rename_i u hu
      obtain ⟨-, rfl⟩ := outWriteAll_eq_some.1 hu
      rw [Host.Outcome.next.injEq] at h
      exact .inr h.symm

theorem inv_finishEncode {s : State} (total : Nat) (hin : Memory.wf s.inMem = true) (hout : Memory.wf s.outMem = true) :
    Inv (finishEncode total s) :=
  .of_idle hin hout statusLegal_statusDone rfl rfl

/-- The step of ENC_ASM ends the command, so it keeps the invariant. -/
theorem inv_asmStep {s t : State} (h : Inv s) (ht : asmStep s = .next t) : Inv t := by
  rcases asmStep_eq_next ht with rfl | rfl
  · exact inv_raiseError (by decide) h.inWf
  · have hout := writeOut_wf (container s) h.outWf
    exact inv_finishEncode _ h.inWf hout

/-! ## Every step keeps the invariant -/

theorem inv_engineStep {s t : State} (h : Inv s) (ht : engineStep s = .next t) : Inv t := by
  cases hp : s.ph with
  | idle => rw [engineStep_idle hp] at ht; cases ht; exact h
  | decHdr => rw [engineStep_decHdr hp] at ht; cases ht; exact inv_hdrStep h hp
  | decRun => rw [engineStep_decRun hp] at ht; exact inv_runStep h hp ht
  | decCopy => rw [engineStep_decCopy hp] at ht; exact inv_copyStep h hp ht
  | encCheck => rw [engineStep_encCheck hp] at ht; cases ht; exact inv_encCheckStep h hp
  | encSearch => rw [engineStep_encSearch hp] at ht; exact inv_searchStep h hp ht
  | encAsm => rw [engineStep_encAsm hp] at ht; exact inv_asmStep h ht

/-- Settles O58: the host's actions and the engine's phases each keep the invariant. -/
theorem stepKeepsTheInvariant : Obligations.StepKeepsTheInvariant := by
  intro s t h ht
  rcases step_cases s with ⟨-, hs⟩ | ⟨rest, -, hs⟩ | ⟨act, rest, -, -, hs⟩ <;> rw [hs] at ht
  · exact inv_engineStep h ht
  · exact inv_engineStep (h.hostFields rest s.busData) ht
  · exact (h.hostFields rest s.busData).host (hostStep_effect ht)

/-! ## CTRL words -/

/-- The operands of a command are its VARIANT and NBITS fields, as numbers (R23). -/
theorem ctrlOperands_iff (w : Word) (v n : BitVec 8) :
    (ctrlVariant w = v ∧ ctrlNbits w = n) ↔ v.toNat = w.toNat / 2 ^ 16 % 256 ∧ n.toNat = w.toNat / 2 ^ 8 % 256 := by
  rw [← ctrlVariant_toNat, ← ctrlNbits_toNat, BitVec.toNat_inj, BitVec.toNat_inj, eq_comm, @eq_comm _ n]

theorem decodeCtrl_eq_decode {w : Word} {v n : BitVec 8} :
    decodeCtrl w = .ok (.decode v n) ↔ (ctrlStart w = true ∧ ctrlOp w = 1) ∧ ctrlVariant w = v ∧ ctrlNbits w = n := by
  unfold decodeCtrl
  split_ifs with hs h1 h2
  · simp [hs, h1]
  · exact iff_of_false (by simp) fun h => h1 h.1.2
  · exact iff_of_false (by simp) fun h => h1 h.1.2
  · exact iff_of_false (by simp) fun h => hs h.1.1

theorem decodeCtrl_eq_encode {w : Word} {v n : BitVec 8} :
    decodeCtrl w = .ok (.encode v n) ↔ (ctrlStart w = true ∧ ctrlOp w = 2) ∧ ctrlVariant w = v ∧ ctrlNbits w = n := by
  unfold decodeCtrl
  split_ifs with hs h1 h2
  · exact iff_of_false (by simp) fun h => absurd (h1.symm.trans h.1.2) (by decide)
  · simp [hs, h2]
  · exact iff_of_false (by simp) fun h => h2 h.1.2
  · exact iff_of_false (by simp) fun h => hs h.1.1

/-- The mask 0x80FFFF03 keeps START, VARIANT, NBITS and OP, which is all that selects a command (V2). -/
theorem decodeCtrl_mask (w : Word) : decodeCtrl (w &&& 0x80FFFF03) = decodeCtrl w := by
  have hs : ctrlStart (w &&& 0x80FFFF03) = ctrlStart w := by simp [ctrlStart]
  have ho : ctrlOp (w &&& 0x80FFFF03) = ctrlOp w := by
    ext i hi
    interval_cases i <;> simp [ctrlOp]
  have hv : ctrlVariant (w &&& 0x80FFFF03) = ctrlVariant w := by
    ext i hi
    interval_cases i <;> simp [ctrlVariant]
  have hn : ctrlNbits (w &&& 0x80FFFF03) = ctrlNbits w := by
    ext i hi
    interval_cases i <;> simp [ctrlNbits]
  simp only [decodeCtrl, hs, ho, hv, hn]

/-- Settles O3: the mask that selects a command, its operands as numbers, and the mask of the bits that count. -/
theorem ctrlWordSelectsCommand : Obligations.CtrlWordSelectsCommand := by
  intro w v n
  refine ⟨?_, ?_, (decodeCtrl_mask w).symm⟩
  · rw [decodeCtrl_eq_decode, ctrlSelects_iff, ctrlOperands_iff]
    exact Iff.rfl
  · rw [decodeCtrl_eq_encode, ctrlSelects_iff, ctrlOperands_iff]
    exact Iff.rfl

/-! ## The decoder's cursors and its output -/

theorem runStep_finishes {s : State} (h : ¬s.olen < s.hdr.size.toNat) : runStep s = .next (finishDecode s) := if_neg h

/-- Everything an operation can make of the cursors: FLAG_NEXT moved FC by a word or not, and then one operand was taken or
none (R120, R147, R148). -/
theorem runStep_cur {s t : State} (h : runStep s = .next t) :
    ∃ fc, (fc = s.cur.fc ∨ fc = s.cur.fc + 4) ∧
      (t.cur = { s.cur with fc := fc } ∨ t.cur = { s.cur with fc := fc, lc := s.cur.lc + 1 } ∨
        t.cur = { s.cur with fc := fc, mc := s.cur.mc + 2 }) := by
  by_cases ho : s.olen < s.hdr.size.toNat
  · rcases runStep_cases ho with ⟨-, h'⟩ | ⟨s1, f, hf, hc⟩
    · cases h'.symm.trans h
      exact ⟨_, .inl rfl, .inl rfl⟩
    obtain ⟨hs1, hfc⟩ := flagNext_frame hf
    have hcur : s1.cur = { s.cur with fc := s1.cur.fc } := by rw [hs1]
    refine ⟨s1.cur.fc, hfc.imp_right And.left, ?_⟩
    rcases hc with ⟨-, -, h'⟩ | ⟨-, -, h'⟩ | ⟨-, -, h'⟩ | ⟨-, -, -, h'⟩ | ⟨-, -, -, h'⟩
    · cases h'.symm.trans h
      exact .inl hcur
    · rcases afterOp_execLit_eq_next (h'.symm.trans h) with ⟨-, rfl⟩ | ⟨-, -, rfl⟩
      · exact .inl hcur
      · refine .inr (.inl ?_)
        split_ifs <;> simp only [loopTest_cur, pushByte_cur, advanceLc_cur] <;> rw [hcur]
    · cases h'.symm.trans h
      exact .inl hcur
    · cases h'.symm.trans h
      refine .inr (.inr ?_)
      simp only [raiseError_cur, loadCopy_cur, advanceMc_cur]
      rw [hcur]
    · cases h'.symm.trans h
      refine .inr (.inr ?_)
      simp only [loadCopy_cur, advanceMc_cur]
      rw [hcur]
  · cases (runStep_finishes ho).symm.trans h
    exact ⟨_, .inl rfl, .inl rfl⟩

/-- A copied byte moves no cursor (R149). -/
theorem copyStep_cur {s t : State} (h : copyStep s = .next t) : t.cur = s.cur := by
  rcases copyStep_eq_next h with ⟨-, rfl⟩ | ⟨-, -, -, rfl⟩ <;> simp

/-- Settles O21: a step of DEC_RUN moves the cursors as its one operation does, and a step of DEC_COPY moves none. -/
theorem cursorsMoveByTheirUnits : Obligations.CursorsMoveByTheirUnits := by
  intro s t hi hp h
  rw [step_engine hi] at h
  rcases hp with hp | hp
  · rw [engineStep_decRun hp] at h
    obtain ⟨fc, hfc, ht | ht | ht⟩ := runStep_cur h <;> simp [ht, hfc]
  · rw [engineStep_decCopy hp] at h
    simp [copyStep_cur h]

/-- t is s with at most one byte more: OUT is as it was but for OUT[OLEN], and that only where OLEN moved by 1 (R11, R31). -/
def Appends (s t : State) : Prop :=
  (t.olen = s.olen ∧ ∀ a, t.outByte a = s.outByte a) ∨
  (t.olen = s.olen + 1 ∧ ∀ a, a ≠ s.olen → t.outByte a = s.outByte a)

theorem appends_pushByte (b : Byte) (s : State) : Appends s (pushByte b s) :=
  .inr ⟨rfl, fun a ha => by rw [outByte_pushByte, if_neg ha]⟩

/-- An operation appends at most its byte, or it raises an error (R147, R228). -/
theorem runStep_appends {s t : State} (h : runStep s = .next t) : t.status.error = true ∨ Appends s t := by
  by_cases ho : s.olen < s.hdr.size.toNat
  · rcases runStep_cases ho with ⟨-, h'⟩ | ⟨s1, f, hf, hc⟩
    · cases h'.symm.trans h
      exact .inl rfl
    obtain ⟨hs1, -⟩ := flagNext_frame hf
    have holen : s1.olen = s.olen := by rw [hs1]
    have hout : ∀ a, s1.outByte a = s.outByte a := fun a => by rw [hs1]; rfl
    rcases hc with ⟨-, -, h'⟩ | ⟨-, -, h'⟩ | ⟨-, -, h'⟩ | ⟨-, -, -, h'⟩ | ⟨-, -, -, h'⟩
    · cases h'.symm.trans h
      exact .inl rfl
    · rcases afterOp_execLit_eq_next (h'.symm.trans h) with ⟨-, rfl⟩ | ⟨-, -, rfl⟩
      · exact .inl rfl
      · refine .inr (.inr ?_)
        constructor
        · split_ifs <;> simp [holen]
        · intro a ha
          split_ifs <;> simp [outByte_pushByte, holen, ha, hout]
    · cases h'.symm.trans h
      exact .inl rfl
    · cases h'.symm.trans h
      exact .inl rfl
    · cases h'.symm.trans h
      exact .inr (.inl ⟨holen, hout⟩)
  · cases (runStep_finishes ho).symm.trans h
    exact .inr (.inl ⟨rfl, fun _ => rfl⟩)

/-- A step of DEC_COPY appends at most its byte (R149). -/
theorem copyStep_appends {s t : State} (h : copyStep s = .next t) : Appends s t := by
  rcases copyStep_eq_next h with ⟨-, rfl⟩ | ⟨-, -, -, rfl⟩
  · exact .inl ⟨by simp, by simp⟩
  · exact .inr ⟨by simp, fun a ha => by simp [outByte_pushByte, ha]⟩

/-- Settles O22: a step of DEC_RUN or DEC_COPY that raises no error only appends. -/
theorem decoderOutputIsAppendOnly : Obligations.DecoderOutputIsAppendOnly := by
  intro s t hi hp h hok
  rw [step_engine hi] at h
  have happ : Appends s t := by
    rcases hp with hp | hp
    · rw [engineStep_decRun hp] at h
      exact (runStep_appends h).resolve_left (by simp [hok])
    · rw [engineStep_decCopy hp] at h
      exact copyStep_appends h
  rcases happ with ⟨ho, hout⟩ | ⟨ho, hout⟩
  · exact ⟨.inl ho, fun a _ => hout a⟩
  · exact ⟨.inr ho, fun a ha => hout a (ha.resolve_right (by omega))⟩

/-! ## Launches -/

/-- DECODE's result fits exactly where the size its header declares, if any, does (R58). -/
theorem decodeFits_iff {s : State} : decodeFits s = true ↔ ∀ size, declaredSize s = some size → size ≤ s.params.outCap := by
  cases h : declaredSize s <;> simp [decodeFits, h]

/-- ENCODE's result fits exactly where the bound of R194 does, if the checks of R181 pass (R58). -/
theorem encodeFits_iff {s : State} :
    encodeFits s = true ↔
      (nbitsLegal s.ctrl.nbits.toNat = true → variantLegal s.ctrl.variant.toNat = true → 1 ≤ s.inLen.toNat →
        s.inLen.toNat ≤ max24 → encodeBound s.inLen.toNat ≤ s.params.outCap) := by
  rw [encodeFits, Bool.or_eq_true, Bool.not_eq_true', ← Bool.not_eq_true]
  simp only [Bool.and_eq_true, decide_eq_true_eq, Nat.succ_le_iff]
  tauto

/-- Settles O23: the launch is admitted, and its next state is fresh. -/
theorem decodeLaunches : Obligations.DecodeLaunches := by
  intro variant nbits s hb hl hfit
  have hf : decodeFits (storeCtrl 1 nbits variant s) = true := decodeFits_iff.2 hfit
  exact ⟨_, launch_next hb hl hf, rfl, rfl, rfl, rfl, rfl, rfl, fun _ => rfl, fun _ => rfl, rfl⟩

/-- Settles O27: the launch is admitted, and its next state is fresh. -/
theorem encodeLaunches : Obligations.EncodeLaunches := by
  intro variant nbits s hb hl hfit
  have hf : encodeFits (storeCtrl 2 nbits variant s) = true := encodeFits_iff.2 fun hn hv h1 h2 => by
    obtain ⟨hlo, hhi⟩ := nbitsLegal_iff.1 hn
    exact hfit hlo hhi ((variantLegal_iff.1 hv).imp BitVec.eq_of_toNat_eq BitVec.eq_of_toNat_eq) h1 h2
  exact ⟨_, launch_next hb hl hf, rfl, rfl, rfl, rfl, rfl, fun _ => rfl, fun _ => rfl, rfl⟩

/-! ## STATUS -/

/-- A step of the engine leaves STATUS blank only where it was: what it reports is Done or an error. -/
theorem status_blank_of_reports {s t : State} (h : Reports s t)
    (ht : t.status.busy = false ∧ t.status.done = false ∧ t.status.error = false) :
    s.status.busy = false ∧ s.status.done = false ∧ s.status.error = false := by
  rcases h with h | h | ⟨e, -, h⟩ <;> rw [h] at ht
  · exact ht
  · simp [statusDone] at ht
  · simp [statusError] at ht

/-- A host action leaves STATUS blank only where it was, or as the reset event: a START sets BUSY or ERROR. -/
theorem status_blank_of_hostEffect {act : HostAct} {s t : State} (h : HostEffect act s t)
    (ht : t.status.busy = false ∧ t.status.done = false ∧ t.status.error = false) :
    (s.status.busy = false ∧ s.status.done = false ∧ s.status.error = false) ∨ act = .reset := by
  cases h with
  | busData | inLen | writeIn | writeOut | storeFields => exact .inl ht
  | badOp w => simp [startBadOp, statusError] at ht
  | decode | encode => simp [statusBusy] at ht
  | reset hr => exact .inr hr

/-- Settles O43: by who moves, the engine or the host. -/
theorem statusIsBlankOnlyBeforeTheFirstCommand : Obligations.StatusIsBlankOnlyBeforeTheFirstCommand := by
  intro s t h ht
  rcases step_cases s with ⟨-, hs⟩ | ⟨rest, -, hs⟩ | ⟨act, rest, hi, -, hs⟩ <;> rw [hs] at h
  · exact .inl (status_blank_of_reports (engineStep_same h).2 ht)
  · have := (engineStep_same h).2
    exact .inl (status_blank_of_reports this ht)
  · exact (status_blank_of_hostEffect (hostStep_effect h) ht).imp_right fun hr => by simp [hi, hr]

/-- A field above others that fit below it adds up with them. -/
theorem shiftLeft_or_eq_add {x y k : Nat} (hy : y < 2 ^ k) : x <<< k ||| y = x * 2 ^ k + y := by
  rw [← Nat.shiftLeft_add_eq_or_of_lt hy, Nat.shiftLeft_eq]

/-- A field of n bits at position k, in a word that has room for it. -/
theorem toNat_field {n : Nat} (x : BitVec n) (k : Nat) (hk : n + k ≤ 32) :
    (x.setWidth 32 <<< k).toNat = x.toNat <<< k := by
  have hx : x.toNat <<< k < 2 ^ 32 :=
    calc x.toNat <<< k = x.toNat * 2 ^ k := Nat.shiftLeft_eq _ _
      _ < 2 ^ n * 2 ^ k := Nat.mul_lt_mul_of_pos_right x.isLt (Nat.two_pow_pos k)
      _ = 2 ^ (n + k) := (pow_add 2 n k).symm
      _ ≤ 2 ^ 32 := Nat.pow_le_pow_right (by decide) hk
  rw [BitVec.toNat_shiftLeft, BitVec.toNat_setWidth_of_le (by omega), Nat.mod_eq_of_lt hx]

/-- The word of STATUS as a sum of its fields at their positions (R24). -/
theorem statusWord_toNat (t : Status) :
    (statusWord t).toNat = t.busy.toNat + 2 * t.done.toNat + 4 * t.error.toNat + 16 * t.errcode.toNat +
      256 * t.detail.toNat := by
  have hb := t.busy.toNat_lt
  have hd := t.done.toNat_lt
  have he := t.error.toNat_lt
  have hc := t.errcode.isLt
  have hfields : (statusWord t).toNat = t.detail.toNat <<< 8 ||| (t.errcode.toNat <<< 4 ||| (t.error.toNat <<< 2 |||
      (t.done.toNat <<< 1 ||| t.busy.toNat))) := by
    simp only [statusWord, BitVec.toNat_or, Nat.or_assoc]
    rw [toNat_field _ 8 (by decide), toNat_field _ 4 (by decide), toNat_field _ 2 (by decide), toNat_field _ 1 (by decide),
      BitVec.toNat_setWidth_of_le (by decide)]
    simp only [BitVec.toNat_ofBool]
  rw [hfields, shiftLeft_or_eq_add (y := t.busy.toNat) (by omega), shiftLeft_or_eq_add (k := 2) (by omega),
    shiftLeft_or_eq_add (k := 4) (by omega), shiftLeft_or_eq_add (k := 8) (by omega)]
  omega

/-- Settles O47: index 1 is STATUS, and its word is the sum of its fields. -/
theorem statusReadsItsFields : Obligations.StatusReadsItsFields := by
  intro s
  rw [← statusWord_toNat]
  simp only [readReg, regIndex_add]

/-- Settles O41: the words of finitely many outcomes, by evaluation. -/
theorem statusWordsOfTheOutcomes : Obligations.StatusWordsOfTheOutcomes := by
  unfold Obligations.StatusWordsOfTheOutcomes
  decide

/-! ## The host's register file -/

/-- The bus address REG_BASE is CTRL (R22). -/
theorem writeReg_ctrl (w : Word) (s : State) : writeReg s.params.regBase w s = writeCtrl w s := by
  simp only [writeReg, regIndex_base]

/-- A CTRL word that is an instruction runs it (R23). -/
theorem writeCtrl_ok {w : Word} {i : Instr} (h : decodeCtrl w = .ok i) (s : State) : writeCtrl w s = exec i s := by
  simp only [writeCtrl, h]

/-- With START = 0 a CTRL write stores its fields (R23). -/
theorem writeCtrl_notStarted {w : Word} {s : State} (hw : w.getLsbD 31 = false) (hb : s.status.busy = false) :
    writeCtrl w s = .next (storeCtrl (ctrlOp w) (ctrlNbits w) (ctrlVariant w) s) := by
  have hs : ctrlStart w = false := hw
  have hd : decodeCtrl w = .error .notStarted := by simp [decodeCtrl, hs]
  simp [writeCtrl, hd, hb]

/-- Settles O46: the fields are stored, and CTRL's word is made of them. -/
theorem ctrlReadsBackItsFields : Obligations.CtrlReadsBackItsFields := by
  intro s w hb hw
  refine ⟨_, (writeReg_ctrl w s).trans (writeCtrl_notStarted hw hb), ?_, rfl⟩
  rw [readReg, storeCtrl_params, regIndex_base]
  exact ctrlWord_fields w

/-- Settles O44: the host's write to CTRL is the step, and it runs the instruction. -/
theorem stepRunsTheStartedCommand : Obligations.StepRunsTheStartedCommand := by
  intro s w rest i hi hd
  rw [step_host hi (by simp)]
  exact (writeReg_ctrl w { s with inbox := rest }).trans (writeCtrl_ok hd _)

/-- Settles O48: IN_LEN is index 2 and OUT_LEN index 3. -/
theorem lengthRegistersReadBack : Obligations.LengthRegistersReadBack := by
  intro s w
  refine ⟨fun hb => ⟨{ s with inLen := w }, ?_, ?_, rfl⟩, fun hb ho => ?_, fun hb => ?_⟩
  · simp [writeReg, writeInLen, hb]
  · simp [readReg]
  · simp [readReg, outLenWord, hb]
    omega
  · simp [readReg, outLenWord, hb]

/-- Settles O49: only indices 0 and 2 take a write, and only indices 0 to 3 answer a read. -/
theorem readOnlyAndAbsentRegisters : Obligations.ReadOnlyAndAbsentRegisters := by
  intro s w i
  constructor
  · rintro (rfl | rfl | hi)
    · simp [writeReg]
    · simp [writeReg]
    · obtain ⟨j, rfl⟩ := Nat.exists_eq_add_of_le' hi
      simp [writeReg]
  · intro hi
    obtain ⟨j, rfl⟩ := Nat.exists_eq_add_of_le' hi
    simp [readReg]

end Sys2Proof.Machine

namespace Sys2Proof.Machine

/-! The proofs about the two memories (20_memory.md): the flag word that is read at FC, the host's accesses, and that a running
command's input is fixed. -/

/-! ## The flag word -/

/-- The first flag of a word in its queue: raw bit 31 inverted, or bit 30 in format 0, whose marker is dropped (R120, R122). -/
theorem refillQueue_first (var : BitVec 8) (w : Word) :
    (refillQueue var w).bits.getLsbD 31 = !w.getLsbD (8 * 3 + if var = 0 then 6 else 7) := by
  rw [refillQueue]
  split_ifs <;> simp

/-- Settles O7: a refill takes the word at FC, and the pop returns its first flag, which stands in the byte at FC + 3. -/
theorem flagNextRefillsFromTheWordAtFC : Obligations.FlagNextRefillsFromTheWordAtFC := by
  intro s h0 _
  refine ⟨fun hl => flagNext_eq_none.2 ⟨h0, hl⟩, fun hl => ?_⟩
  refine ⟨(flagPop (takeFlagWord (leNat (inBytes s s.cur.fc 4)) s)).2, ?_, ?_, rfl, rfl⟩
  · have hbit := (refillQueue_first s.hdr.var (BitVec.ofNat 32 (leNat (inBytes s s.cur.fc 4)))).trans
      (congrArg not (flagWordAt_getLsbD s s.cur.fc 3 _ (by split_ifs <;> decide) (by decide)))
    rw [← hbit]
    exact flagNext_eq_some.2 (.inr ⟨h0, hl, rfl⟩)
  · simp only [flagPop, takeFlagWord, refillQueue_count]
    split_ifs <;> rfl

/-! ## The host's accesses -/

/-- While no command runs, the host places a byte of IN at any address IN has (R252). -/
theorem hostWriteIn_next {s : State} {a : Nat} (b : Byte) (hb : s.status.busy = false) (ha : a < s.params.maxInLen) :
    hostWriteIn a b s = .next { s with inMem := Memory.write s.inMem a b } := by
  simp [hostWriteIn, hb, ha]

/-- While no command runs, the host writes a byte of OUT at any address OUT has (R256). -/
theorem hostWriteOut_next {s : State} {a : Nat} (b : Byte) (hb : s.status.busy = false) (ha : a < s.params.outCap) :
    hostWriteOut a b s = .next { s with outMem := Memory.write s.outMem a b } := by
  simp [hostWriteOut, hb, ha]

/-- While no command runs, the host reads a byte of OUT at any address OUT has (R61, R252). -/
theorem hostReadOut_next {s : State} {a : Nat} (hb : s.status.busy = false) (ha : a < s.params.outCap) :
    hostReadOut a s = .next { s with busData := (s.outByte a).setWidth 32 } := by
  simp [hostReadOut, hb, ha]

/-- Settles O51: each access is admitted, and a read after a write gives the written byte at its address only. -/
theorem hostMemoryReadsAndWrites : Obligations.HostMemoryReadsAndWrites := fun s a b hb =>
  ⟨fun ha => ⟨_, hostWriteIn_next b hb ha, fun c => inByte_write s a c b, rfl⟩,
    fun ha => ⟨_, hostWriteOut_next b hb ha, fun c => outByte_write s a c b, rfl⟩,
    fun ha => hostReadOut_next hb ha⟩

/-! ## The input of a running command -/

/-- A step of the engine leaves IN, IN_LEN, CTRL and the parameters as they are (R56, R64). -/
theorem engineStep_fixes_input {s t : State} (h : engineStep s = .next t) :
    t.inMem = s.inMem ∧ t.inLen = s.inLen ∧ t.ctrl = s.ctrl ∧ t.params = s.params := by
  obtain ⟨⟨hmem, hlen, hctrl, hparams, -⟩, -⟩ := engineStep_same h
  exact ⟨hmem, hlen, hctrl, hparams⟩

/-- While a command runs, the only host actions that land are the reset event and a read into `busData` (R22, R256). -/
theorem HostEffect.of_busy {act : HostAct} {s t : State} (h : HostEffect act s t) (hb : s.status.busy = true) :
    (∃ d, t = { s with busData := d }) ∨ act = .reset := by
  cases h with
  | busData d => exact .inl ⟨d, rfl⟩
  | reset hr => exact .inr hr
  | inLen _ idle | writeIn _ _ idle | writeOut _ _ idle | storeFields _ idle | badOp _ idle | decode _ _ idle
  | encode _ _ idle => exact absurd (hb.symm.trans idle) (by decide)

/-- Settles O54: the engine never changes its input, and the host cannot while BUSY. -/
theorem inputIsFixedWhileBusy : Obligations.InputIsFixedWhileBusy := by
  intro s t hb hr h
  rcases step_cases s with ⟨-, hs⟩ | ⟨rest, -, hs⟩ | ⟨act, rest, hi, -, hs⟩ <;> rw [hs] at h
  · exact engineStep_fixes_input h
  · exact engineStep_fixes_input (s := { s with inbox := rest }) h
  · obtain ⟨d, rfl⟩ | rfl := (hostStep_effect h).of_busy hb
    · exact ⟨rfl, rfl, rfl, rfl⟩
    · exact absurd (by simp [hi]) hr

end Sys2Proof.Machine

namespace Sys2Proof.Reference

open Sys2Proof.Machine

/-! The proofs about encodings (30_encoding.md). First the reading of an assembled container, operation by operation, which says
what a listing decodes to; then the decoder and encoder of instructions, and the fetch. -/

/-! ## Fields of a container -/

/-- Bytes that stand at a are the field read there (R51, R52). -/
theorem field_of_isPrefix {input bs : List Byte} {a n : Nat} (h : bs <+: input.drop a) (hn : bs.length = n) (h0 : 0 < n) :
    field input a n = .ok (leNat bs) := by
  have hl := h.length_le
  rw [List.length_drop] at hl
  rw [field, if_neg (by omega), ← hn, ← List.prefix_iff_eq_take.1 h]

/-- A number that fits in n bytes, written at a, is the field read there (R52). -/
theorem field_leBytes {input : List Byte} {a n v : Nat} (h : leBytes n v <+: input.drop a) (h0 : 0 < n) (hv : v < 256 ^ n) :
    field input a n = .ok v := by
  rw [field_of_isPrefix h (leBytes_length n v) h0, leNat_leBytes, Nat.mod_eq_of_lt hv]

theorem field_byte {input : List Byte} {a : Nat} {b : Byte} (h : [b] <+: input.drop a) : field input a 1 = .ok b.toNat :=
  field_of_isPrefix h rfl Nat.one_pos

/-- The second part of what stands at a stands behind the first. -/
theorem isPrefix_drop_add {xs ys input : List Byte} {a : Nat} (h : xs ++ ys <+: input.drop a) :
    ys <+: input.drop (a + xs.length) := by
  obtain ⟨tail, h⟩ := h
  exact ⟨tail, by rw [← List.drop_drop, ← h, List.append_assoc, List.drop_left]⟩

/-! ## What an operation appends -/

/-- The bytes an operation appends to `out`, uncut (R147, R149). -/
def appended (out : List Byte) : Op → List Byte
  | .literal b => [b]
  | .mat jump run => repetition out jump run

/-- The pair of a Match has a cell and refers inside the output before it (R83, R151). -/
def opReaches (nb : Nat) (out : List Byte) : Op → Bool
  | .literal _ => true
  | .mat jump run => tokenInRange jump run nb && decide (jump ≤ out.length)

theorem expand_cons (out : List Byte) (op : Op) (ops : List Op) :
    expand out (op :: ops) = expand (out ++ appended out op) ops := by
  cases op <;> rfl

theorem reaches_cons (nb : Nat) (out : List Byte) (op : Op) (ops : List Op) :
    Listing.reaches nb out (op :: ops) = (opReaches nb out op && Listing.reaches nb (out ++ appended out op) ops) := by
  cases op <;> rfl

/-- The output only grows (R31). -/
theorem isPrefix_expand (out : List Byte) (ops : List Op) : out <+: expand out ops := by
  induction ops generalizing out with
  | nil => exact List.prefix_rfl
  | cons op ops ih =>
    rw [expand_cons]
    exact (List.prefix_append _ _).trans (ih _)

theorem take_repetition (out : List Byte) (jump run n : Nat) :
    (repetition out jump run).take n = repetition out jump (min run n) := by
  rw [repetition, ← List.map_take, List.take_range, Nat.min_comm]
  rfl

/-- A legal operation appends at least one byte. -/
theorem appended_length_pos {nb : Nat} {out : List Byte} {op : Op} (h : opReaches nb out op = true) :
    0 < (appended out op).length := by
  cases op with
  | literal b => exact Nat.one_pos
  | mat jump run =>
    obtain ⟨ht, -⟩ := Bool.and_eq_true_iff.1 h
    obtain ⟨-, -, -, h3, -⟩ := tokenInRange_iff.1 ht
    simp only [appended, repetition, List.length_map, List.length_range]
    omega

/-! ## The flags ahead -/

/-- The data words of a flag section (R123). -/
abbrev dataWords (var : BitVec 8) (flags : List Bool) : List Byte :=
  packWords var (ceilDiv flags.length (flagsPerWord var)) flags

/-- The next flags of a stream are `flags`: they are pending, or the pending ones are their first and the words of the others
stand at FC (R120, R123). -/
def FlagsAhead (input : List Byte) (var : BitVec 8) (r : Rest) (flags : List Bool) : Prop :=
  flags <+: r.flags ∨ ∃ later, flags = r.flags ++ later ∧ dataWords var later <+: input.drop r.fc

/-- The data words of some flags are the word of the first chunk and those of the others (R123). -/
theorem dataWords_eq (var : BitVec 8) {flags : List Bool} (h : flags ≠ []) :
    dataWords var flags =
      leBytes 4 (flagWord var (flags.take (flagsPerWord var))) ++ dataWords var (flags.drop (flagsPerWord var)) := by
  obtain ⟨f, fs, rfl⟩ := List.exists_cons_of_ne_nil h
  rw [dataWords, ceilDiv_succ (flagsPerWord_pos var) (List.length_pos_of_ne_nil h), packWords, dataWords, List.length_drop]

/-- Where no flag is pending, the word at FC brings the flags ahead (R120, R123). -/
theorem flagsAhead_refill {input : List Byte} {var : BitVec 8} {r : Rest} {flags : List Bool}
    (hv : variantLegal var.toNat = true) (h : flags ≠ []) (hw : dataWords var flags <+: input.drop r.fc) :
    ∃ w, field input r.fc 4 = .ok w ∧
      FlagsAhead input var { r with flags := flagsOf var.toNat w, fc := r.fc + 4 } flags := by
  rw [dataWords_eq var h] at hw
  refine ⟨_, field_leBytes ((List.prefix_append _ _).trans hw) (by decide) (flagWord_lt var _), ?_⟩
  obtain ⟨padding, hp⟩ := flagsOf_flagWord hv (flags.take (flagsPerWord var)) (List.length_take_le _ _)
  by_cases hl : flags.length ≤ flagsPerWord var
  · left
    rw [List.take_of_length_le hl] at hp ⊢
    exact ⟨padding, hp.symm⟩
  · refine .inr ⟨flags.drop (flagsPerWord var), ?_, by simpa using isPrefix_drop_add hw⟩
    have hlen := flagsOf_length hv (flagWord var (flags.take (flagsPerWord var)))
    rw [hp, List.length_append, List.length_take, min_eq_left (by omega)] at hlen
    rw [hp, List.length_eq_zero_iff.1 (show padding.length = 0 by omega), List.append_nil, List.take_append_drop]

/-- A pending flag that is the first ahead is popped (R120). -/
theorem FlagsAhead.pop {input : List Byte} {var : BitVec 8} {r : Rest} {f g : Bool} {fs gs : List Bool}
    (h : FlagsAhead input var r (f :: fs)) (hr : r.flags = g :: gs) :
    g = f ∧ FlagsAhead input var { r with flags := gs } fs := by
  rcases h with h | ⟨later, h, hw⟩
  · rw [hr, List.cons_prefix_cons] at h
    exact ⟨h.1.symm, .inl h.2⟩
  · rw [hr, List.cons_append, List.cons.injEq] at h
    exact ⟨h.1.symm, .inr ⟨later, h.2, hw⟩⟩

/-- The first flag ahead is the next flag, and the others stay ahead (R120). -/
theorem nextFlag_of_flagsAhead {input : List Byte} {var : BitVec 8} {m : Modes} {r : Rest} {f : Bool} {fs : List Bool}
    (hv : variantLegal var.toNat = true) (hm : m.var = var.toNat) (h : FlagsAhead input var r (f :: fs)) :
    ∃ r1, nextFlag input m r = .ok (f, r1) ∧ FlagsAhead input var r1 fs ∧ r1.lc = r.lc ∧ r1.mc = r.mc := by
  cases hr : r.flags with
  | cons g gs =>
    obtain ⟨rfl, hf⟩ := h.pop hr
    exact ⟨_, by rw [nextFlag, hr], hf, rfl, rfl⟩
  | nil =>
    have hw : dataWords var (f :: fs) <+: input.drop r.fc := by
      rcases h with h | ⟨later, h, hw⟩
      · rw [hr] at h
        exact absurd (List.prefix_nil.1 h) (List.cons_ne_nil _ _)
      · rwa [h, hr]
    obtain ⟨w, hfield, ha⟩ := flagsAhead_refill hv (List.cons_ne_nil f fs) hw
    obtain ⟨g, gs, hg⟩ : ∃ g gs, flagsOf m.var w = g :: gs := by
      refine List.exists_cons_of_length_pos ?_
      rw [hm, flagsOf_length hv]
      exact flagsPerWord_pos var
    obtain ⟨rfl, hf⟩ := ha.pop (hm ▸ hg)
    refine ⟨{ r with flags := gs, fc := r.fc + 4 }, ?_, hf, rfl, rfl⟩
    simp only [nextFlag, hr, hfield, hg]
    rfl

/-! ## The operations ahead -/

/-- The literal bytes and the cells of `ops` stand at LC and MC (R81, R82). -/
structure OperandsAhead (input : List Byte) (nb : Nat) (r : Rest) (ops : List Op) : Prop where
  literals : ops.flatMap literalOf <+: input.drop r.lc
  cells : ops.flatMap (cellBytesOf nb) <+: input.drop r.mc

theorem OperandsAhead.of_cursors {input : List Byte} {nb : Nat} {r r1 : Rest} {ops : List Op}
    (h : OperandsAhead input nb r ops) (hlc : r1.lc = r.lc) (hmc : r1.mc = r.mc) : OperandsAhead input nb r1 ops :=
  ⟨by rw [hlc]; exact h.literals, by rw [hmc]; exact h.cells⟩

/-- The operand ahead is the operation's: it appends its bytes, cut at SIZE, and the other operands stay ahead (R147 to R150). -/
theorem operation_of_operandsAhead {input : List Byte} {m : Modes} {r : Rest} {op : Op} {ops : List Op} {out : List Byte}
    (h : OperandsAhead input m.nb r (op :: ops)) (hop : opReaches m.nb out op = true) (ho : out.length < m.size) :
    ∃ r2, operation input m (isMatchOf op) r out = .ok ((out ++ appended out op).take m.size, r2) ∧
      OperandsAhead input m.nb r2 ops ∧ r2.flags = r.flags ∧ r2.fc = r.fc := by
  obtain ⟨hlit, hcell⟩ := h
  cases op with
  | literal b =>
    have hb : field input r.lc 1 = .ok b.toNat := field_byte ((List.prefix_append [b] _).trans hlit)
    refine ⟨{ r with lc := r.lc + 1 }, ?_, ⟨isPrefix_drop_add (xs := [b]) hlit, hcell⟩, rfl, rfl⟩
    simp only [operation, isMatchOf, hb, BitVec.ofNat_toNat, BitVec.setWidth_eq, appended]
    rw [List.take_of_length_le (by simpa using ho)]
    rfl
  | mat jump run =>
    obtain ⟨ht, hj⟩ := Bool.and_eq_true_iff.1 hop
    have hc := field_of_isPrefix ((List.prefix_append (leBytes 2 (tokenCell jump run m.nb).toNat) _).trans hcell)
      (leBytes_length 2 _) Nat.two_pos
    have htok : tokenDecode (BitVec.ofNat 16 (leNat (leBytes 2 (tokenCell jump run m.nb).toNat))) m.nb = (jump, run) :=
      (congrArg (tokenDecode · m.nb) (cellOf_leBytes _)).trans (tokenDecode_tokenCell ht)
    refine ⟨{ r with mc := r.mc + 2 }, ?_, ⟨hlit, isPrefix_drop_add (xs := leBytes 2 _) hcell⟩, rfl, rfl⟩
    have hjump : ¬out.length < jump := Nat.not_lt.2 (of_decide_eq_true hj)
    simp only [operation, isMatchOf, if_true, hc, htok, hjump, if_false, appended]
    rw [List.take_append, List.take_of_length_le ho.le, take_repetition]

/-- With SIZE bytes in the output the loop ends (R140). -/
theorem operations_finished {input : List Byte} {m : Modes} {r : Rest} {out : List Byte} (fuel : Nat) (h : m.size ≤ out.length) :
    operations input m fuel r out = .ok out := by
  cases fuel with
  | zero => rfl
  | succ fuel => rw [operations, if_neg (Nat.not_lt.2 h)]

/-- From where its flags and operands are ahead, an operation sequence that reaches SIZE is decoded to its output, cut at SIZE
(R146 to R150). -/
theorem operations_of_ahead {input : List Byte} {var : BitVec 8} {m : Modes} (hv : variantLegal var.toNat = true)
    (hm : m.var = var.toNat) {ops : List Op} {fuel : Nat} {r : Rest} {out : List Byte}
    (hf : FlagsAhead input var r (ops.map isMatchOf)) (ha : OperandsAhead input m.nb r ops)
    (hr : Listing.reaches m.nb out ops = true) (hs : m.size ≤ (expand out ops).length) (hfuel : m.size ≤ out.length + fuel) :
    operations input m fuel r (out.take m.size) = .ok ((expand out ops).take m.size) := by
  induction ops generalizing fuel r out with
  | nil => exact operations_finished fuel (by rw [List.length_take]; exact le_min le_rfl hs)
  | cons op ops ih =>
    rcases Nat.lt_or_ge out.length m.size with ho | ho
    · obtain ⟨fuel, rfl⟩ : ∃ k, fuel = k + 1 := ⟨fuel - 1, by omega⟩
      rw [reaches_cons, Bool.and_eq_true] at hr
      obtain ⟨hop, hr⟩ := hr
      rw [expand_cons] at hs ⊢
      obtain ⟨r1, hflag, hf1, hlc, hmc⟩ := nextFlag_of_flagsAhead hv hm hf
      obtain ⟨r2, hoper, ha2, hfl2, hfc2⟩ := operation_of_operandsAhead (ha.of_cursors hlc hmc) hop ho
      have hf2 : FlagsAhead input var r2 (ops.map isMatchOf) := by rwa [FlagsAhead, hfl2, hfc2]
      rw [List.take_of_length_le ho.le, operations, if_pos ho, hflag]
      simp only [hoper]
      refine ih hf2 ha2 hr hs ?_
      have := appended_length_pos hop
      rw [List.length_append]
      omega
    · have hcut : (expand out (op :: ops)).take m.size = out.take m.size := by
        obtain ⟨more, he⟩ := isPrefix_expand out (op :: ops)
        rw [← he, List.take_append_of_le_length ho]
      rw [hcut]
      exact operations_finished fuel (by rw [List.length_take]; exact le_min le_rfl ho)

/-! ## The container of an operation sequence -/

/-- Where the sections of an assembled container stand (R190 to R192): the header's fields hold the modes and the two offsets,
and at 16, LOFF and MOFF stand the flags, the literals and the cells. -/
structure Assembled (nb var : BitVec 8) (n : Nat) (ops : List Op) (loff moff : Nat) (c : List Byte) : Prop where
  bound : loff ≤ moff ∧ moff ≤ 0xFFFFFF
  sig : [0x55, 0x6C, 0x7A, 0x1A] <+: c.drop 0
  size : leBytes 3 n <+: c.drop 4
  variant : [var] <+: c.drop 7
  loffField : leBytes 3 loff <+: c.drop 8
  nbits : [nb] <+: c.drop 11
  moffField : leBytes 4 moff <+: c.drop 12
  flags : dataWords var (ops.map isMatchOf) <+: c.drop 16
  literals : ops.flatMap literalOf <+: c.drop loff
  cells : ops.flatMap (cellBytesOf nb.toNat) <+: c.drop moff

theorem assemble_eq_ok {nb var : BitVec 8} {n : Nat} {ops : List Op} {c : List Byte} (h : assemble nb var n ops = .ok c) :
    ∃ loff moff, Assembled nb var n ops loff moff c := by
  simp only [assemble] at h
  split_ifs at h with hb
  injection h with h
  have hflags : flagPack (ops.map isMatchOf) var ++
      (padded (ops.flatMap literalOf) ++ padded (ops.flatMap (cellBytesOf nb.toNat))) <+: c.drop 16 := by
    rw [← h, List.append_assoc, List.append_assoc]
    exact List.prefix_rfl
  have hlits := isPrefix_drop_add hflags
  have hcells := isPrefix_drop_add hlits
  exact ⟨_, _, {
    bound := ⟨Nat.le_add_right _ _, Nat.not_lt.1 hb⟩
    sig := ⟨_, h⟩
    size := ⟨_, by rw [← h]; rfl⟩
    variant := ⟨_, by rw [← h]; rfl⟩
    loffField := ⟨_, by rw [← h]; rfl⟩
    nbits := ⟨_, by rw [← h]; rfl⟩
    moffField := ⟨_, by rw [← h]; rfl⟩
    flags := (List.prefix_append _ _).trans ((List.prefix_append _ _).trans hflags)
    literals := (List.prefix_append _ _).trans ((List.prefix_append _ _).trans hlits)
    cells := (List.prefix_append _ _).trans hcells }⟩

/-- The header of an assembled container passes every check and gives its modes and offsets (R141 to R145). -/
theorem header_of_assembled {nb var : BitVec 8} {n loff moff : Nat} {ops : List Op} {c : List Byte}
    (h : Assembled nb var n ops loff moff c) (checkNbits : Bool) (hn : nbitsLegal nb.toNat = true)
    (hv : variantLegal var.toNat = true) (hsize : n ≤ 0xFFFFFF) :
    header checkNbits c =
      .ok ({ size := n, var := var.toNat, nb := nb.toNat }, { flags := [], fc := 16, lc := loff, mc := moff }) := by
  obtain ⟨hlo, hhi⟩ := h.bound
  have hsig : field c 0 4 = .ok 0x1A7A6C55 := field_of_isPrefix h.sig rfl (by decide)
  have hvar := variantLegal_iff.1 hv
  have hnb := nbitsLegal_iff.1 hn
  simp only [header, hsig, field_leBytes h.size (by decide) (by omega), field_byte h.variant,
    field_leBytes h.loffField (by decide) (by omega), field_byte h.nbits, field_leBytes h.moffField (by decide) (by omega),
    hvar, hnb, Nat.mod_eq_of_lt (show moff < 2 ^ 24 by omega), ne_eq, not_true_eq_false, and_self, and_false, if_false]

/-- An assembled container decodes to the output of its operations, cut at SIZE (R140, R190). -/
theorem decodeStream_of_assembled {nb var : BitVec 8} {n loff moff : Nat} {ops : List Op} {c : List Byte}
    (h : Assembled nb var n ops loff moff c) (checkNbits : Bool) (hn : nbitsLegal nb.toNat = true)
    (hv : variantLegal var.toNat = true) (hsize : n ≤ 0xFFFFFF) (hr : Listing.reaches nb.toNat [] ops = true)
    (hs : n ≤ (expand [] ops).length) : decodeStream checkNbits c = .ok ((expand [] ops).take n) := by
  rw [decodeStream, header_of_assembled h checkNbits hn hv hsize]
  have hrun := operations_of_ahead (m := ⟨n, var.toNat, nb.toNat⟩) (r := ⟨[], 16, loff, moff⟩) (fuel := n) (out := [])
    hv rfl (.inr ⟨_, rfl, h.flags⟩) ⟨h.literals, h.cells⟩ hr hs (Nat.le_add_left _ _)
  rwa [List.take_nil] at hrun

/-- Settles O37: the container of a listing is the assembly of its operations. -/
theorem listingDecodesToItsOutput : Obligations.ListingDecodesToItsOutput := by
  intro l checkNbits c hn hv hr hs hsize hc
  obtain ⟨loff, moff, h⟩ := assemble_eq_ok hc
  exact decodeStream_of_assembled h checkNbits hn hv hsize hr hs

end Sys2Proof.Reference

namespace Sys2Proof.Machine

/-! ## Decoding and encoding of instructions -/

/-- The operand of a well-formed MATCH decodes to the same jump and run, in the row of the mode nbits (R82, R85, R103). -/
theorem decode_encodeMatch {nb : BitVec 8} {jump run : Nat} (h : tokenInRange jump run nb.toNat = true) :
    decode nb (encodeMatch nb.toNat jump run) =
      if nb = 10 then .ok (.matchN10 jump run)
      else if nb = 11 then .ok (.matchN11 jump run)
      else if nb = 12 then .ok (.matchN12 jump run)
      else if nb = 13 then .ok (.matchN13 jump run)
      else .error .nbitsWithoutRow := by
  rw [encodeMatch, decode_cell, decodeCell, tokenDecode_tokenCell h]

/-- The CTRL word of a command decodes by its OP to the command, under any mode (R23, R90). -/
theorem decode_encodeCtrl (mode : BitVec 8) (op : BitVec 2) (variant nbits : BitVec 8) :
    decode mode (encodeCtrl op variant nbits) =
      if op = 1 then .ok (.decode variant nbits)
      else if op = 2 then .ok (.encode variant nbits)
      else .error .reservedOp := by
  obtain ⟨w, hw, hs, ho, hv, hn⟩ := encodeCtrl_fields op variant nbits
  rw [hw, decode, decodeCtrl, if_pos hs, ho, hv, hn]

/-- Settles O1, by the rows of the opcode table: a MATCH by its cell (R103), a command by the fields of its CTRL word. -/
theorem decodeOfEncodeIsTheInstruction : Obligations.DecodeOfEncodeIsTheInstruction := by
  intro i dflt h
  cases i with
  | lit b => rfl
  | matchN10 jump run => exact decode_encodeMatch (nb := 10) h
  | matchN11 jump run => exact decode_encodeMatch (nb := 11) h
  | matchN12 jump run => exact decode_encodeMatch (nb := 12) h
  | matchN13 jump run => exact decode_encodeMatch (nb := 13) h
  | decode variant nbits => exact decode_encodeCtrl _ 1 variant nbits
  | encode variant nbits => exact decode_encodeCtrl _ 2 variant nbits

/-- A cell under a legal nbits names a pair that is in range and has that cell (R83, R103). -/
theorem encodeMatch_tokenDecode {nb : Nat} (h : nbitsLegal nb = true) (cell : BitVec 16) :
    tokenInRange (tokenDecode cell nb).1 (tokenDecode cell nb).2 nb = true ∧
      encodeMatch nb (tokenDecode cell nb).1 (tokenDecode cell nb).2 = .op 0 (leBytes 2 cell.toNat) :=
  ⟨tokenDecode_inRange h cell, by rw [encodeMatch, tokenCell_tokenDecode h]⟩

/-- The MATCH of a cell is well-formed and has that cell (R83, R103). -/
theorem decodeCell_eq_ok {nb : BitVec 8} {cell : BitVec 16} {i : Instr} (h : decodeCell nb cell = .ok i) :
    i.wf = true ∧ encode i = .op 0 (leBytes 2 cell.toNat) := by
  simp only [decodeCell] at h
  split_ifs at h with h10 h11 h12 h13 <;> cases h <;> subst nb <;> exact encodeMatch_tokenDecode rfl cell

/-- Everything a stream operation can decode to: a LIT of its one operand byte, or the MATCH of its two (R85, R86). -/
theorem decode_op_eq_ok {nb : BitVec 8} {raw : BitVec 1} {operand : List Byte} {i : Instr}
    (h : decode nb (.op raw operand) = .ok i) :
    (∃ b, raw = 1 ∧ operand = [b] ∧ i = .lit b) ∨
      ∃ lo hi, raw = 0 ∧ operand = [lo, hi] ∧ decodeCell nb (cellOf lo hi) = .ok i := by
  simp only [decode] at h
  split_ifs at h with hraw
  · split at h
    next b => exact .inl ⟨b, hraw, rfl, (Except.ok.inj h).symm⟩
    next => cases h
  · split at h
    next lo hi => exact .inr ⟨lo, hi, (BitVec.eq_zero_or_eq_one raw).resolve_right hraw, rfl, h⟩
    next => cases h

/-- Settles O2: a LIT is its byte, and a MATCH has the cell it was read from. -/
theorem encodeOfDecodedOperationIsTheOperation : Obligations.EncodeOfDecodedOperationIsTheOperation := by
  intro nb raw operand i h
  rcases decode_op_eq_ok h with ⟨b, rfl, rfl, rfl⟩ | ⟨lo, hi, rfl, rfl, hcell⟩
  · exact ⟨rfl, rfl⟩
  · obtain ⟨hwf, henc⟩ := decodeCell_eq_ok hcell
    exact ⟨hwf, by rw [henc, leBytes_cellOf]⟩

/-- Settles O4: seven words, by evaluation. -/
theorem wordsWrittenOutDecode : Obligations.WordsWrittenOutDecode := by
  unfold Obligations.WordsWrittenOutDecode
  decide

/-! ## The fetch -/

/-- The operand of a LIT is the byte at LC (R86). -/
theorem fetchOperand_lit {s : State} (h : s.cur.lc + 1 ≤ s.inLen.toNat) :
    fetchOperand false s = some [s.inByte s.cur.lc] := by
  rw [fetchOperand, if_neg Bool.false_ne_true, memRead_eq_some.2 ⟨h, rfl⟩, Option.map_some, leBytes_leNat_inBytes]
  rfl

/-- The operand of a MATCH is the two bytes at MC (R86). -/
theorem fetchOperand_match {s : State} (h : s.cur.mc + 2 ≤ s.inLen.toNat) :
    fetchOperand true s = some [s.inByte s.cur.mc, s.inByte (s.cur.mc + 1)] := by
  rw [fetchOperand, if_pos rfl, memRead_eq_some.2 ⟨h, rfl⟩, Option.map_some, leBytes_leNat_inBytes]
  rfl

/-- An operand past IN_LEN is none (R51). -/
theorem fetchOperand_eq_none {s : State} (isMatch : Bool) :
    fetchOperand isMatch s = none ↔ s.inLen.toNat < if isMatch then s.cur.mc + 2 else s.cur.lc + 1 := by
  cases isMatch <;> simp [fetchOperand, memRead_eq_none]

theorem fetchOp_truncated {s t : State} {isMatch : Bool} (h : flagNext s = some (isMatch, t))
    (ho : fetchOperand isMatch t = none) : fetchOp s = .truncated t := by
  simp only [fetchOp, h, ho]

theorem fetchOp_op {s t : State} {isMatch : Bool} {operand : List Byte} (h : flagNext s = some (isMatch, t))
    (ho : fetchOperand isMatch t = some operand) : fetchOp s = .op (rawFlag isMatch) operand t := by
  simp only [fetchOp, h, ho]

/-- Settles O20: FLAG_NEXT leaves the operand cursors and IN as they were, and the flag chooses the cursor. -/
theorem fetchTakesFlagAndOperand : Obligations.FetchTakesFlagAndOperand := by
  intro s s1 isMatch hf
  obtain ⟨hs1, -⟩ := flagNext_frame hf
  have hlc : s1.cur.lc = s.cur.lc := by rw [hs1]
  have hmc : s1.cur.mc = s.cur.mc := by rw [hs1]
  have hin : ∀ a, s1.inByte a = s.inByte a := fun a => by rw [hs1]; rfl
  refine ⟨?_, ?_, ?_, ?_⟩ <;> rintro rfl hl
  · rw [fetchOp_op hf (fetchOperand_lit hl), hlc, hin]
    rfl
  · exact fetchOp_truncated hf ((fetchOperand_eq_none false).2 hl)
  · rw [fetchOp_op hf (fetchOperand_match hl), hmc, hin, hin]
    rfl
  · exact fetchOp_truncated hf ((fetchOperand_eq_none true).2 hl)

end Sys2Proof.Machine

namespace Sys2Proof.Machine

/-! ## The token codec -/

/-- On an in-range pair TOKEN_ENCODE is the cell (R100). -/
theorem tokenEncode_of_inRange {jump run nb : Nat} (h : tokenInRange jump run nb = true) :
    tokenEncode jump run nb = some (tokenCell jump run nb) :=
  if_pos h

/-- Settles O5: an in-range pair is what its cell names, and a cell is the cell of what it names, which is in range. -/
theorem tokenRoundTrip : Obligations.TokenRoundTrip := by
  intro nb hn
  constructor
  · intro jump run hj1 hj2 hr1 hr2
    have h : tokenInRange jump run nb = true := tokenInRange_iff.2 ⟨hn, hj1, hj2, hr1, hr2⟩
    exact ⟨_, tokenEncode_of_inRange h, tokenDecode_tokenCell h⟩
  · intro cell
    rw [tokenEncode_of_inRange (tokenDecode_inRange hn cell), tokenCell_tokenDecode hn]

/-- With nbits = 0 the jump field is empty and the whole cell is the run field (R102). -/
theorem tokenDecode_zero (cell : BitVec 16) : tokenDecode cell 0 = (1, cell.toNat + 3) := by
  simp [tokenDecode_eq, Nat.mod_one]

/-- With nbits ≥ 16 the whole cell is the jump field and the run field is empty (R102). -/
theorem tokenDecode_of_sixteen_le (cell : BitVec 16) {nb : Nat} (h : 16 ≤ nb) :
    tokenDecode cell nb = (cell.toNat + 1, 3) := by
  have hlt : cell.toNat < 2 ^ nb := cell.isLt.trans_le (Nat.pow_le_pow_right (by decide) h)
  rw [tokenDecode_eq, Nat.mod_eq_of_lt hlt, Nat.div_eq_of_lt hlt]

/-- The jump is at most W, for any nbits (R101). -/
theorem tokenDecode_jump_le (cell : BitVec 16) (nb : Nat) : (tokenDecode cell nb).1 ≤ 2 ^ nb := by
  rw [tokenDecode_eq]
  exact Nat.mod_lt _ (Nat.two_pow_pos nb)

/-- The run is at most MAXRUN when the cell has a run field of 16 − nbits bits (R101, R102). -/
theorem tokenDecode_run_le (cell : BitVec 16) {nb : Nat} (h : nb ≤ 16) :
    (tokenDecode cell nb).2 ≤ 2 ^ (16 - nb) + 2 := by
  have hrest : cell.toNat / 2 ^ nb < 2 ^ (16 - nb) := by
    rw [Nat.div_lt_iff_lt_mul (Nat.two_pow_pos nb), ← pow_add, Nat.sub_add_cancel h]
    exact cell.isLt
  rw [tokenDecode_eq]
  exact Nat.add_le_add_right hrest 2

/-- Settles O6, by which of the two fields of the cell are empty. -/
theorem tokenDecodeOutsideLegalNbits : Obligations.TokenDecodeOutsideLegalNbits := by
  refine ⟨tokenDecode_zero, fun cell _ h => tokenDecode_of_sixteen_le cell h, fun cell nb _ h => ?_⟩
  obtain ⟨hjump, hrun⟩ := tokenDecode_pos cell nb
  exact ⟨hjump, tokenDecode_jump_le cell nb, hrun, tokenDecode_run_le cell (Nat.le_succ_of_le h)⟩

end Sys2Proof.Machine

namespace Sys2Proof.Machine

/-! The proofs about the flag stream (41_flag_stream.md): the pop, the queue a word fills, the length of a flag section, and that
the unpacker returns what the packer was given. -/

/-! ## The pop and the queue a word fills -/

/-- A pop moves every flag behind the first one place up (R120). -/
theorem flagPop_bits (s : State) {i : Nat} (hi : i < 31) :
    (flagPop s).2.fq.bits.getLsbD (i + 1) = s.fq.bits.getLsbD i := by
  have hlt : decide (i + 1 < 32) = true := decide_eq_true (Nat.succ_lt_succ hi)
  simp [flagPop, BitVec.getLsbD_shiftLeft, hlt]

/-- Settles O8: with flags pending, FLAG_NEXT is the pop. -/
theorem flagNextPopsWithoutReading : Obligations.FlagNextPopsWithoutReading := by
  intro s h0
  exact ⟨(flagPop s).2, flagNext_eq_some.2 (.inl ⟨h0, rfl⟩), rfl, fun i hi => flagPop_bits s hi, rfl⟩

/-- The i-th flag of a filled queue is the inverse of the raw bit i places below the first, which is bit 30 in format 0 and bit 31
otherwise (R122). -/
theorem refillQueue_getLsbD (var : BitVec 8) (w : Word) {i : Nat} (hi : i < (refillQueue var w).count) :
    (refillQueue var w).bits.getLsbD (31 - i) = !w.getLsbD ((if var = 0 then 30 else 31) - i) := by
  rw [refillQueue_count] at hi
  rw [refillQueue]
  split_ifs at hi ⊢
  · have h31 : 31 - i < 32 := by omega
    have h30 : 30 - i < 32 := by omega
    have h1 : ¬31 - i < 1 := by omega
    rw [BitVec.getLsbD_shiftLeft, BitVec.getLsbD_not, show 31 - i - 1 = 30 - i by omega]
    simp [h31, h30, h1]
  · have h31 : 31 - i < 32 := by omega
    simp [h31]

/-- A format-0 queue does not depend on bit 31 of its word (R122). -/
theorem refillQueue_zero_congr {v w : Word} (h : ∀ i < 31, v.getLsbD i = w.getLsbD i) :
    refillQueue 0 v = refillQueue 0 w := by
  have hbits : ~~~v <<< 1 = ~~~w <<< 1 := by
    apply BitVec.eq_of_getLsbD_eq
    intro i hi
    cases i with
    | zero => simp
    | succ i => simp [h i (by omega)]
  rw [refillQueue, refillQueue, if_pos rfl, if_pos rfl, hbits]

/-- Flipping bit 31 leaves the bits below it. -/
theorem getLsbD_flipMarker (w : Word) {i : Nat} (hi : i < 31) : (w ^^^ 0x80000000).getLsbD i = w.getLsbD i := by
  have hmarker : (0x80000000 : Word) = BitVec.twoPow 32 31 := rfl
  rw [hmarker, BitVec.getLsbD_xor, BitVec.getLsbD_twoPow, decide_eq_false hi.ne', Bool.and_false, Bool.xor_false]

/-- Settles O9: the marker is the one bit a format-0 queue drops, and every other bit is returned inverted. -/
theorem flagWordGivesItsFlagsInverted : Obligations.FlagWordGivesItsFlagsInverted := by
  refine ⟨fun w => ⟨refillQueue_zero_congr fun i hi => (getLsbD_flipMarker w hi).symm, rfl, fun i hi => ?_⟩,
    fun w => ⟨rfl, fun i hi => ?_⟩⟩
  · exact refillQueue_getLsbD 0 w hi
  · exact refillQueue_getLsbD 2 w hi

/-! ## The length of a flag section -/

theorem flagPack_two_length (f : List Bool) : (flagPack f 2).length = 4 * ceilDiv f.length 32 :=
  flagPack_length f 2

theorem flagPack_zero_length (f : List Bool) : (flagPack f 0).length = 4 * (ceilDiv f.length 31 + 1) :=
  flagPack_length f 0

/-- Settles O10: the lengths of the data words and of the terminator. -/
theorem flagSectionLength : Obligations.FlagSectionLength := by
  constructor
  · intro f _
    exact ⟨flagPack_two_length f, flagPack_zero_length f, flagPack_length_mod f 2, flagPack_length_mod f 0⟩
  · intro f hf
    rw [flagPack_zero_length, flagPack_two_length, hf]
    exact ⟨rfl, rfl⟩

/-! ## Bytes that stand in IN -/

/-- The bytes `bs` stand in IN from address a on, inside IN_LEN. -/
structure StandsAt (s : State) (a : Nat) (bs : List Byte) : Prop where
  bound : a + bs.length ≤ s.inLen.toNat
  bytes : inBytes s a bs.length = bs

theorem standsAt_of_inByte {s : State} {a : Nat} {bs : List Byte} (hb : a + bs.length ≤ s.inLen.toNat)
    (h : ∀ i (hi : i < bs.length), s.inByte (a + i) = bs[i]) : StandsAt s a bs :=
  ⟨hb, List.ext_getElem (inBytes_length _ _ _) fun i hi hi' => (inBytes_getElem _ _ _ _ hi).trans (h i hi')⟩

/-- Bytes read past m are those read at a + m. -/
theorem inBytes_add (s : State) (a m n : Nat) : inBytes s a (m + n) = inBytes s a m ++ inBytes s (a + m) n := by
  simp only [inBytes, List.range_add, List.map_append, List.map_map, Function.comp_def, Nat.add_assoc]

/-- Two byte strings stand one behind the other where they stand joined. -/
theorem StandsAt.append {s : State} {a : Nat} {xs ys : List Byte} (h : StandsAt s a (xs ++ ys)) :
    StandsAt s a xs ∧ StandsAt s (a + xs.length) ys := by
  obtain ⟨hb, hbytes⟩ := h
  rw [List.length_append] at hb hbytes
  rw [inBytes_add] at hbytes
  obtain ⟨hx, hy⟩ := List.append_inj hbytes (inBytes_length _ _ _)
  exact ⟨⟨by omega, hx⟩, ⟨by omega, hy⟩⟩

/-- What stands in IN depends on IN and IN_LEN only. -/
theorem StandsAt.congr {s t : State} {a : Nat} {bs : List Byte} (h : StandsAt s a bs) (hm : t.inMem = s.inMem)
    (hl : t.inLen = s.inLen) : StandsAt t a bs :=
  ⟨hl ▸ h.bound, (inBytes_congr hm _ _).trans h.bytes⟩

/-! ## Unpacking a packed section -/

/-- A taken word leaves at least one flag pending, and at most the 32 that FQ holds (R30, R122). -/
theorem takeFlagWord_count (w : Nat) (s : State) :
    (takeFlagWord w s).fq.count ≠ 0 ∧ (takeFlagWord w s).fq.count ≤ 32 := by
  simp only [takeFlagWord, refillQueue_count]
  split_ifs <;> decide

/-- A refill reads the word at FC, and the flag is then the first of that word (R120). -/
theorem flagNext_takeFlagWord {s : State} (h0 : s.fq.count = 0) (hl : s.cur.fc + 4 ≤ s.inLen.toNat) :
    flagNext s = flagNext (takeFlagWord (leNat (inBytes s s.cur.fc 4)) s) :=
  (flagNext_eq_some.2 (.inr ⟨h0, hl, rfl⟩)).trans
    (flagNext_eq_some.2 (.inl ⟨(takeFlagWord_count _ s).1, rfl⟩)).symm

/-- Reading a chunk from its word at FC returns it and reads one word, with no flag left where the chunk fills the word (R120,
R123). -/
theorem flagsRead_flagWord {s : State} {chunk : List Bool} (hv : variantLegal s.hdr.var.toNat = true) (hne : chunk ≠ [])
    (hc : chunk.length ≤ flagsPerWord s.hdr.var) (h0 : s.fq.count = 0)
    (hw : StandsAt s s.cur.fc (leBytes 4 (flagWord s.hdr.var chunk))) :
    ∃ t, flagsRead chunk.length s = some (chunk, t) ∧ (chunk.length = flagsPerWord s.hdr.var → t.fq.count = 0) ∧
      t = { s with fq := t.fq, cur := { s.cur with fc := s.cur.fc + 4 } } := by
  obtain ⟨hl, hbytes⟩ := hw
  rw [leBytes_length] at hl hbytes
  have hword : leNat (inBytes s s.cur.fc 4) = flagWord s.hdr.var chunk := by
    rw [hbytes, leNat_leBytes, Nat.mod_eq_of_lt (show _ < 256 ^ 4 from flagWord_lt _ _)]
  have hnext := flagNext_takeFlagWord h0 hl
  rw [hword] at hnext
  obtain ⟨padding, hflags⟩ := flagsOf_flagWord hv chunk hc
  obtain ⟨t, hread, hrest, -, ht⟩ := flagsRead_pending chunk ((pending_take s _).trans hflags)
    (takeFlagWord_count _ s).2
  refine ⟨t, ?_, fun hfull => pending_zero.1 ?_, ht⟩
  · obtain ⟨f, fs, rfl⟩ := List.exists_cons_of_ne_nil hne
    rw [← hread, List.length_cons, flagsRead, flagsRead, hnext]
  · have hlen := flagsOf_length hv (flagWord s.hdr.var chunk)
    rw [hflags, List.length_append, hfull] at hlen
    rw [hrest]
    exact List.eq_nil_of_length_eq_zero (by omega)

/-- Reading flags from their data words at FC returns them and moves FC over those words, word by word (R120, R123, R127). -/
theorem flagsRead_dataWords {flags : List Bool} {s : State} (hv : variantLegal s.hdr.var.toNat = true)
    (h0 : flags ≠ [] → s.fq.count = 0) (hw : StandsAt s s.cur.fc (Reference.dataWords s.hdr.var flags)) :
    ∃ t, flagsRead flags.length s = some (flags, t) ∧
      t.cur.fc = s.cur.fc + (Reference.dataWords s.hdr.var flags).length := by
  induction hn : flags.length using Nat.strong_induction_on generalizing flags s with
  | _ n ih =>
    subst hn
    by_cases hne : flags = []
    · subst hne
      exact ⟨s, rfl, by simp [packWords_length, flagsPerWord_pos]⟩
    · have hpos := flagsPerWord_pos s.hdr.var
      have hlen := List.length_pos_of_ne_nil hne
      have hchunk : flags.take (flagsPerWord s.hdr.var) ≠ [] := by
        rw [ne_eq, List.take_eq_nil_iff]
        exact not_or.2 ⟨hpos.ne', hne⟩
      rw [Reference.dataWords_eq _ hne] at hw ⊢
      obtain ⟨hword, hlater⟩ := hw.append
      rw [leBytes_length] at hlater
      obtain ⟨t, hread, hempty, ht⟩ := flagsRead_flagWord hv hchunk (List.length_take_le _ _) (h0 hne) hword
      have hvar : t.hdr.var = s.hdr.var := by rw [ht]
      have hfc : t.cur.fc = s.cur.fc + 4 := by rw [ht]
      have hlater' : StandsAt t t.cur.fc (Reference.dataWords t.hdr.var (flags.drop (flagsPerWord s.hdr.var))) := by
        rw [hvar, hfc]
        exact hlater.congr (by rw [ht]) (by rw [ht])
      have hfull : flags.drop (flagsPerWord s.hdr.var) ≠ [] → t.fq.count = 0 := by
        rw [ne_eq, List.drop_eq_nil_iff, not_le]
        exact fun h => hempty (List.length_take_of_le h.le)
      have hshorter : (flags.drop (flagsPerWord s.hdr.var)).length < flags.length := by
        rw [List.length_drop]
        omega
      obtain ⟨u, hread', hfc'⟩ := ih _ hshorter (hvar ▸ hv) hfull hlater' rfl
      refine ⟨u, ?_, ?_⟩
      · have h := flagsRead_add _ _ hread hread'
        rwa [← List.length_append, List.take_append_drop] at h
      · rw [hfc', hfc, hvar, List.length_append, leBytes_length, Nat.add_assoc]

/-- Settles O11: the data words stand at FC, so reading n flags returns them and moves FC over ceil(n/B) words. -/
theorem flagUnpackInvertsPack : Obligations.FlagUnpackInvertsPack := by
  intro f s _ hv h0 hfc hl hbytes
  obtain ⟨hdata, -⟩ := StandsAt.append (standsAt_of_inByte hl hbytes)
  obtain ⟨t, hread, ht⟩ := flagsRead_dataWords hv (fun _ => h0) (hfc.symm ▸ hdata)
  refine ⟨t, hread, ?_⟩
  rw [ht, hfc, packWords_length]
  rfl

end Sys2Proof.Machine

namespace Sys2Proof.Machine

/-! The proofs about the decoder (42_decoder.md): the copy run to its end, the meanings of LIT and MATCH, the header's steps, DECODE
run to its end against the reference, termination, and that trailing bytes do not matter. -/

/-! ## The copy run to its end -/

/-- A loaded copy that refers inside the output, with room for SIZE bytes (R149, R151, R58). -/
structure CopyLoaded (s : State) : Prop where
  phase : s.ph = .decCopy
  alone : s.inbox = []
  start : s.copy.cr = 0
  run : 1 ≤ s.copy.crun
  jumpPos : 1 ≤ s.copy.cjump
  jumpInside : s.copy.cjump ≤ s.copy.cbase
  base : s.olen = s.copy.cbase
  unfinished : s.olen < s.hdr.size.toNat
  fits : s.hdr.size.toNat ≤ s.params.outCap

/-- How many bytes a loaded copy appends: its run, cut at SIZE (R149, R150). -/
abbrev copyCount (s : State) : Nat := min s.copy.crun (s.hdr.size.toNat - s.copy.cbase)

@[simp] theorem copied_olen (s : State) (j : Nat) : (copied s j).olen = s.olen + j := rfl

/-- A copy appends at least one byte, never past SIZE, and all its run unless it reaches SIZE (R149, R150). -/
theorem CopyLoaded.copyCount_spec {s : State} (h : CopyLoaded s) :
    0 < copyCount s ∧ s.olen + copyCount s ≤ s.hdr.size.toNat ∧
      (copyCount s < s.copy.crun → s.olen + copyCount s = s.hdr.size.toNat) := by
  have hrun := h.run
  have hbase := h.base
  have hlt := h.unfinished
  rw [copyCount]
  omega

/-- With its last byte the copy is over (R149, R150). -/
theorem CopyLoaded.copyOver {s : State} (h : CopyLoaded s) : copyOver (copied s (copyCount s)) = true := by
  obtain ⟨-, -, hcut⟩ := h.copyCount_spec
  rw [← Bool.not_eq_false, copyOver_eq_false]
  exact fun ⟨hmore, hne⟩ => hne (hcut hmore)

/-- The copy's steps end in the loop test on the state that holds all its bytes (R149, R150, R140). -/
theorem CopyLoaded.runSteps {s : State} (h : CopyLoaded s) :
    runSteps (copyCount s) s = .next (loopTest { copied s (copyCount s) with ph := .decRun }) := by
  obtain ⟨hpos, -⟩ := h.copyCount_spec
  obtain ⟨j, hj⟩ : ∃ j, copyCount s = j + 1 := ⟨copyCount s - 1, by omega⟩
  have hlast : j < copyCount s := by omega
  rw [← copyEnd_over h.copyOver, hj,
    runSteps_add (run_copied h.phase h.alone h.start h.jumpPos h.jumpInside h.base h.fits j hlast),
    runSteps_succ (copied_step h.phase h.alone h.jumpPos h.jumpInside h.base h.fits hlast), runSteps_zero]

/-- The bytes a copy appends (R149). -/
theorem CopyLoaded.outByte_inside {s : State} (h : CopyLoaded s) {n r : Nat} (hr : r < n) :
    (copied s n).outByte (s.copy.cbase + r) = s.outByte (s.copy.cbase - s.copy.cjump + r % s.copy.cjump) := by
  rw [copied_outByte, h.base, if_pos ⟨Nat.le_add_right _ _, by omega⟩, Nat.add_sub_cancel_left]

/-- A copy writes no other byte (R149). -/
theorem CopyLoaded.outByte_outside {s : State} (h : CopyLoaded s) {n a : Nat} (ha : a < s.copy.cbase ∨ s.copy.cbase + n ≤ a) :
    (copied s n).outByte a = s.outByte a := by
  rw [copied_outByte, h.base, if_neg (by omega)]

/-- The loop test's outcome: Done with OUT_LEN = SIZE, or DEC_RUN (R140, R152). -/
theorem loopTest_outcome {s : State} (h : s.olen ≤ s.hdr.size.toNat) :
    if s.olen = s.hdr.size.toNat then
      (loopTest s).ph = .idle ∧ (loopTest s).status = statusDone ∧ (loopTest s).outLen.toNat = s.hdr.size.toNat
    else (loopTest s).ph = .decRun ∧ (loopTest s).status = s.status ∧ (loopTest s).outLen = s.outLen := by
  split_ifs with he
  · rw [loopTest_finishes he.not_lt]
    exact ⟨rfl, rfl, BitVec.toNat_setWidth_of_le (by decide)⟩
  · rw [loopTest_runs (Nat.lt_of_le_of_ne h he)]
    exact ⟨rfl, rfl, rfl⟩

/-- The loop test touches the phase, STATUS and OUT_LEN only. -/
theorem loopTest_frame (s : State) :
    loopTest s = { s with ph := (loopTest s).ph, status := (loopTest s).status, outLen := (loopTest s).outLen } := by
  rw [loopTest]
  split_ifs <;> rfl

/-- Settles O15: the copy's steps lead to the loop test on the state that holds all its bytes. -/
theorem copyRepeatsThePeriod : Obligations.CopyRepeatsThePeriod := by
  intro s hp hi h0 hrun h1 h2 h3 h4 h5
  have h : CopyLoaded s := ⟨hp, hi, h0, hrun, h1, h2, h3, h4, h5⟩
  obtain ⟨-, hle, -⟩ := h.copyCount_spec
  refine ⟨_, h.runSteps, ?_, fun r hr => ?_, fun a ha => ?_, ?_, ?_⟩
  · rw [loopTest_olen]
    exact congrArg (· + copyCount s) h3
  · exact (loopTest_outByte _ _).trans (h.outByte_inside hr)
  · exact (loopTest_outByte _ _).trans (h.outByte_outside ha)
  · rw [loopTest_olen]
    exact loopTest_outcome (s := { copied s (copyCount s) with ph := .decRun }) hle
  · rw [loopTest_frame]
    rfl

end Sys2Proof.Machine

namespace Sys2Proof.Machine

/-! ## LIT and MATCH -/

theorem exec_lit (b : Byte) (s : State) : exec (.lit b) s = execLit b s := rfl

/-- The four MATCH rows run the same operation (R148). -/
theorem exec_match {jump run : Nat} {i : Instr}
    (hi : i = .matchN10 jump run ∨ i = .matchN11 jump run ∨ i = .matchN12 jump run ∨ i = .matchN13 jump run) (s : State) :
    exec i s = .next (opMatch jump run s) := by
  rcases hi with rfl | rfl | rfl | rfl <;> rfl

/-- Settles O12: LIT is the append of its byte after LC has moved. -/
theorem litAppendsItsByte : Obligations.LitAppendsItsByte := fun b s hl hc =>
  ⟨_, (exec_lit b s).trans (execLit_next hl hc), rfl, rfl, outByte_pushByte b (advanceLc s), fun _ => rfl, rfl⟩

/-- Settles O13: every MATCH row loads the copy engine after MC has moved. -/
theorem matchStartsItsCopy : Obligations.MatchStartsItsCopy := by
  intro jump run s hm hj i hi
  refine ⟨loadCopy jump run (advanceMc s), ?_, rfl, rfl, rfl, fun _ => rfl, fun _ => rfl, rfl⟩
  rw [exec_match hi, opMatch_starts hm hj]

/-- Settles O14: the operand's bound is tested before the cursor moves, and the jump after it. -/
theorem operationsRaiseTheirErrors : Obligations.OperationsRaiseTheirErrors := by
  intro s
  refine ⟨fun b hl => (exec_lit b s).trans (execLit_truncated hl), fun jump run i hi => ⟨fun hm => ?_, fun hm hj => ?_⟩⟩
  · rw [exec_match hi, opMatch_truncated hm]
  · refine ⟨raiseError .badReference (loadCopy jump run (advanceMc s)), ?_, rfl, rfl, rfl⟩
    rw [exec_match hi, opMatch_badReference hm hj]

/-! ## A step of DEC_RUN -/

/-- FLAG_NEXT is an update of the flag queue and FC (R120). -/
theorem flagNext_update {s t : State} {f : Bool} (h : flagNext s = some (f, t)) :
    ∃ q fc, t = { s with fq := q, cur := { s.cur with fc := fc } } :=
  ⟨_, _, (flagNext_frame h).1⟩

/-- While the output is unfinished, DEC_RUN runs the operation that was fetched, and then the loop test (R140, R146). -/
theorem runStep_op {s t : State} {raw : BitVec 1} {operand : List Byte} (ho : s.olen < s.hdr.size.toNat)
    (hf : fetchOp s = .op raw operand t) : runStep s = afterOp (runOp raw operand t) := by
  rw [runStep, if_pos ho, hf]

/-- An operation that decodes runs as its instruction (R87). -/
theorem runOp_ok {s : State} {raw : BitVec 1} {operand : List Byte} {i : Instr}
    (hd : decode s.hdr.nb (.op raw operand) = .ok i) : runOp raw operand s = exec i s := by
  rw [runOp, hd]

/-- Settles O19: the step is the fetched operation's, and that operation is exec of the instruction it decodes to. -/
theorem stepRunsTheDecodedOperation : Obligations.StepRunsTheDecodedOperation := by
  intro s s1 raw operand i hi hp ho hf hd
  rw [step_engine hi, engineStep_decRun hp, runStep_op ho hf, runOp_ok hd]

/-! ## The steps of DEC_HDR -/

/-- The step that reads a header field. -/
def fieldStep : HdrField → State → State
  | .sig => hdrSig
  | .size => hdrSize
  | .variant => hdrVariant
  | .loff => hdrLoff
  | .nbits => hdrNbits
  | .moff => hdrMoff

theorem hdrStep_eq_fieldStep (s : State) : hdrStep s = fieldStep s.hdrNext s := by
  rw [hdrStep]
  cases s.hdrNext <;> rfl

/-- DEC_HDR before a field, with the host waiting. -/
structure AtField (field : HdrField) (s : State) : Prop where
  phase : s.ph = .decHdr
  alone : s.inbox = []
  next : s.hdrNext = field

theorem AtField.step {field : HdrField} {s : State} (h : AtField field s) : step s = .next (fieldStep field s) := by
  rw [step_engine h.alone, engineStep_decHdr h.phase, hdrStep_eq_fieldStep, h.next]

/-- A header read past IN_LEN raises TruncatedStream (R51). -/
theorem hdrRead_truncated {s : State} {a n : Nat} (k : Nat → State) (h : s.inLen.toNat < a + n) :
    hdrRead s a n k = raiseError .truncatedStream s := by
  rw [hdrRead, memRead_eq_none.2 h]

/-- A header read inside the input goes on with the number of its bytes (R51, R52). -/
theorem hdrRead_next {s : State} {a n : Nat} (k : Nat → State) (h : a + n ≤ s.inLen.toNat) :
    hdrRead s a n k = k (leNat (inBytes s a n)) := by
  rw [hdrRead, memRead_eq_some.2 ⟨h, rfl⟩]

/-- The read of a header byte inside the input. -/
theorem hdrRead_byte {s : State} {a : Nat} (k : Nat → State) (h : a + 1 ≤ s.inLen.toNat) :
    hdrRead s a 1 k = k (s.inByte a).toNat :=
  hdrRead_next k h

/-- The 4 bytes at 0 are the signature exactly where their number is (R71, R141). -/
theorem leNat_eq_signature_iff (s : State) : leNat (inBytes s 0 4) = signature ↔ inBytes s 0 4 = signatureBytes := by
  constructor
  · intro h
    rw [← leBytes_leNat_inBytes, h]
    rfl
  · intro h
    rw [h]
    rfl

/-- Settles O16: the read of 4 bytes, and the comparison of their number. -/
theorem signatureIsChecked : Obligations.SignatureIsChecked := by
  intro s hp hi hn
  have hstep : step s = .next (hdrSig s) := AtField.step ⟨hp, hi, hn⟩
  refine ⟨fun hl => ?_, fun hl hb => ?_, fun hl hb => ?_⟩
  · rw [hstep, hdrSig, hdrRead_truncated _ hl]
  · rw [hstep, hdrSig, hdrRead_next _ hl, if_neg (mt (leNat_eq_signature_iff s).1 hb)]
  · rw [hstep, hdrSig, hdrRead_next _ hl, if_pos ((leNat_eq_signature_iff s).2 hb)]

/-- A variant byte is legal exactly where it is 0 or 2 (R8). -/
theorem variantLegal_byte_iff (b : Byte) : variantLegal b.toNat = true ↔ b = 0 ∨ b = 2 := by
  rw [variantLegal_iff]
  exact or_congr (BitVec.toNat_inj (y := 0)) (BitVec.toNat_inj (y := 2))

/-- The nbits byte passes exactly where it is legal or is not checked (R143, U1). -/
theorem nbitsPasses_iff (nb : Nat) (check : Bool) :
    (nbitsLegal nb || !check) = true ↔ (10 ≤ nb ∧ nb ≤ 13) ∨ check = false := by
  rw [Bool.or_eq_true, nbitsLegal_iff, Bool.not_eq_true']

/-- The variant step where its byte is inside the input (R142). -/
theorem hdrVariant_next {s : State} (h : 8 ≤ s.inLen.toNat) :
    hdrVariant s =
      if s.inByte 7 = 0 ∨ s.inByte 7 = 2 then { s with hdr := { s.hdr with var := s.inByte 7 }, hdrNext := .loff }
      else raiseError .unsupportedVariant { s with hdr := { s.hdr with var := s.inByte 7 } } := by
  rw [hdrVariant, hdrRead_byte (a := 7) _ h]
  simp only [BitVec.ofNat_toNat, BitVec.setWidth_eq, variantLegal_byte_iff]

/-- The nbits step where its byte is inside the input (R143). -/
theorem hdrNbits_next {s : State} (h : 12 ≤ s.inLen.toNat) :
    hdrNbits s =
      if (10 ≤ (s.inByte 11).toNat ∧ (s.inByte 11).toNat ≤ 13) ∨ s.params.decCheckNbits = false then
        { s with hdr := { s.hdr with nb := s.inByte 11 }, hdrNext := .moff }
      else raiseError (.configError .invalidNbits) { s with hdr := { s.hdr with nb := s.inByte 11 } } := by
  rw [hdrNbits, hdrRead_byte (a := 11) _ h]
  simp only [BitVec.ofNat_toNat, BitVec.setWidth_eq, nbitsPasses_iff]

/-- Settles O17: each step reads its byte, loads it and then checks it. -/
theorem headerModesAreChecked : Obligations.HeaderModesAreChecked := by
  intro s hp hi
  refine ⟨fun hn => ?_, fun hn => ?_⟩
  · have hstep : step s = .next (hdrVariant s) := AtField.step ⟨hp, hi, hn⟩
    refine ⟨fun hl => by rw [hstep, hdrVariant, hdrRead_truncated _ hl], fun hl => ⟨_, hstep, ?_⟩⟩
    rw [hdrVariant_next hl]
    split_ifs
    · exact ⟨rfl, hp, rfl, rfl⟩
    · exact ⟨rfl, rfl, rfl⟩
  · have hstep : step s = .next (hdrNbits s) := AtField.step ⟨hp, hi, hn⟩
    refine ⟨fun hl => by rw [hstep, hdrNbits, hdrRead_truncated _ hl], fun hl => ⟨_, hstep, ?_⟩⟩
    rw [hdrNbits_next hl]
    split_ifs
    · exact ⟨rfl, hp, rfl, rfl⟩
    · exact ⟨rfl, rfl, rfl⟩

/-- The mask of R144 keeps the low 3 bytes, which MOFF holds. -/
theorem moff_toNat (v : Nat) : (BitVec.ofNat 24 (v &&& 0xFFFFFF)).toNat = v % 2 ^ 24 := by
  rw [show v &&& 0xFFFFFF = v % 2 ^ 24 from Nat.and_two_pow_sub_one_eq_mod v 24, BitVec.toNat_ofNat, Nat.mod_mod]

/-- The low 3 of the 4 bytes at a (R144). -/
theorem leNat_inBytes_four_mod (s : State) (a : Nat) :
    leNat (inBytes s a 4) % 2 ^ 24 =
      (s.inByte a).toNat + 256 * (s.inByte (a + 1)).toNat + 65536 * (s.inByte (a + 2)).toNat := by
  have h0 := (s.inByte a).isLt
  have h1 := (s.inByte (a + 1)).isLt
  have h2 := (s.inByte (a + 2)).isLt
  simp only [inBytes, List.range_succ, List.range_zero, List.nil_append, List.cons_append, List.map_cons, List.map_nil,
    leNat, Nat.add_zero]
  omega

/-- The header with MOFF read (R144). -/
abbrev withMoff (v : Nat) (s : State) : State :=
  { s with hdr := { s.hdr with moff := BitVec.ofNat 24 (v &&& 0xFFFFFF) } }

/-- The step that reads MOFF, where its bytes are inside the input (R144, R145, R140). -/
theorem hdrMoff_next {s : State} (h : 16 ≤ s.inLen.toNat) :
    hdrMoff s = loopTest (initDecode (withMoff (leNat (inBytes s 12 4)) s)) :=
  hdrRead_next _ h

/-- Settles O18: the step that reads MOFF is INIT_DECODE and the loop test. -/
theorem headerEndsInInitDecode : Obligations.HeaderEndsInInitDecode := by
  intro s hp hi hn hl
  have hstep : step s = .next (hdrMoff s) := AtField.step ⟨hp, hi, hn⟩
  rw [hdrMoff_next hl] at hstep
  refine ⟨_, hstep, ?_, by rw [loopTest_cur, loopTest_hdr]; rfl, by rw [loopTest_fq]; rfl, loopTest_olen _, ?_⟩
  · rw [loopTest_hdr, ← leNat_inBytes_four_mod s 12]
    exact moff_toNat _
  · split_ifs with h0
    · rw [loopTest_finishes (s := initDecode (withMoff _ s)) (by simp [h0])]
      exact ⟨rfl, rfl, by simp [h0]⟩
    · have hsize : s.hdr.size.toNat ≠ 0 := mt (BitVec.eq_of_toNat_eq (y := 0)) h0
      rw [loopTest_runs (s := initDecode (withMoff _ s)) (Nat.pos_of_ne_zero hsize)]
      exact ⟨rfl, rfl⟩

end Sys2Proof.Machine

namespace Sys2Proof.Reference

open Sys2Proof.Machine

/-! ## The reference's reads in sequence

The reference stops at its first error, so it is a sequence of reads and checks joined by `Except.bind`. -/

/-- The header as a sequence of reads and checks (R141 to R145). -/
theorem header_eq_bind (checkNbits : Bool) (input : List Byte) :
    header checkNbits input =
      (field input 0 4).bind fun sig =>
        if sig ≠ 0x1A7A6C55 then .error .formatError else
        (field input 4 3).bind fun size => (field input 7 1).bind fun var =>
          if ¬(var = 0 ∨ var = 2) then .error .unsupportedVariant else
          (field input 8 3).bind fun loff => (field input 11 1).bind fun nb =>
            if checkNbits = true ∧ ¬(10 ≤ nb ∧ nb ≤ 13) then .error (.configError .invalidNbits) else
            (field input 12 4).bind fun moff =>
              .ok ({ size := size, var := var, nb := nb }, { flags := [], fc := 16, lc := loff, mc := moff % 2 ^ 24 }) := by
  unfold header
  cases field input 0 4 with
  | error e => rfl
  | ok sig =>
    refine if_congr Iff.rfl rfl ?_
    cases field input 4 3 with
    | error e => rfl
    | ok size =>
      cases field input 7 1 with
      | error e => rfl
      | ok var =>
        refine if_congr Iff.rfl rfl ?_
        cases field input 8 3 with
        | error e => rfl
        | ok loff =>
          cases field input 11 1 with
          | error e => rfl
          | ok nb =>
            refine if_congr Iff.rfl rfl ?_
            cases field input 12 4 <;> rfl


/-- Where no flag is pending, the next one comes from the word at FC (R120). -/
theorem nextFlag_refill (input : List Byte) (m : Modes) {r : Rest} (h : r.flags = []) :
    nextFlag input m r = (field input r.fc 4).bind fun w =>
      .ok ((flagsOf m.var w).headD false, { r with flags := (flagsOf m.var w).tail, fc := r.fc + 4 }) := by
  rw [nextFlag, h]
  cases field input r.fc 4 <;> rfl

/-- A pending flag is the next one (R120). -/
theorem nextFlag_pending (input : List Byte) (m : Modes) {r : Rest} {f : Bool} {fs : List Bool} (h : r.flags = f :: fs) :
    nextFlag input m r = .ok (f, { r with flags := fs }) := by
  rw [nextFlag, h]

/-- A Match with its token decoded (R148 to R151). -/
def matchToken (m : Modes) (r : Rest) (out : List Byte) (token : Nat × Nat) : Except Err (List Byte × Rest) :=
  if out.length < token.1 then .error .badReference
  else .ok (out ++ repetition out token.1 (min token.2 (m.size - out.length)), { r with mc := r.mc + 2 })

theorem operation_match (input : List Byte) (m : Modes) (r : Rest) (out : List Byte) :
    operation input m true r out = (field input r.mc 2).bind fun cell =>
      matchToken m r out (tokenDecode (BitVec.ofNat 16 cell) m.nb) := by
  rw [operation, if_pos rfl]
  cases field input r.mc 2 <;> rfl

theorem operation_literal (input : List Byte) (m : Modes) (r : Rest) (out : List Byte) :
    operation input m false r out = (field input r.lc 1).bind fun b =>
      .ok (out ++ [BitVec.ofNat 8 b], { r with lc := r.lc + 1 }) := by
  rw [operation, if_neg Bool.false_ne_true]
  cases field input r.lc 1 <;> rfl

/-- One round of the loop: a flag and its operation (R146). -/
def round (input : List Byte) (m : Modes) (r : Rest) (out : List Byte) : Except Err (List Byte × Rest) :=
  (nextFlag input m r).bind fun x => operation input m x.1 x.2 out

/-- The loop is a round, and the loop again on what the round left (R140). -/
theorem operations_eq_bind (input : List Byte) (m : Modes) (fuel : Nat) (r : Rest) {out : List Byte}
    (h : out.length < m.size) :
    operations input m (fuel + 1) r out = (round input m r out).bind fun y => operations input m fuel y.2 y.1 := by
  rw [operations, if_pos h, round]
  cases nextFlag input m r with
  | error e => rfl
  | ok x => cases hop : operation input m x.1 x.2 out <;> simp only [Except.bind, hop]

theorem decodeStream_eq_bind (checkNbits : Bool) (input : List Byte) :
    decodeStream checkNbits input = (header checkNbits input).bind fun x => operations input x.1 x.1.size x.2 [] := by
  rw [decodeStream]
  cases header checkNbits input <;> rfl

/-! ## Trailing bytes -/

/-- y answers every value that x answers. -/
def Extends {α : Type} (x y : Except Err α) : Prop := ∀ v, x = .ok v → y = .ok v

theorem Extends.refl {α : Type} (x : Except Err α) : Extends x x := fun _ h => h

theorem Extends.bind {α β : Type} {x y : Except Err α} {f g : α → Except Err β} (h : Extends x y)
    (hfg : ∀ v, Extends (f v) (g v)) : Extends (x.bind f) (y.bind g) := by
  cases x with
  | error e => exact fun _ hv => nomatch hv
  | ok a =>
    rw [h a rfl]
    exact hfg a

/-- A check that does not read the input comes before both. -/
theorem Extends.check {α : Type} (p : Prop) [Decidable p] (e : Err) {x y : Except Err α} (h : Extends x y) :
    Extends (if p then .error e else x) (if p then .error e else y) := by
  split_ifs
  · exact .refl _
  · exact h

/-- A field inside the input is the same with more bytes behind it (R51). -/
theorem field_extends (input extra : List Byte) (a n : Nat) : Extends (field input a n) (field (input ++ extra) a n) := by
  intro v h
  unfold field at h ⊢
  split_ifs at h with hl
  rw [if_neg (by rw [List.length_append]; omega), ← h, List.drop_append_of_le_length (by omega),
    List.take_append_of_le_length (by rw [List.length_drop]; omega)]

theorem header_extends (checkNbits : Bool) (input extra : List Byte) :
    Extends (header checkNbits input) (header checkNbits (input ++ extra)) := by
  rw [header_eq_bind, header_eq_bind]
  have hf := field_extends input extra
  refine (hf 0 4).bind fun sig => .check _ _ ?_
  refine (hf 4 3).bind fun size => (hf 7 1).bind fun var => .check _ _ ?_
  exact (hf 8 3).bind fun loff => (hf 11 1).bind fun nb => .check _ _ ((hf 12 4).bind fun moff => .refl _)

theorem nextFlag_extends (input extra : List Byte) (m : Modes) (r : Rest) :
    Extends (nextFlag input m r) (nextFlag (input ++ extra) m r) := by
  cases hr : r.flags with
  | nil =>
    rw [nextFlag_refill _ _ hr, nextFlag_refill _ _ hr]
    exact (field_extends input extra _ _).bind fun _ => .refl _
  | cons f fs =>
    rw [nextFlag_pending _ _ hr, nextFlag_pending _ _ hr]
    exact .refl _

theorem operation_extends (input extra : List Byte) (m : Modes) (isMatch : Bool) (r : Rest) (out : List Byte) :
    Extends (operation input m isMatch r out) (operation (input ++ extra) m isMatch r out) := by
  cases isMatch with
  | false =>
    rw [operation_literal, operation_literal]
    exact (field_extends input extra _ _).bind fun _ => .refl _
  | true =>
    rw [operation_match, operation_match]
    exact (field_extends input extra _ _).bind fun _ => .refl _

theorem round_extends (input extra : List Byte) (m : Modes) (r : Rest) (out : List Byte) :
    Extends (round input m r out) (round (input ++ extra) m r out) :=
  (nextFlag_extends input extra m r).bind fun x => operation_extends input extra m x.1 x.2 out

theorem operations_extends (input extra : List Byte) (m : Modes) (fuel : Nat) (r : Rest) (out : List Byte) :
    Extends (operations input m fuel r out) (operations (input ++ extra) m fuel r out) := by
  induction fuel generalizing r out with
  | zero => exact .refl _
  | succ fuel ih =>
    by_cases h : out.length < m.size
    · rw [operations_eq_bind _ _ _ _ h, operations_eq_bind _ _ _ _ h]
      exact (round_extends input extra m r out).bind fun y => ih y.2 y.1
    · rw [operations_finished _ (Nat.not_lt.1 h), operations_finished _ (Nat.not_lt.1 h)]
      exact .refl _

/-- Settles O26: every read that the decoding made answers the same with more bytes behind the input. -/
theorem decodeIgnoresTrailingBytes : Obligations.DecodeIgnoresTrailingBytes := by
  intro checkNbits input extra out h
  rw [decodeStream_eq_bind] at h ⊢
  exact (header_extends checkNbits input extra).bind (fun x => operations_extends input extra x.1 _ x.2 []) out h

end Sys2Proof.Reference

namespace Sys2Proof.Machine

/-! ## A run that computes a reference result -/

/-- Some number of steps leads from s to t. -/
def Leads (s t : State) : Prop := ∃ k, runSteps k s = .next t

theorem Leads.refl (s : State) : Leads s s := ⟨0, rfl⟩

theorem Leads.of_step {s t : State} (h : step s = .next t) : Leads s t := ⟨1, runSteps_succ h⟩

theorem Leads.trans {s t u : State} (h : Leads s t) (h' : Leads t u) : Leads s u := by
  obtain ⟨j, hj⟩ := h
  obtain ⟨k, hk⟩ := h'
  exact ⟨j + k, (runSteps_add hj).trans hk⟩

/-- From s the machine does what a reference result says: on an error it ends idle with that error, and on a value it comes to a
state that stands in P to it. -/
def Yields {α : Type} (s : State) (result : Except Err α) (P : α → State → Prop) : Prop :=
  match result with
  | .error e => ∃ t, Leads s t ∧ t.ph = .idle ∧ t.status = statusError e
  | .ok v => ∃ t, Leads s t ∧ P v t

section
variable {α β : Type} {s t : State} {P Q : α → State → Prop}

theorem yields_ok {v : α} (h : P v s) : Yields s (.ok v) P := ⟨s, .refl s, h⟩

theorem yields_raise (e : Err) (s : State) : Yields (raiseError e s) (.error e) P := ⟨_, .refl _, rfl, rfl⟩

theorem Yields.after {x : Except Err α} (h : Yields t x P) (hs : Leads s t) : Yields s x P := by
  cases x with
  | error e =>
    obtain ⟨u, hu, hend⟩ := h
    exact ⟨u, hs.trans hu, hend⟩
  | ok v =>
    obtain ⟨u, hu, hP⟩ := h
    exact ⟨u, hs.trans hu, hP⟩

theorem Yields.weaken {x : Except Err α} (h : Yields s x P) (hPQ : ∀ v t, P v t → Q v t) : Yields s x Q := by
  cases x with
  | error e => exact h
  | ok v =>
    obtain ⟨u, hu, hP⟩ := h
    exact ⟨u, hu, hPQ v u hP⟩

/-- One part of a run after another. -/
theorem Yields.bind {x : Except Err α} {f : α → Except Err β} {R : β → State → Prop} (h : Yields s x P)
    (hf : ∀ v t, P v t → Yields t (f v) R) : Yields s (x.bind f) R := by
  cases x with
  | error e => exact h
  | ok v =>
    obtain ⟨u, hu, hP⟩ := h
    exact (hf v u hP).after hu

end

/-! ## What the decoder's state says in the reference's terms -/

/-- The modes in the header registers. -/
def modesOf (s : State) : Reference.Modes := { size := s.hdr.size.toNat, var := s.hdr.var.toNat, nb := s.hdr.nb.toNat }

/-- The rest of the stream, by the flag queue and the cursors. -/
def restOf (s : State) : Reference.Rest := { flags := pending s, fc := s.cur.fc, lc := s.cur.lc, mc := s.cur.mc }

/-- The output so far. -/
def outputOf (s : State) : List Byte := (List.range s.olen).map s.outByte

@[simp] theorem outputOf_length (s : State) : (outputOf s).length = s.olen := by simp [outputOf]

theorem outputOf_getElem (s : State) (i : Nat) (h : i < (outputOf s).length) : (outputOf s)[i] = s.outByte i := by
  simp [outputOf]

theorem outputOf_getD {s : State} {i : Nat} (h : i < s.olen) : (outputOf s).getD i 0 = s.outByte i := by
  rw [List.getD_eq_getElem _ _ (by rwa [outputOf_length]), outputOf_getElem]

theorem outputOf_pushByte (b : Byte) (s : State) : outputOf (pushByte b s) = outputOf s ++ [b] := by
  have hold : (List.range s.olen).map (pushByte b s).outByte = outputOf s :=
    List.map_congr_left fun i hi => by rw [outByte_pushByte, if_neg (List.mem_range.1 hi).ne]
  rw [outputOf, pushByte_olen, List.range_succ, List.map_append, hold, List.map_singleton, outByte_pushByte, if_pos rfl]

/-- The output n bytes into a copy: the reference's repetition behind the old output (R149). -/
theorem CopyLoaded.outputOf_copied {s : State} (h : CopyLoaded s) (n : Nat) :
    outputOf (copied s n) = outputOf s ++ Reference.repetition (outputOf s) s.copy.cjump n := by
  have hold : (List.range s.olen).map (copied s n).outByte = outputOf s :=
    List.map_congr_left fun i hi => h.outByte_outside (.inl (h.base ▸ List.mem_range.1 hi))
  rw [outputOf, copied_olen, List.range_add, List.map_append, hold, List.map_map, Reference.repetition]
  refine congrArg (outputOf s ++ ·) (List.map_congr_left fun r hr => ?_)
  have hlt := Nat.mod_lt r h.jumpPos
  have hin := h.jumpInside
  rw [Function.comp_apply, outputOf_length, h.base, h.outByte_inside (List.mem_range.1 hr),
    outputOf_getD (by rw [h.base]; omega)]

/-! ## Fields of the input -/

theorem field_past {s : State} {a n : Nat} (h : s.inLen.toNat < a + n) :
    Reference.field (inputBytes s) a n = .error .truncatedStream := by
  rw [field_inputBytes, memRead_eq_none.2 h]

theorem field_inside {s : State} {a n : Nat} (h : a + n ≤ s.inLen.toNat) :
    Reference.field (inputBytes s) a n = .ok (leNat (inBytes s a n)) := by
  rw [field_inputBytes, memRead_eq_some.2 ⟨h, rfl⟩]

/-! ## One round of the loop -/

/-- FLAG_NEXT past the input is the reference's truncated flag (R120). -/
theorem nextFlag_restOf_none {s : State} (h : flagNext s = none) :
    Reference.nextFlag (inputBytes s) (modesOf s) (restOf s) = .error .truncatedStream := by
  obtain ⟨h0, hl⟩ := flagNext_eq_none.1 h
  have hfield : Reference.field (inputBytes s) (restOf s).fc 4 = .error .truncatedStream := field_past hl
  rw [Reference.nextFlag_refill _ _ (pending_zero.2 h0), hfield]
  rfl

/-- FLAG_NEXT is the reference's next flag (R120, R121). -/
theorem nextFlag_restOf {s t : State} {f : Bool} (h : flagNext s = some (f, t)) (hq : s.fq.count ≤ 32) :
    Reference.nextFlag (inputBytes s) (modesOf s) (restOf s) = .ok (f, restOf t) := by
  rcases flagNext_eq_some.1 h with ⟨h0, h⟩ | ⟨h0, hl, h⟩ <;> obtain ⟨rfl, rfl⟩ := Prod.ext_iff.1 h
  · exact Reference.nextFlag_pending _ _ (pending_pop h0 hq)
  · have hfield : Reference.field (inputBytes s) (restOf s).fc 4 = .ok (leNat (inBytes s s.cur.fc 4)) := field_inside hl
    obtain ⟨hne, hle⟩ := takeFlagWord_count (leNat (inBytes s s.cur.fc 4)) s
    have hflags := (pending_take s (leNat (inBytes s s.cur.fc 4))).symm.trans (pending_pop hne hle)
    rw [Reference.nextFlag_refill _ _ (pending_zero.2 h0), hfield]
    simp only [Except.bind, modesOf, hflags]
    rfl

/-- A literal past the input is the reference's truncated operation (R147). -/
theorem operation_literal_past {s : State} (h : s.inLen.toNat < s.cur.lc + 1) :
    Reference.operation (inputBytes s) (modesOf s) false (restOf s) (outputOf s) = .error .truncatedStream := by
  have hfield : Reference.field (inputBytes s) (restOf s).lc 1 = .error .truncatedStream := field_past h
  rw [Reference.operation_literal, hfield]
  rfl

/-- LIT is the reference's literal (R147). -/
theorem operation_literal_inside {s : State} (h : s.cur.lc + 1 ≤ s.inLen.toNat) :
    Reference.operation (inputBytes s) (modesOf s) false (restOf s) (outputOf s) =
      .ok (outputOf (pushByte (s.inByte s.cur.lc) (advanceLc s)), restOf (pushByte (s.inByte s.cur.lc) (advanceLc s))) := by
  have hfield : Reference.field (inputBytes s) (restOf s).lc 1 = .ok (s.inByte s.cur.lc).toNat := field_inside h
  rw [Reference.operation_literal, hfield, outputOf_pushByte]
  simp only [Except.bind, BitVec.ofNat_toNat, BitVec.setWidth_eq]
  rfl

/-- A cell past the input is the reference's truncated operation (R148). -/
theorem operation_match_past {s : State} (h : s.inLen.toNat < s.cur.mc + 2) :
    Reference.operation (inputBytes s) (modesOf s) true (restOf s) (outputOf s) = .error .truncatedStream := by
  have hfield : Reference.field (inputBytes s) (restOf s).mc 2 = .error .truncatedStream := field_past h
  rw [Reference.operation_match, hfield]
  rfl

/-- The cell at MC is the reference's (R148). -/
theorem operation_match_inside {s : State} (h : s.cur.mc + 2 ≤ s.inLen.toNat) :
    Reference.operation (inputBytes s) (modesOf s) true (restOf s) (outputOf s) =
      Reference.matchToken (modesOf s) (restOf s) (outputOf s) (tokenAt s) := by
  have hfield : Reference.field (inputBytes s) (restOf s).mc 2 =
      .ok (leNat [s.inByte s.cur.mc, s.inByte (s.cur.mc + 1)]) := field_inside h
  rw [Reference.operation_match, hfield]
  rfl

/-- A decoder between two operations, with the host waiting: the output does not pass SIZE and SIZE fits (R58, R140). -/
structure Between (s : State) : Prop where
  alone : s.inbox = []
  queue : s.fq.count ≤ 32
  notPast : s.olen ≤ s.hdr.size.toNat
  fits : s.hdr.size.toNat ≤ s.params.outCap

/-- u has the input and the header of s, and the bytes of OUT from SIZE on. -/
structure Continues (s u : State) : Prop where
  inMem : u.inMem = s.inMem
  inLen : u.inLen = s.inLen
  hdr : u.hdr = s.hdr
  beyond : ∀ a, s.hdr.size.toNat ≤ a → u.outByte a = s.outByte a

theorem Continues.inputBytes {s u : State} (h : Continues s u) : inputBytes u = inputBytes s := by
  rw [Machine.inputBytes, h.inLen]
  exact inBytes_congr h.inMem _ _

theorem Continues.modesOf {s u : State} (h : Continues s u) : modesOf u = modesOf s := by
  rw [Machine.modesOf, h.hdr]
  rfl

theorem Continues.trans {s t u : State} (h : Continues s t) (h' : Continues t u) : Continues s u where
  inMem := h'.inMem.trans h.inMem
  inLen := h'.inLen.trans h.inLen
  hdr := h'.hdr.trans h.hdr
  beyond a ha := (h'.beyond a (h.hdr ▸ ha)).trans (h.beyond a ha)

/-- What a round leaves: the loop test is next, on a longer output and a rest that are the reference's. -/
def RoundDone (s : State) (y : List Byte × Reference.Rest) (t : State) : Prop :=
  ∃ u, t = loopTest u ∧ y = (outputOf u, restOf u) ∧ Between u ∧ Continues s u ∧ s.olen < u.olen

theorem RoundDone.of_continues {s s1 t : State} {y : List Byte × Reference.Rest} (h : RoundDone s1 y t)
    (hc : Continues s s1) (ho : s1.olen = s.olen) : RoundDone s y t := by
  obtain ⟨u, ht, hy, hu, hcu, hlt⟩ := h
  exact ⟨u, ht, hy, hu, hc.trans hcu, ho ▸ hlt⟩

/-- A literal's round (R147). -/
theorem roundDone_literal {s : State} (hs : Between s) (ho : s.olen < s.hdr.size.toNat) (b : Byte) :
    RoundDone s (outputOf (pushByte b (advanceLc s)), restOf (pushByte b (advanceLc s)))
      (loopTest (pushByte b (advanceLc s))) :=
  ⟨_, rfl, rfl, { alone := hs.alone, queue := hs.queue, notPast := ho, fits := hs.fits },
    { inMem := rfl, inLen := rfl, hdr := rfl,
      beyond := fun a ha => by rw [outByte_pushByte, advanceLc_olen, if_neg (by omega)]; rfl },
    Nat.lt_succ_self _⟩

/-- A Match's copy inside the output is the reference's Match, run to its end (R148 to R150). -/
theorem yields_copy {s : State} (hs : Between s) (ho : s.olen < s.hdr.size.toNat) {token : Nat × Nat}
    (hjump : 1 ≤ token.1) (hrun : 1 ≤ token.2) (hin : token.1 ≤ s.olen) :
    Yields (loadCopy token.1 token.2 (advanceMc s))
      (Reference.matchToken (modesOf s) (restOf s) (outputOf s) token) (RoundDone s) := by
  set c := loadCopy token.1 token.2 (advanceMc s)
  have hc : CopyLoaded c := ⟨rfl, hs.alone, rfl, hrun, hjump, hin, rfl, ho, hs.fits⟩
  obtain ⟨hpos, hle, -⟩ := hc.copyCount_spec
  have hend : Leads c (loopTest { copied c (copyCount c) with ph := .decRun }) := ⟨_, hc.runSteps⟩
  have hout := hc.outputOf_copied (copyCount c)
  rw [Reference.matchToken, if_neg (by rw [outputOf_length]; omega), outputOf_length]
  refine (yields_ok ⟨_, rfl, ?_, ?_, ?_, ?_⟩ : Yields _ _ _).after hend
  · exact Prod.ext hout.symm rfl
  · exact { alone := hs.alone, queue := hs.queue, notPast := hle, fits := hs.fits }
  · exact { inMem := rfl, inLen := rfl, hdr := rfl, beyond := fun a ha => hc.outByte_outside (.inr (le_trans hle ha)) }
  · exact Nat.lt_add_of_pos_right hpos

/-- One operation of DEC_RUN, with its copy, is a round of the reference (R146 to R151). -/
theorem yields_round {s : State} (hs : Between s) (hp : s.ph = .decRun) (ho : s.olen < s.hdr.size.toNat) :
    Yields s (Reference.round (inputBytes s) (modesOf s) (restOf s) (outputOf s)) (RoundDone s) := by
  have hstep : step s = runStep s := by rw [step_engine hs.alone, engineStep_decRun hp]
  rcases runStep_cases ho with ⟨hn, h⟩ | ⟨s1, f, hn, hc⟩
  · rw [Reference.round, nextFlag_restOf_none hn]
    exact (yields_raise _ _).after (.of_step (hstep.trans h))
  have hflag := nextFlag_restOf hn hs.queue
  have hq := flagNext_count_le hn hs.queue
  obtain ⟨q, fc, rfl⟩ := flagNext_update hn
  set s1 : State := { s with fq := q, cur := { s.cur with fc := fc } }
  have hb : Between s1 := { alone := hs.alone, queue := hq, notPast := hs.notPast, fits := hs.fits }
  have hcont : Continues s s1 := { inMem := rfl, inLen := rfl, hdr := rfl, beyond := fun _ _ => rfl }
  rw [Reference.round, hflag]
  suffices h : Yields s (Reference.operation (inputBytes s1) (modesOf s1) f (restOf s1) (outputOf s1)) (RoundDone s1) from
    h.weaken fun _ _ hd => hd.of_continues hcont rfl
  rcases hc with ⟨rfl, hl, h⟩ | ⟨rfl, hl, h⟩ | ⟨rfl, hl, h⟩ | ⟨rfl, hl, hj, h⟩ | ⟨rfl, hl, hj, h⟩
  · rw [operation_literal_past (s := s1) hl]
    exact (yields_raise _ _).after (.of_step (hstep.trans h))
  · have hroom : s1.olen < s1.params.outCap := ho.trans_le hs.fits
    have hlit := afterOp_execLit (s := s1) (b := s.inByte s.cur.lc) hl hroom hp
    rw [operation_literal_inside (s := s1) hl]
    exact (yields_ok (roundDone_literal hb ho _)).after (.of_step (hstep.trans (h.trans hlit)))
  · rw [operation_match_past (s := s1) hl]
    exact (yields_raise _ _).after (.of_step (hstep.trans h))
  · rw [operation_match_inside (s := s1) hl, Reference.matchToken, if_pos (by rw [outputOf_length]; exact hj)]
    exact (yields_raise _ _).after (.of_step (hstep.trans h))
  · obtain ⟨hjump, hrun⟩ : 1 ≤ (tokenAt s).1 ∧ 3 ≤ (tokenAt s).2 := tokenDecode_pos _ _
    rw [operation_match_inside (s := s1) hl]
    exact (yields_copy hb ho hjump (by omega) hj).after (.of_step (hstep.trans h))

/-! ## The loop -/

/-- The end of DECODE (R152): Done, with the reference's output in OUT, of SIZE bytes, and no byte from OUT[SIZE] on written
since s. -/
structure Finished (s : State) (out : List Byte) (t : State) : Prop where
  phase : t.ph = .idle
  status : t.status = statusDone
  size : out.length = s.hdr.size.toNat
  outLen : t.outLen.toNat = s.hdr.size.toNat
  bytes : ∀ i (h : i < out.length), t.outByte i = out[i]
  beyond : ∀ a, s.hdr.size.toNat ≤ a → t.outByte a = s.outByte a

theorem Finished.of_continues {s u t : State} {out : List Byte} (h : Finished u out t) (hc : Continues s u) :
    Finished s out t where
  phase := h.phase
  status := h.status
  size := hc.hdr ▸ h.size
  outLen := hc.hdr ▸ h.outLen
  bytes := h.bytes
  beyond a ha := (h.beyond a (hc.hdr ▸ ha)).trans (hc.beyond a ha)

theorem finished_finishDecode {s : State} (h : s.olen = s.hdr.size.toNat) : Finished s (outputOf s) (finishDecode s) where
  phase := rfl
  status := rfl
  size := by rw [outputOf_length, h]
  outLen := BitVec.toNat_setWidth_of_le (by decide)
  bytes i hi := (outputOf_getElem s i hi).symm
  beyond _ _ := rfl

/-- From the loop test on, the decoder does what the reference's loop does (R140, R146). -/
theorem yields_operations (fuel : Nat) {s : State} (hs : Between s) (hfuel : s.hdr.size.toNat ≤ s.olen + fuel) :
    Yields (loopTest s) (Reference.operations (inputBytes s) (modesOf s) fuel (restOf s) (outputOf s)) (Finished s) := by
  induction fuel generalizing s with
  | zero =>
    have heq : s.olen = s.hdr.size.toNat := Nat.le_antisymm hs.notPast hfuel
    rw [loopTest_finishes heq.not_lt]
    exact yields_ok (finished_finishDecode heq)
  | succ fuel ih =>
    by_cases ho : s.olen < s.hdr.size.toNat
    · have hround := yields_round (s := { s with ph := .decRun }) { hs with } rfl ho
      rw [loopTest_runs ho, Reference.operations_eq_bind _ _ _ _ (by rwa [outputOf_length])]
      refine hround.bind fun y t hd => ?_
      obtain ⟨u, rfl, rfl, hu, hc, hlt⟩ := hd
      replace hc : Continues s u := { hc with }
      have hrest := ih hu (by rw [hc.hdr]; replace hlt : s.olen < u.olen := hlt; omega)
      rw [hc.inputBytes, hc.modesOf] at hrest
      exact hrest.weaken fun _ _ hf => hf.of_continues hc
    · have heq : s.olen = s.hdr.size.toNat := Nat.le_antisymm hs.notPast (Nat.not_lt.1 ho)
      rw [loopTest_finishes ho, Reference.operations_finished _ (by rw [outputOf_length]; exact heq.ge)]
      exact yields_ok (finished_finishDecode heq)

/-! ## The header -/

/-- A header step that reads a field is the reference's read, if what follows on its value is (R51). -/
theorem yields_hdrRead {α : Type} {s : State} {a n : Nat} {k : Nat → State} {f : Nat → Except Err α}
    {P : α → State → Prop} (hs : step s = .next (hdrRead s a n k)) (hk : ∀ v, memRead s a n = some v → Yields (k v) (f v) P) :
    Yields s ((Reference.field (inputBytes s) a n).bind f) P := by
  refine Yields.after ?_ (.of_step hs)
  rw [hdrRead, field_inputBytes]
  cases hv : memRead s a n with
  | none => exact yields_raise _ _
  | some v => exact hk v hv

/-- What was read fits its register. -/
theorem toNat_ofNat_of_memRead {s : State} {a n v : Nat} (h : memRead s a n = some v) :
    (BitVec.ofNat (8 * n) v).toNat = v :=
  Option.some.inj ((memRead_toNat_ofNat h).symm.trans h)

/-- What the header leaves: the loop test is next, on no output, with the reference's modes and rest. -/
def HeaderDone (s : State) (x : Reference.Modes × Reference.Rest) (t : State) : Prop :=
  ∃ u, t = loopTest u ∧ x = (modesOf u, restOf u) ∧ u.olen = 0 ∧ Between u ∧ inputBytes u = inputBytes s ∧
    ∀ a, u.outByte a = s.outByte a

/-- The machine's check of a field is the reference's. -/
theorem yields_check {α : Type} {p q : Prop} [Decidable p] [Decidable q] {e : Err} {s t : State} {x : Except Err α}
    {P : α → State → Prop} (hq : q ↔ ¬p) (h : p → Yields t x P) :
    Yields (if p then t else raiseError e s) (if q then .error e else x) P := by
  by_cases hp : p
  · rw [if_pos hp, if_neg (fun h' => hq.1 h' hp)]
    exact h hp
  · rw [if_neg hp, if_pos (hq.2 hp)]
    exact yields_raise e s

theorem nbitsFails_iff (nb : Nat) (check : Bool) :
    (check = true ∧ ¬(10 ≤ nb ∧ nb ≤ 13)) ↔ ¬(nbitsLegal nb || !check) = true := by
  rw [nbitsPasses_iff, not_or, Bool.not_eq_false, and_comm]

/-- The fields of a header that passes every check (R141 to R144). -/
structure HeaderFields (s : State) (size var loff nb moff : Nat) : Prop where
  sig : memRead s 0 4 = some signature
  size : memRead s 4 3 = some size
  variant : memRead s 7 1 = some var ∧ variantLegal var = true
  loff : memRead s 8 3 = some loff
  nbits : memRead s 11 1 = some nb ∧ (nbitsLegal nb || !s.params.decCheckNbits) = true
  moff : memRead s 12 4 = some moff

theorem HeaderFields.declaredSize {s : State} {size var loff nb moff : Nat} (h : HeaderFields s size var loff nb moff) :
    declaredSize s = some size := by
  obtain ⟨hvar, hvarOk⟩ := h.variant
  obtain ⟨hnb, hnbOk⟩ := h.nbits
  simp [Machine.declaredSize, h.sig, h.size, hvar, hvarOk, hnb, hnbOk, h.moff]

/-- The header registers once every field is loaded (R28). -/
def headerOf (size var loff nb moff : Nat) : Header where
  size := BitVec.ofNat 24 size
  var := BitVec.ofNat 8 var
  loff := BitVec.ofNat 24 loff
  nb := BitVec.ofNat 8 nb
  moff := BitVec.ofNat 24 (moff &&& 0xFFFFFF)

/-- INIT_DECODE leaves the modes and the rest that the reference starts from (R145). -/
theorem HeaderFields.headerDone {s : State} {size var loff nb moff : Nat} (h : HeaderFields s size var loff nb moff)
    (hi : s.inbox = []) (hf : decodeFits s = true) (field : HdrField) :
    HeaderDone s ({ size := size, var := var, nb := nb }, { flags := [], fc := 16, lc := loff, mc := moff % 2 ^ 24 })
      (loopTest (initDecode { s with hdrNext := field, hdr := headerOf size var loff nb moff })) := by
  have hsize : (BitVec.ofNat 24 size).toNat = size := toNat_ofNat_of_memRead h.size
  have hvar : (BitVec.ofNat 8 var).toNat = var := toNat_ofNat_of_memRead h.variant.1
  have hloff : (BitVec.ofNat 24 loff).toNat = loff := toNat_ofNat_of_memRead h.loff
  have hnb : (BitVec.ofNat 8 nb).toNat = nb := toNat_ofNat_of_memRead h.nbits.1
  refine ⟨_, rfl, ?_, rfl, ?_, rfl, fun _ => rfl⟩
  · simp only [modesOf, restOf, initDecode_hdr, initDecode_cur, headerOf, hsize, hvar, hloff, hnb, moff_toNat]
    rfl
  · have hfits : (BitVec.ofNat 24 size).toNat ≤ s.params.outCap := hsize.le.trans (decodeFits_iff.1 hf _ h.declaredSize)
    exact { alone := hi, queue := Nat.zero_le _, notPast := Nat.zero_le _, fits := hfits }

/-- DEC_HDR, field by field, is the reference's header (R141 to R145). -/
theorem yields_header {s : State} (h : AtField .sig s) (hf : decodeFits s = true) :
    Yields s (Reference.header s.params.decCheckNbits (inputBytes s)) (HeaderDone s) := by
  have hstep : ∀ field hdr, AtField field { s with hdrNext := field, hdr := hdr } := fun _ _ => ⟨h.phase, h.alone, rfl⟩
  rw [Reference.header_eq_bind]
  refine yields_hdrRead h.step fun sig hsig => yields_check Iff.rfl fun hsigOk => ?_
  refine yields_hdrRead (hstep .size _).step fun size (hsize : memRead s 4 3 = some size) => ?_
  refine yields_hdrRead (hstep .variant _).step fun var (hvar : memRead s 7 1 = some var) =>
    yields_check (not_congr variantLegal_iff.symm) fun hvarOk => ?_
  refine yields_hdrRead (hstep .loff _).step fun loff (hloff : memRead s 8 3 = some loff) => ?_
  refine yields_hdrRead (hstep .nbits _).step fun nb (hnb : memRead s 11 1 = some nb) =>
    yields_check (nbitsFails_iff nb _) fun hnbOk => ?_
  refine yields_hdrRead (hstep .moff _).step fun moff (hmoff : memRead s 12 4 = some moff) => yields_ok ?_
  have hfields : HeaderFields s size var loff nb moff :=
    { sig := hsigOk ▸ hsig, size := hsize, variant := ⟨hvar, hvarOk⟩, loff := hloff, nbits := ⟨hnb, hnbOk⟩, moff := hmoff }
  exact hfields.headerDone h.alone hf .moff

/-! ## DECODE -/

/-- DECODE from its first step on is the reference's DECODE (R140). -/
theorem yields_decodeStream {s : State} (h : AtField .sig s) (hf : decodeFits s = true) :
    Yields s (Reference.decodeStream s.params.decCheckNbits (inputBytes s)) fun out t =>
      t.ph = .idle ∧ t.status = statusDone ∧ t.outLen.toNat = out.length ∧
        (∀ i (h : i < out.length), t.outByte i = out[i]) ∧ ∀ a, out.length ≤ a → t.outByte a = s.outByte a := by
  rw [Reference.decodeStream_eq_bind]
  refine (yields_header h hf).bind fun x t hd => ?_
  obtain ⟨u, rfl, rfl, ho, hu, hin, hout⟩ := hd
  have hnone : outputOf u = [] := List.length_eq_zero_iff.1 ((outputOf_length u).trans ho)
  have hops := yields_operations u.hdr.size.toNat hu (Nat.le_add_left _ _)
  rw [hin, hnone] at hops
  refine hops.weaken fun out t hend => ?_
  exact ⟨hend.phase, hend.status, hend.outLen.trans hend.size.symm, hend.bytes,
    fun a ha => (hend.beyond a (hend.size ▸ ha)).trans (hout a)⟩

/-- Settles O24: the launch leads to DEC_HDR's first step, and from there the machine does what the reference does. -/
theorem decodeRunsAsTheReference : Obligations.DecodeRunsAsTheReference := by
  intro s s0 variant nbits hi h
  obtain ⟨-, -, hf, rfl⟩ := launch_eq_next h
  have hyields := yields_decodeStream
    (s := { beginCommand (storeCtrl 1 nbits variant s) with ph := .decHdr, hdrNext := .sig }) ⟨rfl, hi, rfl⟩ hf
  replace hyields : Yields _ (Reference.decodeStream s.params.decCheckNbits (inBytes s 0 s.inLen.toNat)) _ := hyields
  cases hr : Reference.decodeStream s.params.decCheckNbits (inBytes s 0 s.inLen.toNat) with
  | error e =>
    rw [hr] at hyields
    obtain ⟨t, ⟨k, hk⟩, hph, hst⟩ := hyields
    exact ⟨k, t, hk, hph, hst⟩
  | ok out =>
    rw [hr] at hyields
    obtain ⟨t, ⟨k, hk⟩, hph, hend⟩ := hyields
    exact ⟨k, t, hk, hph, hend⟩

end Sys2Proof.Machine

namespace Sys2Proof.Machine

/-! ## DECODE terminates -/

/-- A decoder phase. -/
def Decoding (s : State) : Prop := s.ph = .decHdr ∨ s.ph = .decRun ∨ s.ph = .decCopy

/-- A bound on the steps that DECODE still takes: one for each header field, and at most two for each byte of output, the one that
takes an operation and the one that copies a byte (R154, R257). -/
def stepsLeft (s : State) : Nat :=
  match s.ph with
  | .decHdr => 6 - s.hdrNext.rank + 2 * max24
  | .decRun => 2 * (s.hdr.size.toNat - s.olen)
  | .decCopy => 2 * (s.hdr.size.toNat - s.olen) - 1
  | _ => 0

theorem stepsLeft_decHdr {s : State} (h : s.ph = .decHdr) : stepsLeft s = 6 - s.hdrNext.rank + 2 * max24 := by
  rw [stepsLeft, h]

theorem stepsLeft_decRun {s : State} (h : s.ph = .decRun) : stepsLeft s = 2 * (s.hdr.size.toNat - s.olen) := by
  rw [stepsLeft, h]

theorem stepsLeft_decCopy {s : State} (h : s.ph = .decCopy) : stepsLeft s = 2 * (s.hdr.size.toNat - s.olen) - 1 := by
  rw [stepsLeft, h]

/-- SIZE has 24 bits (R28). -/
theorem size_le_max24 (s : State) : s.hdr.size.toNat ≤ max24 := Nat.le_of_lt_succ s.hdr.size.isLt

theorem stepsLeft_le (s : State) : stepsLeft s ≤ 6 + 2 * max24 := by
  have := size_le_max24 s
  unfold stepsLeft
  split <;> omega

/-- t is idle, or it is decoding with fewer than n steps left. -/
def Nearer (n : Nat) (t : State) : Prop := t.ph = .idle ∨ (Decoding t ∧ stepsLeft t < n)

theorem nearer_raiseError (n : Nat) (e : Err) (s : State) : Nearer n (raiseError e s) := .inl rfl

theorem nearer_loopTest {n : Nat} {s : State} (h : 2 * (s.hdr.size.toNat - s.olen) < n) : Nearer n (loopTest s) := by
  by_cases ho : s.olen < s.hdr.size.toNat
  · rw [loopTest_runs ho]
    exact .inr ⟨.inr (.inl rfl), h⟩
  · rw [loopTest_finishes ho]
    exact .inl rfl

/-- A later header field is nearer. -/
theorem nearer_nextField {s : State} {next : HdrField} (hdr : Header) (hp : s.ph = .decHdr)
    (hn : s.hdrNext.rank < next.rank) : Nearer (stepsLeft s) { s with hdr := hdr, hdrNext := next } := by
  have hle : next.rank ≤ 5 := by cases next <;> decide
  refine .inr ⟨.inl hp, ?_⟩
  rw [stepsLeft_decHdr hp, stepsLeft_decHdr (by exact hp)]
  dsimp only
  omega

theorem nearer_hdrRead {m : Nat} {s : State} {a n : Nat} {k : Nat → State} (hk : ∀ v, Nearer m (k v)) :
    Nearer m (hdrRead s a n k) := by
  unfold hdrRead
  split
  · exact nearer_raiseError m _ s
  · exact hk _

/-- A header step ends the command, or it reads the next field or enters DEC_RUN (R141 to R145). -/
theorem nearer_hdrStep {s : State} (hp : s.ph = .decHdr) : Nearer (stepsLeft s) (hdrStep s) := by
  unfold hdrStep
  cases hn : s.hdrNext with
  | sig =>
    refine nearer_hdrRead fun v => ?_
    split_ifs
    · exact nearer_nextField s.hdr hp (by rw [hn]; decide)
    · exact nearer_raiseError _ _ s
  | size => exact nearer_hdrRead fun v => nearer_nextField _ hp (by rw [hn]; decide)
  | variant =>
    refine nearer_hdrRead fun v => ?_
    dsimp only
    split_ifs
    · exact nearer_nextField _ hp (by rw [hn]; decide)
    · exact nearer_raiseError _ _ _
  | loff => exact nearer_hdrRead fun v => nearer_nextField _ hp (by rw [hn]; decide)
  | nbits =>
    refine nearer_hdrRead fun v => ?_
    dsimp only
    split_ifs
    · exact nearer_nextField _ hp (by rw [hn]; decide)
    · exact nearer_raiseError _ _ _
  | moff =>
    refine nearer_hdrRead fun v => nearer_loopTest ?_
    have := size_le_max24 s
    rw [stepsLeft_decHdr hp, hn]
    simp only [initDecode_hdr, initDecode_olen, HdrField.rank]
    omega

/-- A step of DEC_RUN answers, and it ends the command, appends a byte or starts a copy (R146 to R151). -/
theorem runStep_nearer {s : State} (hr : RunInv s) (hp : s.ph = .decRun) :
    ∃ t, runStep s = .next t ∧ Nearer (stepsLeft s) t := by
  have ho := hr.unfinished
  rw [stepsLeft_decRun hp]
  rcases runStep_cases ho with ⟨-, h⟩ | ⟨s1, f, hf, hc⟩
  · exact ⟨_, h, nearer_raiseError _ _ _⟩
  obtain ⟨q, fc, rfl⟩ := flagNext_update hf
  rcases hc with ⟨-, -, h⟩ | ⟨-, hl, h⟩ | ⟨-, -, h⟩ | ⟨-, -, -, h⟩ | ⟨-, -, -, h⟩
  · exact ⟨_, h, nearer_raiseError _ _ _⟩
  · have hroom : s.olen < s.params.outCap := ho.trans_le hr.fits
    refine ⟨_, h.trans (afterOp_execLit hl hroom hp), nearer_loopTest ?_⟩
    simp only [pushByte_hdr, pushByte_olen, advanceLc_hdr, advanceLc_olen]
    omega
  · exact ⟨_, h, nearer_raiseError _ _ _⟩
  · exact ⟨_, h, nearer_raiseError _ _ _⟩
  · refine ⟨_, h, .inr ⟨.inr (.inr rfl), ?_⟩⟩
    rw [stepsLeft_decCopy rfl]
    simp only [loadCopy_hdr, loadCopy_olen, advanceMc_hdr, advanceMc_olen]
    omega

/-- A step of DEC_COPY answers, and it appends a byte (R149, R150). -/
theorem copyStep_nearer {s : State} (hr : RunInv s) (hc : CopyInv s) (hp : s.ph = .decCopy) :
    ∃ t, copyStep s = .next t ∧ Nearer (stepsLeft s) t := by
  have ho := hr.unfinished
  have hroom : s.olen < s.params.outCap := ho.trans_le hr.fits
  have hsource : s.copy.cbase - s.copy.cjump + s.copy.cr < s.olen := by
    have := hc.jumpPos
    have := hc.jumpInside
    have := hc.position
    omega
  refine ⟨_, copyStep_next hc.more ho.ne hsource hroom, ?_⟩
  rw [stepsLeft_decCopy hp]
  set b := s.outByte (s.copy.cbase - s.copy.cjump + s.copy.cr)
  cases hover : copyOver (countCopied (pushByte b s)) with
  | true =>
    rw [copyEnd_over hover]
    refine nearer_loopTest ?_
    simp only [countCopied_hdr, countCopied_olen, pushByte_hdr, pushByte_olen]
    omega
  | false =>
    rw [copyEnd_more hover]
    refine .inr ⟨.inr (.inr hp), ?_⟩
    rw [stepsLeft_decCopy (by exact hp)]
    simp only [countCopied_hdr, countCopied_olen, pushByte_hdr, pushByte_olen]
    omega

theorem Inv.decCopy {s : State} (h : Inv s) (hp : s.ph = .decCopy) : RunInv s ∧ CopyInv s := by
  simpa [PhaseInv, hp] using h.phase

/-- In a decoder phase of the invariant the engine answers, and comes nearer to IDLE (R154). -/
theorem engineStep_nearer {s : State} (h : Inv s) (hd : Decoding s) :
    ∃ t, engineStep s = .next t ∧ Nearer (stepsLeft s) t := by
  rcases hd with hp | hp | hp
  · rw [engineStep_decHdr hp]
    exact ⟨_, rfl, nearer_hdrStep hp⟩
  · rw [engineStep_decRun hp]
    exact runStep_nearer (h.decRun hp) hp
  · rw [engineStep_decCopy hp]
    obtain ⟨hr, hc⟩ := h.decCopy hp
    exact copyStep_nearer hr hc hp

/-- While the decoder runs there is a step left. -/
theorem stepsLeft_pos {s : State} (h : Inv s) (hd : Decoding s) : 0 < stepsLeft s := by
  rcases hd with hp | hp | hp
  · rw [stepsLeft_decHdr hp]
    exact Nat.add_pos_right _ (by decide)
  · have := (h.decRun hp).unfinished
    rw [stepsLeft_decRun hp]
    omega
  · have := (h.decCopy hp).1.unfinished
    rw [stepsLeft_decCopy hp]
    omega

/-- A decoder with at most n steps left is idle within n steps. -/
theorem runSteps_to_idle {n : Nat} {s : State} (h : Inv s) (hi : s.inbox = []) (hs : Nearer (n + 1) s) :
    ∃ k t, k ≤ n ∧ runSteps k s = .next t ∧ t.ph = .idle := by
  induction n generalizing s with
  | zero =>
    rcases hs with hs | ⟨hd, hlt⟩
    · exact ⟨0, s, le_rfl, rfl, hs⟩
    · exact absurd hlt (Nat.not_lt.2 (stepsLeft_pos h hd))
  | succ n ih =>
    rcases hs with hs | ⟨hd, hlt⟩
    · exact ⟨0, s, Nat.zero_le _, rfl, hs⟩
    · obtain ⟨t, hstep, ht⟩ := engineStep_nearer h hd
      obtain ⟨⟨-, -, -, -, hbox⟩, -⟩ := engineStep_same hstep
      have ht' : Nearer (n + 1) t := ht.imp_right fun ⟨hdt, hltt⟩ => ⟨hdt, by omega⟩
      obtain ⟨k, u, hk, hrun, hu⟩ := ih (inv_engineStep h hstep) (hbox.trans hi) ht'
      exact ⟨k + 1, u, Nat.succ_le_succ hk, (runSteps_succ ((step_engine hi).trans hstep)).trans hrun, hu⟩

/-- Settles O25: every step in a decoder phase leaves fewer, and the first at most 6 + 2·0xFFFFFF. -/
theorem decodeTerminates : Obligations.DecodeTerminates := by
  intro s h hi hd
  exact runSteps_to_idle h hi (.inr ⟨hd, Nat.lt_succ_of_le (stepsLeft_le s)⟩)

end Sys2Proof.Machine

namespace Sys2Proof.Machine

/-! The proofs about the encoder (43_encoder.md). First the match finder, the search and the assembly, each said once in the
reference's terms; then ENCODE as the reference's ENCODE, its termination, and the round trip. -/

/-! ## The match finder -/

/-- Settles O29: LEN counts the agreeing bytes from 0 up and stops at its bound or at the first difference. -/
theorem matchLengthIsTheLongestAgreement : Obligations.MatchLengthIsTheLongestAgreement := by
  intro s p d
  have hle := matchLen_le s p d
  obtain ⟨-, -, hagree, hstop⟩ := lenFrom_spec s p d (min s.enc.maxrun (s.enc.n - p)) 0
  exact ⟨hle.trans (min_le_left _ _), hle.trans (min_le_right _ _), fun i hi => hagree i (Nat.zero_le i) hi,
    fun hmax hend => hstop (by rw [Nat.zero_add]; exact lt_min hmax hend)⟩

/-- MATCH_FIND's best pair after the rounds d = 1 .. n (R185). -/
def bestUpTo (s : State) (p n : Nat) : Nat × Nat := ((List.range n).map (· + 1)).foldl (better s p) (0, 0)

theorem bestUpTo_succ (s : State) (p n : Nat) : bestUpTo s p (n + 1) = better s p (bestUpTo s p n) (n + 1) := by
  simp [bestUpTo, List.range_succ]

theorem bestMatch_eq_bestUpTo (s : State) (p : Nat) : bestMatch s p = bestUpTo s p (min s.enc.w p) := rfl

/-- The best pair has the longest match so far, and every smaller distance a shorter one (R185). -/
theorem bestUpTo_spec (s : State) (p n : Nat) :
    (∀ d, 1 ≤ d → d ≤ n → matchLen s p d ≤ (bestUpTo s p n).2) ∧
    (∀ d, 1 ≤ d → d < (bestUpTo s p n).1 → matchLen s p d < (bestUpTo s p n).2) := by
  induction n with
  | zero => exact ⟨fun d h1 h2 => by omega, fun d _ h2 => absurd h2 (Nat.not_lt_zero d)⟩
  | succ n ih =>
    obtain ⟨hlongest, hclosest⟩ := ih
    rw [bestUpTo_succ, better]
    split_ifs with hlonger
    · have hshorter : ∀ d, 1 ≤ d → d ≤ n → matchLen s p d < matchLen s p (n + 1) := fun d h1 h2 =>
        (hlongest d h1 h2).trans_lt hlonger
      refine ⟨fun d h1 h2 => ?_, fun d h1 h2 => hshorter d h1 (Nat.le_of_lt_succ h2)⟩
      rcases Nat.le_succ_iff.1 h2 with h | rfl
      · exact (hshorter d h1 h).le
      · exact le_rfl
    · refine ⟨fun d h1 h2 => ?_, hclosest⟩
      rcases Nat.le_succ_iff.1 h2 with h | rfl
      · exact hlongest d h1 h
      · exact Nat.not_lt.1 hlonger

/-- MATCH_FIND's best pair has the longest match of D(p) (R183, R185). -/
theorem matchLen_le_bestMatch {s : State} {p d : Nat} (h1 : 1 ≤ d) (h2 : d ≤ min s.enc.w p) :
    matchLen s p d ≤ (bestMatch s p).2 := by
  rw [bestMatch_eq_bestUpTo]
  obtain ⟨hlongest, -⟩ := bestUpTo_spec s p (min s.enc.w p)
  exact hlongest d h1 h2

/-- A distance below the best one has a shorter match (R185). -/
theorem matchLen_lt_bestMatch {s : State} {p d : Nat} (h1 : 1 ≤ d) (h2 : d < (bestMatch s p).1) :
    matchLen s p d < (bestMatch s p).2 := by
  rw [bestMatch_eq_bestUpTo] at h2 ⊢
  obtain ⟨-, hclosest⟩ := bestUpTo_spec s p (min s.enc.w p)
  exact hclosest d h1 h2

theorem matchFind_long {s : State} {p : Nat} (h : minRun ≤ (bestMatch s p).2) :
    matchFind s p = .mat (bestMatch s p).1 (bestMatch s p).2 := if_pos h

theorem matchFind_short {s : State} {p : Nat} (h : ¬minRun ≤ (bestMatch s p).2) :
    matchFind s p = .literal (s.inByte p) := if_neg h

/-- Settles O30: the rounds keep the longest match, and replace it by a strictly longer one only. -/
theorem matchFindIsLongestThenClosest : Obligations.MatchFindIsLongestThenClosest := by
  intro s p
  by_cases hr : minRun ≤ (bestMatch s p).2
  · have hfind := matchFind_long hr
    obtain ⟨hpos, hwindow, hmin, hlen⟩ := matchFind_eq_mat hfind
    rw [hfind]
    exact ⟨hpos, hwindow, hlen, hmin, fun d => matchLen_le_bestMatch, fun d => matchLen_lt_bestMatch⟩
  · rw [matchFind_short hr]
    exact ⟨rfl, fun d h1 h2 => (matchLen_le_bestMatch h1 h2).trans_lt (Nat.not_le.1 hr)⟩

/-! ## The match finder in the reference's terms -/

theorem inBytes_succ (s : State) (a n : Nat) : inBytes s a (n + 1) = s.inByte a :: inBytes s (a + 1) n := by
  rw [Nat.add_comm, inBytes_add]
  rfl

theorem take_inBytes (s : State) (a : Nat) {k n : Nat} (h : k ≤ n) : (inBytes s a n).take k = inBytes s a k := by
  rw [← Nat.add_sub_of_le h, inBytes_add, List.take_left' (inBytes_length s a k)]

theorem drop_inputBytes (s : State) (a : Nat) : (inputBytes s).drop a = inBytes s a (s.inLen.toNat - a) := by
  rcases Nat.le_total a s.inLen.toNat with h | h
  · have hsplit := inBytes_add s 0 a (s.inLen.toNat - a)
    rw [Nat.add_sub_of_le h, Nat.zero_add] at hsplit
    rw [inputBytes, hsplit, List.drop_left' (inBytes_length s 0 a)]
  · rw [List.drop_eq_nil_of_le (by simpa using h), Nat.sub_eq_zero_of_le h]
    rfl

theorem getD_inputBytes {s : State} {a : Nat} (h : a < s.inLen.toNat) : (inputBytes s).getD a 0 = s.inByte a := by
  rw [List.getD_eq_getElem _ _ (by rwa [inBytes_length]), inBytes_getElem, Nat.zero_add]

/-- LEN from l on counts the leading pairs of equal bytes (R184). -/
theorem lenFrom_eq (s : State) (p d left l : Nat) :
    lenFrom s p d left l =
      l + (((inBytes s (p + l) left).zip (inBytes s (p - d + l) left)).takeWhile fun xy => xy.1 == xy.2).length := by
  induction left generalizing l with
  | zero => rfl
  | succ left ih =>
    rw [lenFrom, inBytes_succ, inBytes_succ, List.zip_cons_cons, List.takeWhile_cons]
    by_cases he : s.inByte (p + l) = s.inByte (p - d + l)
    · simp only [he, if_true, beq_self_eq_true, List.length_cons, ih, Nat.add_assoc, Nat.add_comm 1]
    · simp only [he, if_false, beq_eq_false_iff_ne.2 he, Bool.false_eq_true, List.length_nil, Nat.add_zero]

/-- LEN(p, d) is the reference's agreement (R184). -/
theorem agreement_inputBytes {s : State} (h : s.enc.n = s.inLen.toNat) (p d : Nat) :
    Reference.agreement (inputBytes s) s.enc.maxrun p d = matchLen s p d := by
  have hpairs : ((inputBytes s).drop p).zip ((inputBytes s).drop (p - d)) =
      (((inputBytes s).drop p).zip ((inputBytes s).drop (p - d))).take (s.inLen.toNat - p) :=
    (List.take_of_length_le (by simp)).symm
  rw [matchLen, lenFrom_eq, Reference.agreement, List.take_takeWhile, hpairs, List.take_take, List.zip, List.take_zipWith,
    drop_inputBytes, drop_inputBytes, take_inBytes _ _ (min_le_right _ _), take_inBytes _ _ (by omega), h, Nat.zero_add]
  rfl

/-- The longest match is the greatest LEN (R185). -/
theorem bestMatch_length (s : State) (p : Nat) :
    (((List.range (min s.enc.w p)).map (· + 1)).map (matchLen s p)).foldl max 0 = (bestMatch s p).2 := by
  rw [List.foldl_map, bestMatch]
  refine List.foldl_hom Prod.snd (init := (0, 0)) fun best d => ?_
  rw [better]
  split_ifs with h
  · exact max_eq_right h.le
  · exact max_eq_left (Nat.not_lt.1 h)

/-- The first distance that has the longest match is the best one (R185). -/
theorem find_bestMatch {s : State} {p : Nat} (h : minRun ≤ (bestMatch s p).2) :
    ((List.range (min s.enc.w p)).map (· + 1)).find? (fun d => matchLen s p d == (bestMatch s p).2) =
      some (bestMatch s p).1 := by
  obtain ⟨hpos, hwindow, -, hlen⟩ := matchFind_eq_mat (matchFind_long h)
  have hfirst : (List.range (min s.enc.w p)).find? ((fun d => matchLen s p d == (bestMatch s p).2) ∘ (· + 1)) =
      some ((bestMatch s p).1 - 1) := by
    refine List.find?_range_eq_some.2 ⟨?_, List.mem_range.2 (by omega), fun j hj => ?_⟩
    · rw [Function.comp_apply, Nat.sub_add_cancel hpos]
      exact beq_iff_eq.2 hlen.symm
    · have hlt := matchLen_lt_bestMatch (s := s) (p := p) (Nat.le_add_left 1 j) (by omega)
      simp [hlt.ne]
  rw [List.find?_map, hfirst, Option.map_some, Nat.sub_add_cancel hpos]

/-- MATCH_FIND is the reference's choice (R185). -/
theorem choice_inputBytes {s : State} (h : EncInv s) {p : Nat} (hp : p < s.enc.n) :
    Reference.choice (inputBytes s) s.enc.nb.toNat p = matchFind s p := by
  have hlen : Reference.agreement (inputBytes s) (2 ^ (16 - s.enc.nb.toNat) + 2) p = matchLen s p := by
    rw [← show s.enc.maxrun = 2 ^ (16 - s.enc.nb.toNat) + 2 from h.maxrun]
    exact funext (agreement_inputBytes h.input p)
  have hwindow : 2 ^ s.enc.nb.toNat = s.enc.w := h.window.symm
  simp only [Reference.choice, hlen, hwindow, bestMatch_length, getD_inputBytes (h.input ▸ hp)]
  by_cases hr : minRun ≤ (bestMatch s p).2
  · rw [find_bestMatch hr, matchFind_long hr]
    exact if_pos hr
  · rw [matchFind_short hr]
    split
    · exact if_neg hr
    · rfl

/-! ## The search -/

/-- A Match that MATCH_FIND answers has a cell (R100, R185). -/
theorem tokenInRange_of_matchFind {s : State} (h : EncInv s) {p jump run : Nat} (hm : matchFind s p = .mat jump run) :
    tokenInRange jump run s.enc.nb.toNat = true := by
  obtain ⟨hpos, hwindow, hmin, rfl⟩ := matchFind_eq_mat hm
  have hmax := (matchLen_le s p jump).trans (min_le_left _ _)
  rw [h.window] at hwindow
  rw [h.maxrun] at hmax
  exact tokenInRange_iff.2 ⟨h.nbits, hpos, hwindow.trans (min_le_left _ _), hmin, hmax⟩

/-- The pools with the flag bits, literals and cells of `ops` behind (R187 to R189). -/
def Pools.withOps (nb : Nat) (q : Pools) (ops : List Op) : Pools where
  flagbits := q.flagbits ++ ops.map Reference.isMatchOf
  litpool := q.litpool ++ ops.flatMap Reference.literalOf
  tokpool := q.tokpool ++ ops.flatMap (Reference.cellBytesOf nb)

theorem Pools.withOps_nil (nb : Nat) (q : Pools) : q.withOps nb [] = q := by
  simp [Pools.withOps]

theorem Pools.withOps_cons (nb : Nat) (q : Pools) (op : Op) (ops : List Op) :
    q.withOps nb (op :: ops) = (q.withOps nb [op]).withOps nb ops := by
  simp [Pools.withOps]

theorem Pools.withOps_literal (nb : Nat) (q : Pools) (b : Byte) :
    q.withOps nb [.literal b] = { q with flagbits := q.flagbits ++ [false], litpool := q.litpool ++ [b] } := by
  simp [Pools.withOps, Reference.isMatchOf, Reference.literalOf, Reference.cellBytesOf]

theorem Pools.withOps_mat (nb : Nat) (q : Pools) (jump run : Nat) :
    q.withOps nb [.mat jump run] =
      { q with
        flagbits := q.flagbits ++ [true]
        tokpool := q.tokpool ++ leBytes 2 (tokenCell jump run nb).toNat } := by
  simp [Pools.withOps, Reference.isMatchOf, Reference.literalOf, Reference.cellBytesOf]

/-- The state once `ops` are in the pools and EN_P has passed what they cover (R186 to R189). -/
def covered (ops : List Op) (s : State) : State :=
  { s with
    pools := s.pools.withOps s.enc.nb.toNat ops
    enc := { s.enc with p := s.enc.p + (ops.map opSpan).sum } }

theorem covered_nil (s : State) : covered [] s = s := by
  simp [covered, Pools.withOps_nil]

theorem covered_cons (op : Op) (ops : List Op) (s : State) : covered (op :: ops) s = covered ops (covered [op] s) := by
  simp [covered, ← Pools.withOps_cons, Nat.add_assoc]

/-- EMIT of MATCH_FIND's operation has a value: TOKEN_ENCODE is called inside its domain (R104, R187 to R189). -/
theorem emitOp_matchFind {s : State} (h : EncInv s) (p : Nat) :
    emitOp (matchFind s p) s = some { s with pools := s.pools.withOps s.enc.nb.toNat [matchFind s p] } := by
  cases hm : matchFind s p with
  | literal b => rw [Pools.withOps_literal]; rfl
  | mat jump run =>
    rw [emitOp, tokenEncode_of_inRange (tokenInRange_of_matchFind h hm), Pools.withOps_mat]
    rfl

/-- A step of ENC_SEARCH puts MATCH_FIND's operation in the pools and moves EN_P by what it covers (R186 to R189). -/
theorem searchStep_next {s : State} (h : EncInv s) (hp : s.enc.p < s.enc.n) :
    searchStep s = .next (searchTest (covered [matchFind s s.enc.p] s)) := by
  rw [searchStep, if_pos hp, emitOp_matchFind h]
  rfl

theorem EncInv.covered {s : State} (h : EncInv s) (hp : s.enc.p < s.enc.n) : EncInv (covered [matchFind s s.enc.p] s) :=
  h.emit hp (emitOp_matchFind h s.enc.p)

theorem Inv.encSearch {s : State} (h : Inv s) (hp : s.ph = .encSearch) : EncInv s ∧ s.enc.p < s.enc.n := by
  simpa [PhaseInv, hp] using h.phase

theorem Inv.encAsm {s : State} (h : Inv s) (hp : s.ph = .encAsm) : EncInv s ∧ s.enc.p = s.enc.n := by
  simpa [PhaseInv, hp] using h.phase

theorem searchTest_ph (s : State) : (searchTest s).ph = if s.enc.p < s.enc.n then s.ph else .encAsm := by
  rw [searchTest]
  split_ifs <;> rfl

/-- Settles O31: in the pools the operation is its flag bit and its byte or cell. -/
theorem searchStepEmitsItsOperation : Obligations.SearchStepEmitsItsOperation := by
  intro s hs hp hi
  obtain ⟨h, hlt⟩ := hs.encSearch hp
  refine ⟨_, (step_engine hi).trans ((engineStep_encSearch hp).trans (searchStep_next h hlt)), ?_, ?_, ?_⟩
  · rw [searchTest_pools, searchTest_enc]
    cases hm : matchFind s s.enc.p with
    | literal b => exact ⟨Pools.withOps_literal _ _ b, rfl⟩
    | mat jump run =>
      refine ⟨(Pools.withOps_mat _ _ jump run).trans ?_, rfl⟩
      rw [tokenCell_toNat (tokenInRange_of_matchFind h hm)]
  · rw [searchTest_ph, searchTest_enc, show (covered [matchFind s s.enc.p] s).ph = .encSearch from hp]
    rfl
  · rw [searchTest]
    split_ifs <;> rfl

/-- An operation covers at least one byte (R186). -/
theorem covered_p_gt (s : State) : s.enc.p < (covered [matchFind s s.enc.p] s).enc.p := by
  simp only [covered, List.map_singleton, List.sum_singleton]
  cases hm : matchFind s s.enc.p with
  | literal b => exact Nat.lt_succ_self _
  | mat jump run =>
    obtain ⟨-, -, hmin, -⟩ := matchFind_eq_mat hm
    exact Nat.lt_add_of_pos_right (Nat.lt_of_lt_of_le (by decide) hmin)

/-- The steps of ENC_SEARCH from EN_P on put the reference's greedy operations in the pools, cover the input and enter ENC_ASM
(R186). -/
theorem leads_search (fuel : Nat) {s : State} (h : EncInv s) (hi : s.inbox = []) (hph : s.ph = .encSearch)
    (hfuel : s.enc.n ≤ s.enc.p + fuel) :
    ∃ t, t = covered (Reference.greedy (inputBytes s) s.enc.nb.toNat fuel s.enc.p) s ∧ EncInv t ∧
      Leads (searchTest s) { t with ph := .encAsm } := by
  induction fuel generalizing s with
  | zero =>
    rw [searchTest_over (Nat.not_lt.2 hfuel)]
    exact ⟨s, (covered_nil s).symm, h, .refl _⟩
  | succ fuel ih =>
    rw [Reference.greedy, inBytes_length, ← h.input]
    by_cases hp : s.enc.p < s.enc.n
    · have hstep := (step_engine hi).trans ((engineStep_encSearch hph).trans (searchStep_next h hp))
      have hmore := covered_p_gt s
      obtain ⟨t, ht, hinv, hrun⟩ := ih (h.covered hp) hi hph
        (show s.enc.n ≤ (covered [matchFind s s.enc.p] s).enc.p + fuel by omega)
      rw [if_pos hp, choice_inputBytes h hp, searchTest_more hp, covered_cons]
      exact ⟨t, ht, hinv, (Leads.of_step hstep).trans hrun⟩
    · rw [if_neg hp, covered_nil, searchTest_over hp]
      exact ⟨s, rfl, h, .refl _⟩

/-! ## The container -/

/-- A one-byte field holds its byte (R192). -/
theorem leBytes_one (b : Byte) : leBytes 1 b.toNat = [b] := by
  simp [leBytes]

theorem headerBytes_length (s : State) : (headerBytes s).length = 16 := by
  simp [headerBytes, signatureBytes]

theorem isPrefix_padded (bs : List Byte) : bs <+: padded bs := List.prefix_append _ _

/-- The sections behind the header, each where the one before it ends (R190). -/
theorem isPrefix_drop_container (s : State) :
    flagPack s.pools.flagbits s.enc.var <+: (container s).drop 16 ∧
    padded s.pools.litpool <+: (container s).drop (loffE s) ∧
    padded s.pools.tokpool <+: (container s).drop (moffE s) := by
  have hflags : flagPack s.pools.flagbits s.enc.var ++ (padded s.pools.litpool ++ padded s.pools.tokpool) <+:
      (container s).drop 16 := by
    rw [container, List.append_assoc, List.append_assoc, List.drop_left' (headerBytes_length s)]
  have hlits := Reference.isPrefix_drop_add hflags
  have hcells := Reference.isPrefix_drop_add hlits
  rw [padded_length] at hcells
  exact ⟨(List.prefix_append _ _).trans hflags, (List.prefix_append _ _).trans hlits, hcells⟩

theorem loffE_mod (s : State) : loffE s % 4 = 0 := by
  have := flagPack_length_mod s.pools.flagbits s.enc.var
  rw [loffE]
  omega

theorem moffE_mod (s : State) : moffE s % 4 = 0 := by
  have := loffE_mod s
  obtain ⟨-, -, hpad⟩ := pad4_spec s.pools.nlit
  rw [moffE]
  omega

/-- Settles O33: the header's 16 bytes, and each section behind the one before it. -/
theorem containerSectionsStandAtTheirOffsets : Obligations.ContainerSectionsStandAtTheirOffsets := by
  intro s _
  obtain ⟨hflags, hlits, hcells⟩ := isPrefix_drop_container s
  have hlen := container_length s
  have hmoff := moffE_mod s
  obtain ⟨-, -, hpad⟩ := pad4_spec s.pools.tokpool.length
  refine ⟨?_, (List.prefix_iff_eq_take.1 hflags).symm, (List.prefix_iff_eq_take.1 ((isPrefix_padded _).trans hlits)).symm,
    (List.prefix_iff_eq_take.1 ((isPrefix_padded _).trans hcells)).symm, hlen, loffE_mod s, hmoff, by omega⟩
  rw [container, List.append_assoc, List.append_assoc, List.take_left' (headerBytes_length s), headerBytes, leBytes_one,
    leBytes_one]

/-- The flags of n operations take at most one data word for every 31 of the input's bytes, and the terminator (R126, R194). -/
theorem flagPack_length_le {flags : List Bool} {n : Nat} (h : flags.length ≤ n) (variant : BitVec 8) :
    (flagPack flags variant).length ≤ 4 * (ceilDiv n 31 + 1) := by
  rw [flagPack_length, flagsPerWord]
  simp only [ceilDiv]
  split_ifs <;> omega

/-- The container of a search that has covered its input is within R194's bound. -/
theorem EncInv.container_length_le {s : State} (h : EncInv s) : (container s).length ≤ encodeBound s.enc.n := by
  have hops := h.ops
  have hcovers := h.covers.trans h.inside
  have hflags : (flagPack s.pools.flagbits s.enc.var).length ≤ 4 * (ceilDiv s.enc.n 31 + 1) :=
    flagPack_length_le (by rw [← Pools.nops]; omega) s.enc.var
  obtain ⟨-, hlit, -⟩ := pad4_spec s.pools.nlit
  obtain ⟨-, htok, -⟩ := pad4_spec (2 * s.pools.nmatch)
  rw [container_length, moffE, loffE, h.cells, encodeBound]
  omega

/-- Settles O34: each operation covers a byte and each Match three, and each pool is padded by at most 3 bytes. -/
theorem containerSizeIsBounded : Obligations.ContainerSizeIsBounded := by
  intro s hs hp
  obtain ⟨h, hend⟩ := hs.encAsm hp
  have hops := h.ops
  have hcovers := h.covers
  obtain ⟨-, hlit, -⟩ := pad4_spec s.pools.nlit
  obtain ⟨-, htok, -⟩ := pad4_spec (2 * s.pools.nmatch)
  exact ⟨by omega, by omega, by omega, h.container_length_le, h.fits⟩

/-! ## Assembly -/

theorem EncInv.encodeBound_lt {s : State} (h : EncInv s) : encodeBound s.enc.n < 2 ^ 32 := by
  have := h.notTooLarge
  simp only [max24] at this
  simp only [encodeBound, ceilDiv]
  omega

/-- Where the match section's offset does not fit, assembly ends in OffsetOverflow (R191). -/
theorem asmStep_overflow {s : State} (h : max24 < moffE s) :
    asmStep s = .next (raiseError (.configError .offsetOverflow) s) := if_pos h

/-- Where it fits, the container is written: OUT has room for it (R193, R194). -/
theorem asmStep_writes {s : State} (hs : EncInv s) (h : ¬max24 < moffE s) :
    asmStep s = .next (finishEncode (container s).length (writeOut (container s) s)) := by
  rw [asmStep, if_neg h, outWriteAll, if_pos (hs.container_length_le.trans hs.fits)]

/-- t is the end of an ENCODE that made the container `out`: OUT_LEN is its length, and OUT holds it with s's bytes behind (R193). -/
structure Encoded (s : State) (out : List Byte) (t : State) : Prop where
  phase : t.ph = .idle
  status : t.status = statusDone
  outLen : t.outLen.toNat = out.length
  bytes : ∀ i (h : i < out.length), t.outByte i = out[i]
  beyond : ∀ a, out.length ≤ a → t.outByte a = s.outByte a

theorem encoded_finishEncode {s : State} (hs : EncInv s) :
    Encoded s (container s) (finishEncode (container s).length (writeOut (container s) s)) where
  phase := rfl
  status := rfl
  outLen := by
    rw [finishEncode_outLen, BitVec.toNat_ofNat,
      Nat.mod_eq_of_lt (hs.container_length_le.trans_lt hs.encodeBound_lt)]
  bytes i hi := by rw [finishEncode_outByte, outByte_writeOut, dif_pos hi]
  beyond a ha := by rw [finishEncode_outByte, outByte_writeOut, dif_neg (Nat.not_lt.2 ha)]

/-- Settles O32: the two outcomes of the offset check. -/
theorem assemblyWritesTheContainer : Obligations.AssemblyWritesTheContainer := by
  intro s hs hp hi
  obtain ⟨h, -⟩ := hs.encAsm hp
  have hstep := (step_engine hi).trans (engineStep_encAsm hp)
  by_cases hoff : max24 < moffE s
  · refine ⟨_, hstep.trans (asmStep_overflow hoff), rfl, ?_⟩
    rw [if_pos (show 0xFFFFFF < moffE s from hoff)]
    rfl
  · have hend := encoded_finishEncode h
    refine ⟨_, hstep.trans (asmStep_writes h hoff), rfl, ?_⟩
    rw [if_neg (show ¬0xFFFFFF < moffE s from hoff)]
    exact ⟨rfl, rfl, hend.outLen, hend.bytes, hend.beyond, rfl⟩

/-- With the operations' flag bits, literals and cells in the pools, the assembly is the reference's (R190 to R193). -/
theorem assemble_eq {s : State} {ops : List Op}
    (h : s.pools = Pools.withOps s.enc.nb.toNat { flagbits := [], litpool := [], tokpool := [] } ops) :
    Reference.assemble s.enc.nb s.enc.var s.enc.n ops =
      if max24 < moffE s then .error (.configError .offsetOverflow) else .ok (container s) := by
  have hflags : s.pools.flagbits = ops.map Reference.isMatchOf := by rw [h]; rfl
  have hlits : s.pools.litpool = ops.flatMap Reference.literalOf := by rw [h]; rfl
  have hcells : s.pools.tokpool = ops.flatMap (Reference.cellBytesOf s.enc.nb.toNat) := by rw [h]; rfl
  have hmoff : loffE s + (padded s.pools.litpool).length = moffE s := congrArg (loffE s + ·) (padded_length _)
  simp only [Reference.assemble, ← hflags, ← hlits, ← hcells, container, headerBytes, leBytes_one]
  rw [show 16 + (flagPack s.pools.flagbits s.enc.var).length = loffE s from rfl, hmoff]
  rfl

/-- The step of ENC_ASM is the reference's assembly (R190 to R193). -/
theorem yields_assemble {s : State} (hs : EncInv s) (hi : s.inbox = []) (hp : s.ph = .encAsm) {ops : List Op}
    (h : s.pools = Pools.withOps s.enc.nb.toNat { flagbits := [], litpool := [], tokpool := [] } ops) :
    Yields s (Reference.assemble s.enc.nb s.enc.var s.enc.n ops) (Encoded s) := by
  have hstep := (step_engine hi).trans (engineStep_encAsm hp)
  rw [assemble_eq h]
  by_cases hoff : max24 < moffE s
  · rw [if_pos hoff]
    exact (yields_raise _ s).after (.of_step (hstep.trans (asmStep_overflow hoff)))
  · rw [if_neg hoff]
    exact (yields_ok (encoded_finishEncode hs)).after (.of_step (hstep.trans (asmStep_writes hs hoff)))

/-! ## The parameter checks -/

theorem variantLegal_toNat_iff {variant : BitVec 8} :
    variantLegal variant.toNat = true ↔ variant = 0 ∨ variant = 2 := by
  rw [variantLegal_iff, BitVec.toNat_eq, BitVec.toNat_eq]
  rfl

/-- The state in which ENC_SEARCH begins (R182, R186). -/
def startSearch (s : State) : State :=
  { s with
    enc := { n := s.inLen.toNat, nb := s.ctrl.nbits, var := s.ctrl.variant, w := windowOf s.ctrl.nbits.toNat,
             maxrun := maxRunOf s.ctrl.nbits.toNat, p := 0 }
    pools := { flagbits := [], litpool := [], tokpool := [] }
    ph := .encSearch }

/-- What ENC_CHECK makes of s: the error of the first check that fails, with the registers loaded so far, or the start of the search
(R181). -/
inductive CheckOutcome (s : State) : State → Prop
  | invalidNbits (enc : EncRegs) (hnb : ¬(10 ≤ s.ctrl.nbits.toNat ∧ s.ctrl.nbits.toNat ≤ 13)) :
      CheckOutcome s (raiseError (.configError .invalidNbits) { s with enc := enc })
  | invalidVariant (enc : EncRegs) (hnb : 10 ≤ s.ctrl.nbits.toNat ∧ s.ctrl.nbits.toNat ≤ 13)
      (hvar : ¬(s.ctrl.variant = 0 ∨ s.ctrl.variant = 2)) :
      CheckOutcome s (raiseError (.configError .invalidVariant) { s with enc := enc })
  | emptyInput (enc : EncRegs) (hnb : 10 ≤ s.ctrl.nbits.toNat ∧ s.ctrl.nbits.toNat ≤ 13)
      (hvar : s.ctrl.variant = 0 ∨ s.ctrl.variant = 2) (hempty : s.inLen.toNat = 0) :
      CheckOutcome s (raiseError (.configError .emptyInput) { s with enc := enc })
  | inputTooLarge (enc : EncRegs) (hnb : 10 ≤ s.ctrl.nbits.toNat ∧ s.ctrl.nbits.toNat ≤ 13)
      (hvar : s.ctrl.variant = 0 ∨ s.ctrl.variant = 2) (hpos : s.inLen.toNat ≠ 0) (hlarge : 0xFFFFFF < s.inLen.toNat) :
      CheckOutcome s (raiseError (.configError .inputTooLarge) { s with enc := enc })
  | passed (hnb : 10 ≤ s.ctrl.nbits.toNat ∧ s.ctrl.nbits.toNat ≤ 13) (hvar : s.ctrl.variant = 0 ∨ s.ctrl.variant = 2)
      (hpos : s.inLen.toNat ≠ 0) (hmax : ¬0xFFFFFF < s.inLen.toNat) : CheckOutcome s (startSearch s)

theorem encCheckStep_outcome (s : State) : CheckOutcome s (encCheckStep s) := by
  unfold encCheckStep
  dsimp only
  simp only [Bool.not_eq_true', ← Bool.not_eq_true, nbitsLegal_iff, variantLegal_toNat_iff, ite_not]
  split_ifs with hnb hvar hempty hlarge
  · exact .emptyInput _ hnb hvar hempty
  · exact .inputTooLarge _ hnb hvar hempty hlarge
  · exact .passed hnb hvar hempty hlarge
  · exact .invalidVariant _ hnb hvar
  · exact .invalidNbits _ hnb

theorem step_encCheck {s : State} (hi : s.inbox = []) (hp : s.ph = .encCheck) :
    ∃ t, step s = .next t ∧ CheckOutcome s t :=
  ⟨_, (step_engine hi).trans (engineStep_encCheck hp), encCheckStep_outcome s⟩

/-- Settles O28: ENC_CHECK's outcomes are those of the four checks in their order. -/
theorem encodeParametersAreCheckedInOrder : Obligations.EncodeParametersAreCheckedInOrder := by
  intro s hp hi
  obtain ⟨t, hstep, hout⟩ := step_encCheck hi hp
  refine ⟨t, hstep, ?_⟩
  have hempty_iff : s.inLen = 0 ↔ s.inLen.toNat = 0 := BitVec.toNat_eq
  cases hout with
  | invalidNbits enc hnb => rw [if_pos hnb]; exact ⟨rfl, rfl⟩
  | invalidVariant enc hnb hvar => rw [if_neg (not_not.2 hnb), if_pos hvar]; exact ⟨rfl, rfl⟩
  | emptyInput enc hnb hvar hempty =>
    rw [if_neg (not_not.2 hnb), if_neg (not_not.2 hvar), if_pos (hempty_iff.2 hempty)]
    exact ⟨rfl, rfl⟩
  | inputTooLarge enc hnb hvar hpos hlarge =>
    rw [if_neg (not_not.2 hnb), if_neg (not_not.2 hvar), if_neg (mt hempty_iff.1 hpos), if_pos hlarge]
    exact ⟨rfl, rfl⟩
  | passed hnb hvar hpos hmax =>
    rw [if_neg (not_not.2 hnb), if_neg (not_not.2 hvar), if_neg (mt hempty_iff.1 hpos), if_neg hmax]
    exact ⟨rfl, rfl, rfl, rfl⟩

/-- Where the checks pass, the search starts in its invariant: the launch left room for the container (R58, R194). -/
theorem encInv_startSearch {s : State} (hf : encodeFits s = true)
    (hnb : 10 ≤ s.ctrl.nbits.toNat ∧ s.ctrl.nbits.toNat ≤ 13) (hvar : s.ctrl.variant = 0 ∨ s.ctrl.variant = 2)
    (hpos : s.inLen.toNat ≠ 0) (hmax : ¬0xFFFFFF < s.inLen.toNat) : EncInv (startSearch s) where
  nbits := nbitsLegal_iff.2 hnb
  variant := variantLegal_toNat_iff.2 hvar
  input := rfl
  nonempty := Nat.pos_of_ne_zero hpos
  notTooLarge := Nat.not_lt.1 hmax
  window := rfl
  maxrun := rfl
  fits :=
    encodeFits_iff.1 hf (nbitsLegal_iff.2 hnb) (variantLegal_toNat_iff.2 hvar) (Nat.pos_of_ne_zero hpos) (Nat.not_lt.1 hmax)
  inside := Nat.zero_le _
  cells := by simp [startSearch, Pools.nmatch]
  ops := by simp [startSearch, Pools.nops, Pools.nlit, Pools.nmatch]
  covers := by simp [startSearch, Pools.nlit, Pools.nmatch]

/-- The input is not empty, so there is a search step (R186). -/
theorem searchTest_startSearch {s : State} (h : EncInv (startSearch s)) : searchTest (startSearch s) = startSearch s :=
  if_pos h.nonempty

/-! ## ENCODE -/

/-- From the first search step on, ENCODE is the reference's assembly of its greedy operations (R186, R190). -/
theorem yields_search {s : State} (h : EncInv (startSearch s)) (hi : s.inbox = []) :
    Yields (startSearch s)
      (Reference.assemble s.ctrl.nbits s.ctrl.variant s.inLen.toNat
        (Reference.greedy (inputBytes s) s.ctrl.nbits.toNat s.inLen.toNat 0)) (Encoded s) := by
  obtain ⟨t, rfl, ht, hrun⟩ := leads_search s.inLen.toNat h hi rfl (Nat.le_add_left _ _)
  rw [searchTest_startSearch h] at hrun
  refine Yields.after ?_ hrun
  exact (yields_assemble (s := { covered _ (startSearch s) with ph := .encAsm }) { ht with } hi rfl rfl).weaken
    fun out t hend => { hend with }

/-- ENCODE from ENC_CHECK on is the reference's ENCODE (R180, R181). -/
theorem yields_encodeStream {s : State} (hp : s.ph = .encCheck) (hi : s.inbox = []) (hf : encodeFits s = true) :
    Yields s (Reference.encodeStream s.ctrl.nbits s.ctrl.variant (inputBytes s)) (Encoded s) := by
  obtain ⟨t, hstep, hout⟩ := step_encCheck hi hp
  refine Yields.after ?_ (.of_step hstep)
  rw [Reference.encodeStream, inBytes_length]
  cases hout with
  | invalidNbits enc hnb => rw [if_pos hnb]; exact yields_raise _ _
  | invalidVariant enc hnb hvar => rw [if_neg (not_not.2 hnb), if_pos hvar]; exact yields_raise _ _
  | emptyInput enc hnb hvar hempty =>
    rw [if_neg (not_not.2 hnb), if_neg (not_not.2 hvar), if_pos hempty]
    exact yields_raise _ _
  | inputTooLarge enc hnb hvar hpos hlarge =>
    rw [if_neg (not_not.2 hnb), if_neg (not_not.2 hvar), if_neg hpos, if_pos hlarge]
    exact yields_raise _ _
  | passed hnb hvar hpos hmax =>
    rw [if_neg (not_not.2 hnb), if_neg (not_not.2 hvar), if_neg hpos, if_neg hmax]
    exact yields_search (encInv_startSearch hf hnb hvar hpos hmax) hi

/-- Settles O35: the launch leads to ENC_CHECK, and from there the machine does what the reference does. -/
theorem encodeRunsAsTheReference : Obligations.EncodeRunsAsTheReference := by
  intro s s0 variant nbits hi h
  obtain ⟨-, -, hf, rfl⟩ := launch_eq_next h
  have hyields := yields_encodeStream
    (s := { beginCommand (storeCtrl 2 nbits variant s) with ph := .encCheck, hdrNext := .sig }) rfl hi hf
  replace hyields : Yields _ (Reference.encodeStream nbits variant (inBytes s 0 s.inLen.toNat)) _ := hyields
  cases hr : Reference.encodeStream nbits variant (inBytes s 0 s.inLen.toNat) with
  | error e =>
    rw [hr] at hyields
    obtain ⟨t, ⟨k, hk⟩, hph, hst⟩ := hyields
    exact ⟨k, t, hk, hph, hst⟩
  | ok out =>
    rw [hr] at hyields
    obtain ⟨t, ⟨k, hk⟩, hend⟩ := hyields
    exact ⟨k, t, hk, hend.phase, hend.status, hend.outLen, hend.bytes, hend.beyond⟩

/-! ## ENCODE terminates -/

/-- At most n steps lead from s to IDLE. -/
def EndsWithin (n : Nat) (s : State) : Prop := ∃ k t, k ≤ n ∧ runSteps k s = .next t ∧ t.ph = .idle

theorem endsWithin_of_idle {s : State} (n : Nat) (h : s.ph = .idle) : EndsWithin n s := ⟨0, s, Nat.zero_le n, rfl, h⟩

theorem EndsWithin.of_step {n : Nat} {s t : State} (h : EndsWithin n t) (hs : step s = .next t) : EndsWithin (n + 1) s := by
  obtain ⟨k, u, hk, hrun, hu⟩ := h
  exact ⟨k + 1, u, Nat.succ_le_succ hk, (runSteps_succ hs).trans hrun, hu⟩

theorem EndsWithin.mono {m n : Nat} {s : State} (h : EndsWithin m s) (hmn : m ≤ n) : EndsWithin n s := by
  obtain ⟨k, u, hk, hend⟩ := h
  exact ⟨k, u, hk.trans hmn, hend⟩

/-- ENC_ASM is one step (R190 to R193). -/
theorem endsWithin_encAsm {s : State} (h : EncInv s) (hi : s.inbox = []) (hp : s.ph = .encAsm) : EndsWithin 1 s := by
  have hstep := (step_engine hi).trans (engineStep_encAsm hp)
  by_cases hoff : max24 < moffE s
  · exact (endsWithin_of_idle 0 rfl).of_step (hstep.trans (asmStep_overflow hoff))
  · exact (endsWithin_of_idle 0 rfl).of_step (hstep.trans (asmStep_writes h hoff))

/-- Each step of ENC_SEARCH covers at least one of the bytes that are left, and ENC_ASM is one step more (R186). -/
theorem endsWithin_searchTest (left : Nat) {s : State} (h : EncInv s) (hi : s.inbox = []) (hp : s.ph = .encSearch)
    (hleft : s.enc.n ≤ s.enc.p + left) : EndsWithin (left + 1) (searchTest s) := by
  induction left generalizing s with
  | zero =>
    rw [searchTest_over (Nat.not_lt.2 hleft)]
    exact endsWithin_encAsm { h with } hi rfl
  | succ left ih =>
    by_cases hlt : s.enc.p < s.enc.n
    · have hmore := covered_p_gt s
      have hrest := ih (h.covered hlt) hi hp (show s.enc.n ≤ (covered [matchFind s s.enc.p] s).enc.p + left by omega)
      rw [searchTest_more hlt]
      exact hrest.of_step ((step_engine hi).trans ((engineStep_encSearch hp).trans (searchStep_next h hlt)))
    · rw [searchTest_over hlt]
      exact (endsWithin_encAsm (s := { s with ph := .encAsm }) { h with } hi rfl).mono (Nat.le_add_left _ _)

/-- The checks either raise or begin the search (R181). -/
theorem endsWithin_encCheck {s : State} (hi : s.inbox = []) (hp : s.ph = .encCheck) (hf : encodeFits s = true) :
    EndsWithin (max24 + 2) s := by
  obtain ⟨t, hstep, hout⟩ := step_encCheck hi hp
  refine EndsWithin.of_step (n := max24 + 1) ?_ hstep
  cases hout with
  | invalidNbits enc hnb => exact endsWithin_of_idle _ rfl
  | invalidVariant enc hnb hvar => exact endsWithin_of_idle _ rfl
  | emptyInput enc hnb hvar hempty => exact endsWithin_of_idle _ rfl
  | inputTooLarge enc hnb hvar hpos hlarge => exact endsWithin_of_idle _ rfl
  | passed hnb hvar hpos hmax =>
    have h := encInv_startSearch hf hnb hvar hpos hmax
    have hsearch := endsWithin_searchTest max24 h hi rfl (h.notTooLarge.trans (Nat.le_add_left _ _))
    rwa [searchTest_startSearch h] at hsearch

/-- Settles O36: the checks, one step for each operation, and the assembly. -/
theorem encodeTerminates : Obligations.EncodeTerminates := by
  intro s hs hi hp
  rcases hp with hp | hp | hp
  · exact endsWithin_encCheck hi hp (by simpa [PhaseInv, hp] using hs.phase)
  · obtain ⟨h, hlt⟩ := hs.encSearch hp
    have hsearch := endsWithin_searchTest max24 h hi hp (h.notTooLarge.trans (Nat.le_add_left _ _))
    rw [searchTest_more hlt] at hsearch
    exact hsearch.mono (Nat.le_succ _)
  · obtain ⟨h, -⟩ := hs.encAsm hp
    exact (endsWithin_encAsm h hi hp).mono (by decide)

end Sys2Proof.Machine

namespace Sys2Proof.Reference

open Sys2Proof.Machine

/-! ## The round trip of the wire format -/

/-- The choice at p is the literal there, or a Match at a distance of D(p) with its length, at least 3 (R183, R185). -/
theorem choice_cases (input : List Byte) (nb p : Nat) :
    choice input nb p = .literal (input.getD p 0) ∨
    ∃ d, 1 ≤ d ∧ d ≤ min (2 ^ nb) p ∧ 3 ≤ agreement input (2 ^ (16 - nb) + 2) p d ∧
      choice input nb p = .mat d (agreement input (2 ^ (16 - nb) + 2) p d) := by
  simp only [choice]
  split
  · rename_i d hd
    split_ifs with hlong
    · have hlen := beq_iff_eq.1 (List.find?_some (p := fun d => _ == _) hd)
      obtain ⟨i, hi, rfl⟩ := List.mem_map.1 (List.mem_of_find?_eq_some hd)
      have hi' := List.mem_range.1 hi
      rw [← hlen] at hlong ⊢
      exact .inr ⟨i + 1, Nat.le_add_left 1 i, hi', hlong, rfl⟩
    · exact .inl rfl
  · exact .inl rfl

theorem agreement_le_maxrun (input : List Byte) (maxrun p d : Nat) : agreement input maxrun p d ≤ maxrun :=
  List.length_take_le _ _

/-- The bytes of an agreement lie inside the input and are those d back (R184). -/
theorem getElem_of_agreement {input : List Byte} {maxrun p d i : Nat} (h : i < agreement input maxrun p d) :
    ∃ hi : p + i < input.length, input[p + i] = input[p - d + i]'(by omega) := by
  set pairs := (input.drop p).zip (input.drop (p - d)) with hpairs
  have hi : i < (pairs.takeWhile fun xy => xy.1 == xy.2).length :=
    h.trans_le (List.length_take_le' _ _)
  have hin : i < pairs.length := hi.trans_le (List.takeWhile_prefix _).length_le
  have heq := List.mem_takeWhile_imp (List.getElem_mem hi)
  rw [(List.takeWhile_prefix _).getElem hi] at heq
  have hlen : p + i < input.length := by
    simp only [hpairs, List.length_zip, List.length_drop] at hin
    omega
  refine ⟨hlen, ?_⟩
  simpa [hpairs] using heq

/-- Bytes that agree with those d back are the ones before them, repeated with period d (R149, R184). -/
theorem getD_of_period {input : List Byte} {p d len : Nat} (hd : 1 ≤ d) (hdp : d ≤ p)
    (h : ∀ i, i < len → input.getD (p + i) 0 = input.getD (p - d + i) 0) (i : Nat) (hi : i < len) :
    input.getD (p + i) 0 = input.getD (p - d + i % d) 0 := by
  induction i using Nat.strong_induction_on with
  | _ i ih =>
    rw [h i hi]
    rcases Nat.lt_or_ge i d with hlt | hge
    · rw [Nat.mod_eq_of_lt hlt]
    · rw [show p - d + i = p + (i - d) by omega, ih (i - d) (by omega) (by omega), Nat.mod_eq_sub_mod hge]

/-- A Match on an agreement appends the agreeing bytes (R149, R184). -/
theorem repetition_of_agreement {input : List Byte} {maxrun p d : Nat} (hd : 1 ≤ d) (hdp : d ≤ p) (hp : p ≤ input.length) :
    repetition (input.take p) d (agreement input maxrun p d) = (input.drop p).take (agreement input maxrun p d) := by
  have hagree : ∀ i, i < agreement input maxrun p d → input.getD (p + i) 0 = input.getD (p - d + i) 0 := fun i hi => by
    obtain ⟨hlen, heq⟩ := getElem_of_agreement hi
    rw [List.getD_eq_getElem _ _ hlen, List.getD_eq_getElem _ _ (by omega), heq]
  have hfits : agreement input maxrun p d ≤ input.length - p := by
    by_contra hlt
    obtain ⟨hlen, -⟩ := getElem_of_agreement (Nat.not_le.1 hlt)
    omega
  refine List.ext_getElem (by simp [repetition, hfits]) fun i hi _ => ?_
  replace hi : i < agreement input maxrun p d := by simpa [repetition] using hi
  have hmod : i % d < d := Nat.mod_lt i hd
  simp only [repetition, List.getElem_map, List.getElem_range, List.getElem_take, List.getElem_drop, List.length_take,
    min_eq_left hp]
  rw [← List.getD_eq_getElem input 0, getD_of_period hd hdp hagree i hi]
  simp [List.getD_eq_getElem?_getD, show p - d + i % d < p by omega]

/-- The choice at p appends the input's next bytes, as many as it covers (R185, R186). -/
theorem appended_choice {input : List Byte} {nb p : Nat} (hp : p < input.length) :
    appended (input.take p) (choice input nb p) = (input.drop p).take (opSpan (choice input nb p)) := by
  rcases choice_cases input nb p with h | ⟨d, hd, hdp, -, h⟩ <;> rw [h]
  · rw [appended, opSpan, List.getD_eq_getElem _ _ hp, List.drop_eq_getElem_cons hp]
    rfl
  · exact repetition_of_agreement hd (hdp.trans (min_le_right _ _)) hp.le

/-- The choice at p has a cell and stays inside the output before it (R83, R151, R185). -/
theorem opReaches_choice {input : List Byte} {nb p : Nat} (hn : nbitsLegal nb = true) (hp : p < input.length) :
    opReaches nb (input.take p) (choice input nb p) = true := by
  rcases choice_cases input nb p with h | ⟨d, hd, hdp, hlong, h⟩ <;> rw [h]
  · rfl
  · refine Bool.and_eq_true_iff.2 ⟨tokenInRange_iff.2 ⟨hn, hd, hdp.trans (min_le_left _ _), hlong, agreement_le_maxrun _ _ _ _⟩,
      decide_eq_true ?_⟩
    rw [List.length_take, min_eq_left hp.le]
    exact hdp.trans (min_le_right _ _)

theorem opSpan_choice_pos (input : List Byte) (nb p : Nat) : 1 ≤ opSpan (choice input nb p) := by
  rcases choice_cases input nb p with h | ⟨d, -, -, hlong, h⟩ <;> rw [h]
  · exact le_rfl
  · exact (Nat.le_add_left 1 2).trans hlong

/-- From p on, the greedy operations are legal and produce the rest of the input (R186, R195). -/
theorem greedy_spec {input : List Byte} {nb : Nat} (hn : nbitsLegal nb = true) (fuel p : Nat)
    (hfuel : input.length ≤ p + fuel) :
    Listing.reaches nb (input.take p) (greedy input nb fuel p) = true ∧
      expand (input.take p) (greedy input nb fuel p) = input := by
  induction fuel generalizing p with
  | zero => exact ⟨rfl, List.take_of_length_le hfuel⟩
  | succ fuel ih =>
    rw [greedy]
    split_ifs with hp
    · have hspan := opSpan_choice_pos input nb p
      obtain ⟨hreach, hexpand⟩ := ih (p + opSpan (choice input nb p)) (by omega)
      have hout : input.take p ++ appended (input.take p) (choice input nb p) =
          input.take (p + opSpan (choice input nb p)) := by rw [appended_choice hp, List.take_add]
      rw [reaches_cons, expand_cons, hout, opReaches_choice hn hp, hreach, hexpand]
      exact ⟨rfl, rfl⟩
    · exact ⟨rfl, List.take_of_length_le (Nat.not_lt.1 hp)⟩

/-- What the reference encoder accepts, and what it then makes (R181, R190). -/
theorem encodeStream_eq_ok {nb var : BitVec 8} {input c : List Byte} (h : encodeStream nb var input = .ok c) :
    nbitsLegal nb.toNat = true ∧ variantLegal var.toNat = true ∧ input.length ≤ 0xFFFFFF ∧
      assemble nb var input.length (greedy input nb.toNat input.length 0) = .ok c := by
  unfold encodeStream at h
  split_ifs at h with hnb hvar hempty hlarge
  exact ⟨nbitsLegal_iff.2 hnb, variantLegal_toNat_iff.2 hvar, Nat.not_lt.1 hlarge, h⟩

/-- Settles O38: the greedy operations produce the input, and their container decodes to what they produce. -/
theorem referenceRoundTrip : Obligations.ReferenceRoundTrip := by
  intro nb var checkNbits input c h
  obtain ⟨hnb, hvar, hmax, hc⟩ := encodeStream_eq_ok h
  obtain ⟨loff, moff, hasm⟩ := assemble_eq_ok hc
  obtain ⟨hreach, hexpand⟩ := greedy_spec (input := input) hnb input.length 0 (Nat.le_add_left _ _)
  rw [List.take_zero] at hreach hexpand
  have hdec := decodeStream_of_assembled hasm checkNbits hnb hvar hmax hreach (by rw [hexpand])
  rwa [hexpand, List.take_length] at hdec

end Sys2Proof.Reference

namespace Sys2Proof.Machine

/-! ## The round trip of the machine -/

/-- An encoder phase. -/
def Encoding (s : State) : Prop := s.ph = .encCheck ∨ s.ph = .encSearch ∨ s.ph = .encAsm

/-- A step in an encoder phase ends the command, or goes on with STATUS as it is (R180). -/
theorem engineStep_encoding {s t : State} (he : Encoding s) (h : engineStep s = .next t) :
    t.ph = .idle ∨ (Encoding t ∧ t.status = s.status) := by
  rcases he with hp | hp | hp
  · rw [engineStep_encCheck hp] at h
    cases h
    have hout := encCheckStep_outcome s
    generalize encCheckStep s = t at hout ⊢
    cases hout with
    | passed => exact .inr ⟨.inr (.inl rfl), rfl⟩
    | _ => exact .inl rfl
  · rw [engineStep_encSearch hp] at h
    have hsearch : ∀ u : State, u.ph = .encSearch → Encoding (searchTest u) := fun u hu => by
      rw [Encoding, searchTest_ph, hu]
      split_ifs
      · exact .inr (.inl rfl)
      · exact .inr (.inr rfl)
    unfold searchStep at h
    split_ifs at h with hlt
    · split at h
      · cases h
      · rename_i u hu
        cases h
        have hframe := emitOp_frame hu
        refine .inr ⟨hsearch _ ?_, ?_⟩
        · rw [hframe]; exact hp
        · rw [searchTest_status, hframe]; rfl
    · cases h
      exact .inr ⟨hsearch s hp, searchTest_status s⟩
  · rw [engineStep_encAsm hp] at h
    rcases asmStep_eq_next h with rfl | rfl
    · exact .inl rfl
    · exact .inl rfl

/-- With the host waiting, k steps lead on from the first one. -/
theorem runSteps_succ_eq_next {k : Nat} {s t : State} (hi : s.inbox = []) (h : runSteps (k + 1) s = .next t) :
    ∃ u, engineStep s = .next u ∧ u.inbox = [] ∧ runSteps k u = .next t := by
  obtain ⟨u, hu⟩ := runSteps_stops h
  rw [runSteps_succ hu] at h
  rw [step_engine hi] at hu
  obtain ⟨⟨-, -, -, -, hbox⟩, -⟩ := engineStep_same hu
  exact ⟨u, hu, hbox.trans hi, h⟩

theorem runSteps_inbox {k : Nat} {s t : State} (hi : s.inbox = []) (h : runSteps k s = .next t) : t.inbox = [] := by
  induction k generalizing s with
  | zero => cases h; exact hi
  | succ k ih =>
    obtain ⟨u, -, hu, hrun⟩ := runSteps_succ_eq_next hi h
    exact ih hu hrun

/-- An ENCODE whose STATUS has changed has ended (R24, R27). -/
theorem runSteps_encoding {k : Nat} {s t : State} (hi : s.inbox = []) (he : Encoding s) (h : runSteps k s = .next t) :
    t.ph = .idle ∨ t.status = s.status := by
  induction k generalizing s with
  | zero => cases h; exact .inr rfl
  | succ k ih =>
    obtain ⟨u, hstep, hu, hrun⟩ := runSteps_succ_eq_next hi h
    rcases engineStep_encoding he hstep with hidle | ⟨heu, hstatus⟩
    · rw [runSteps_idle hidle hu] at hrun
      cases hrun
      exact .inl hidle
    · rw [← hstatus]
      exact ih hu heu hrun

/-- A run that has come to IDLE stays there (R238). -/
theorem runSteps_stays_idle {j k : Nat} {s t u : State} (hi : s.inbox = []) (hj : runSteps j s = .next t) (ht : t.ph = .idle)
    (hk : runSteps k s = .next u) (hjk : j ≤ k) : t = u := by
  rw [← Nat.add_sub_of_le hjk, runSteps_add hj, runSteps_idle ht (runSteps_inbox hi hj)] at hk
  exact Host.Outcome.next.inj hk

/-- Two runs from one state that have both come to IDLE have come to the same state (R238). -/
theorem runSteps_idle_unique {j k : Nat} {s t u : State} (hi : s.inbox = []) (hj : runSteps j s = .next t) (ht : t.ph = .idle)
    (hk : runSteps k s = .next u) (hu : u.ph = .idle) : t = u := by
  rcases Nat.le_total j k with hjk | hkj
  · exact runSteps_stays_idle hi hj ht hk hjk
  · exact (runSteps_stays_idle hi hk hu hj hkj).symm

/-- An admitted ENCODE is BUSY in ENC_CHECK (R180, R251). -/
theorem execEncode_next {variant nbits : BitVec 8} {s t : State} (h : exec (.encode variant nbits) s = .next t) :
    t.inbox = s.inbox ∧ t.ph = .encCheck ∧ t.status = statusBusy := by
  obtain ⟨-, -, -, rfl⟩ := launch_eq_next h
  exact ⟨rfl, rfl, rfl⟩

/-- An ENCODE that has ended with DONE has made the reference's container (R193). -/
theorem encode_done {s s0 t : State} {variant nbits : BitVec 8} {k : Nat} (hi : s.inbox = [])
    (h : exec (.encode variant nbits) s = .next s0) (hrun : runSteps k s0 = .next t) (hdone : t.status.done = true) :
    ∃ out, Reference.encodeStream nbits variant (inputBytes s) = .ok out ∧ t.outLen.toNat = out.length ∧
      ∀ i (h : i < out.length), t.outByte i = out[i] := by
  obtain ⟨j, u, hj, hu, hend⟩ := encodeRunsAsTheReference s s0 variant nbits hi h
  obtain ⟨hbox, hcheck, hbusy⟩ := execEncode_next h
  have hidle : t.ph = .idle := by
    rcases runSteps_encoding (hbox.trans hi) (.inl hcheck) hrun with hidle | hstatus
    · exact hidle
    · rw [hstatus, hbusy] at hdone
      cases hdone
  obtain rfl := runSteps_idle_unique (hbox.trans hi) hrun hidle hj hu
  cases hr : Reference.encodeStream nbits variant (inputBytes s) with
  | error e =>
    rw [hr] at hend
    rw [show t.status = statusError e from hend] at hdone
    cases hdone
  | ok out =>
    rw [hr] at hend
    obtain ⟨-, hlen, hbytes, -⟩ := hend
    exact ⟨out, rfl, hlen, hbytes⟩

/-- The input of u is the byte string that OUT of t holds below OUT_LEN. -/
theorem inputBytes_of_output {t u : State} {out : List Byte} (hin : u.inLen = t.outLen)
    (hbyte : ∀ a, a < t.outLen.toNat → u.inByte a = t.outByte a) (hlen : t.outLen.toNat = out.length)
    (hout : ∀ i (h : i < out.length), t.outByte i = out[i]) : inputBytes u = out := by
  refine List.ext_getElem (by rw [inBytes_length, hin, hlen]) fun i hi hi' => ?_
  rw [inBytes_getElem, Nat.zero_add, hbyte i (hlen ▸ hi'), hout i hi']

/-- Settles O39: ENCODE made the reference's container, DECODE does what the reference does with it, and that gives the input
back. -/
theorem decodeAfterEncodeReturnsTheInput : Obligations.DecodeAfterEncodeReturnsTheInput := by
  intro s s0 t u u0 variant nbits v n k hi henc hrun hdone hui hin hbyte hdec
  obtain ⟨out, hout, hlen, hbytes⟩ := encode_done hi henc hrun hdone
  obtain ⟨k2, w, hrun2, hidle, hend⟩ := decodeRunsAsTheReference u u0 v n hui hdec
  rw [show inBytes u 0 u.inLen.toNat = out from inputBytes_of_output hin hbyte hlen hbytes,
    Reference.referenceRoundTrip nbits variant u.params.decCheckNbits _ out hout] at hend
  obtain ⟨hstatus, hwlen, hwbytes, -⟩ := hend
  rw [inBytes_length] at hwlen
  refine ⟨k2, w, hrun2, hidle, hstatus, BitVec.eq_of_toNat_eq hwlen, fun a ha => ?_⟩
  rw [hwbytes a (by rwa [inBytes_length]), inBytes_getElem, Nat.zero_add]

end Sys2Proof.Machine

namespace Sys2Proof.Machine

/-! The proofs about errors and IDLE (60_exceptions.md): error entry, the codes that are reported, a START with a reserved OP, what
leaves IDLE, and that the engine never stops. -/

/-! ## The engine never stops -/

/-- A step of ENC_SEARCH answers: MATCH_FIND names only pairs that have a cell (R104, R185). -/
theorem searchStep_answers {s : State} (h : Inv s) (hp : s.ph = .encSearch) : ∃ t, searchStep s = .next t := by
  obtain ⟨hs, hlt⟩ := h.encSearch hp
  exact ⟨_, searchStep_next hs hlt⟩

/-- The step of ENC_ASM answers: the container fits in OUT (R191, R194). -/
theorem asmStep_answers {s : State} (h : Inv s) (hp : s.ph = .encAsm) : ∃ t, asmStep s = .next t := by
  obtain ⟨hs, -⟩ := h.encAsm hp
  by_cases hoff : max24 < moffE s
  · exact ⟨_, asmStep_overflow hoff⟩
  · exact ⟨_, asmStep_writes hs hoff⟩

/-- In every phase of the invariant a step of the engine answers a next state (R227, R257). -/
theorem engineStep_answers {s : State} (h : Inv s) : ∃ t, engineStep s = .next t := by
  have decoder : Decoding s → ∃ t, engineStep s = .next t := fun hd =>
    (engineStep_nearer h hd).imp fun _ ⟨ht, _⟩ => ht
  cases hp : s.ph with
  | idle => exact ⟨s, engineStep_idle hp⟩
  | decHdr => exact decoder (.inl hp)
  | decRun => exact decoder (.inr (.inl hp))
  | decCopy => exact decoder (.inr (.inr hp))
  | encCheck => exact ⟨_, engineStep_encCheck hp⟩
  | encSearch => rw [engineStep_encSearch hp]; exact searchStep_answers h hp
  | encAsm => rw [engineStep_encAsm hp]; exact asmStep_answers h hp

/-- Settles O59: with the host waiting a step is the engine's. -/
theorem engineNeverStops : Obligations.EngineNeverStops := by
  intro s h hi
  rw [step_engine hi]
  exact engineStep_answers h

/-! ## IoError -/

/-- Only IoError has ERRCODE 5 (R220). -/
theorem errCode_ne_five {e : Err} (h : e ≠ .ioError) : errCode e ≠ 5 := by
  cases e with
  | ioError => exact absurd rfl h
  | _ => simp [errCode]

/-- What a step of the engine reports is not IoError (R225). -/
theorem errcode_ne_five_of_reports {s t : State} (h : Reports s t) (hs : s.status.errcode ≠ 5) : t.status.errcode ≠ 5 := by
  rcases h with h | h | ⟨e, he, h⟩ <;> rw [h]
  · exact hs
  · decide
  · exact errCode_ne_five he

/-- A host action reports BadOp or nothing (R224, R225). -/
theorem errcode_ne_five_of_hostEffect {act : HostAct} {s t : State} (h : HostEffect act s t) (hs : s.status.errcode ≠ 5) :
    t.status.errcode ≠ 5 := by
  cases h with
  | busData | inLen | writeIn | writeOut | storeFields => exact hs
  | badOp => exact errCode_ne_five (e := .configError .badOp) (by decide)
  | decode | encode => exact (by decide : statusBusy.errcode ≠ 5)
  | reset => exact (by decide : State.reset.status.errcode ≠ 5)

/-- Settles O42: by who moves, the engine or the host. -/
theorem ioErrorIsNeverRaised : Obligations.IoErrorIsNeverRaised := by
  intro s t hs h
  rcases step_cases s with ⟨-, he⟩ | ⟨rest, -, he⟩ | ⟨act, rest, -, -, he⟩ <;> rw [he] at h
  · exact errcode_ne_five_of_reports (engineStep_same h).2 hs
  · exact errcode_ne_five_of_reports (s := { s with inbox := rest }) (engineStep_same h).2 hs
  · exact errcode_ne_five_of_hostEffect (hostStep_effect h) hs

/-! ## A reserved OP -/

/-- START with OP 0 or 3 is no instruction (R90, V1). -/
theorem decodeCtrl_reserved {w : Word} (h : w &&& 0x80000003 = 0x80000000 ∨ w &&& 0x80000003 = 0x80000003) :
    decodeCtrl w = .error .reservedOp := by
  obtain ⟨hs, ho⟩ : ctrlStart w = true ∧ (ctrlOp w = 0 ∨ ctrlOp w = 3) := by
    rcases h with h | h
    · exact ((ctrlSelects_iff w 0).2 h).imp_right .inl
    · exact ((ctrlSelects_iff w 3).2 h).imp_right .inr
  rcases ho with ho | ho <;> simp [decodeCtrl, hs, ho]

/-- While no command runs, a CTRL write with a reserved OP raises BadOp (R224). -/
theorem writeCtrl_reserved {w : Word} {s : State} (h : decodeCtrl w = .error .reservedOp) (hb : s.status.busy = false) :
    writeCtrl w s = .next (startBadOp w s) := by
  simp [writeCtrl, h, hb]

/-- Settles O45: the step is the CTRL write, and the START it makes stores the fields before it raises BadOp. -/
theorem reservedOpRaisesBadOp : Obligations.ReservedOpRaisesBadOp := by
  intro s w rest hi hb hw
  have hstep : step s = writeCtrl w { s with inbox := rest } :=
    (step_host hi (by simp)).trans (writeReg_ctrl w { s with inbox := rest })
  exact ⟨_, hstep.trans (writeCtrl_reserved (decodeCtrl_reserved hw) hb), rfl, rfl, rfl, ctrlWord_fields w⟩

/-! ## IDLE -/

/-- Index 0 is at REG_BASE alone (R22). -/
theorem regIndex_eq_zero {p : Params} {addr : Nat} (h : regIndex p addr = some 0) : addr = p.regBase := by
  unfold regIndex at h
  split_ifs at h with hle
  have := Option.some.inj h
  omega

/-- A CTRL word that is an instruction has START = 1 and OP = 1 or 2 (R23, R90). -/
theorem ctrlMask_of_decodeCtrl {w : Word} {i : Instr} (h : decodeCtrl w = .ok i) :
    w &&& 0x80000003 = 0x80000001 ∨ w &&& 0x80000003 = 0x80000002 := by
  rcases decodeCtrl_eq_ok h with rfl | rfl
  · exact .inl ((ctrlSelects_iff w 1).1 (decodeCtrl_eq_decode.1 h).1)
  · exact .inr ((ctrlSelects_iff w 2).1 (decodeCtrl_eq_encode.1 h).1)

/-- A CTRL write that leaves IDLE is an instruction: BadOp ends in IDLE, and a store of the fields leaves PH as it is (R23). -/
theorem writeCtrl_leaves_idle {w : Word} {s t : State} (hp : s.ph = .idle) (h : writeCtrl w s = .next t) (ht : t.ph ≠ .idle) :
    ∃ i, decodeCtrl w = .ok i := by
  unfold writeCtrl at h
  split at h
  · exact ⟨_, ‹_›⟩
  · split_ifs at h <;> cases h
    · exact absurd rfl ht
    · exact absurd hp ht

/-- A register write that leaves IDLE is a write of an instruction to CTRL (R22, R238). -/
theorem writeReg_leaves_idle {addr : Nat} {w : Word} {s t : State} (hp : s.ph = .idle) (h : writeReg addr w s = .next t)
    (ht : t.ph ≠ .idle) : addr = s.params.regBase ∧ ∃ i, decodeCtrl w = .ok i := by
  unfold writeReg at h
  split at h
  · exact ⟨regIndex_eq_zero ‹_›, writeCtrl_leaves_idle hp h ht⟩
  · unfold writeInLen at h
    split_ifs at h
    cases h
    exact absurd hp ht
  · cases h
    exact absurd hp ht

/-- A host action that leaves IDLE is a write of an instruction to CTRL (R238). -/
theorem hostStep_leaves_idle {act : HostAct} {s t : State} (hp : s.ph = .idle) (h : hostStep act s = .next t)
    (ht : t.ph ≠ .idle) : ∃ w i, act = .writeReg s.params.regBase w ∧ decodeCtrl w = .ok i := by
  cases act with
  | writeReg addr w =>
    obtain ⟨rfl, i, hi⟩ := writeReg_leaves_idle hp h ht
    exact ⟨w, i, rfl, hi⟩
  | wait | readReg => cases h; exact absurd hp ht
  | reset => cases h; exact absurd rfl ht
  | writeIn | readOut | writeOut =>
    simp only [hostStep, hostWriteIn, hostReadOut, hostWriteOut] at h
    split_ifs at h
    cases h
    exact absurd hp ht

/-- Settles O53: in IDLE the engine does nothing, and of the host's actions only the write of a command to CTRL leaves it. -/
theorem onlyStartLeavesIdle : Obligations.OnlyStartLeavesIdle := by
  refine ⟨fun s hp hi => (step_engine hi).trans (engineStep_idle hp), fun s t hp h ht => ?_⟩
  rcases step_cases s with ⟨-, he⟩ | ⟨rest, -, he⟩ | ⟨act, rest, hi, -, he⟩ <;> rw [he] at h
  · rw [engineStep_idle hp] at h
    cases h
    exact absurd hp ht
  · rw [engineStep_idle (by exact hp)] at h
    cases h
    exact absurd hp ht
  · obtain ⟨w, i, rfl, hd⟩ := hostStep_leaves_idle (by exact hp) h ht
    exact ⟨w, rest, hi, ctrlMask_of_decodeCtrl hd⟩

/-! ## Error entry -/

/-- Settles O40: each field of error entry by its own law, and its frame. -/
theorem errorEntryReportsAndAborts : Obligations.ErrorEntryReportsAndAborts := fun e s =>
  ⟨raiseError_status e s, raiseError_ph e s, raiseError_outByte e s, raiseError_outLen e s, rfl⟩

end Sys2Proof.Machine

namespace Sys2Proof.Machine

/-! The proofs about reset (70_reset_and_hazards.md): the state it leaves, the reset event, and that the invariant holds there. -/

/-! ## The state at reset -/

/-- CTRL at reset is the word 0 (R250). -/
@[simp] theorem ctrlWord_reset : ctrlWord State.reset.ctrl = 0 := by decide

/-- STATUS at reset is the word 0 (R250). -/
@[simp] theorem statusWord_reset : statusWord State.reset.status = 0 := by decide

/-- At reset the block does nothing: no host action waits, and the engine is in IDLE (R238, R250). -/
theorem step_reset_state : step State.reset = .next State.reset := (step_engine rfl).trans (engineStep_idle rfl)

/-- Settles O55: with REG_BASE 0 the addresses 0 to 3 are the registers' own indices, and each register reads 0. -/
theorem resetValues : Obligations.ResetValues :=
  ⟨ctrlWord_reset, statusWord_reset, rfl, rfl, rfl, rfl, rfl, step_reset_state⟩

/-- Settles O57: the block is idle at reset, and both memories list nothing. -/
theorem resetMeetsTheInvariant : Obligations.ResetMeetsTheInvariant :=
  .of_idle reset_memories_wf.1 reset_memories_wf.2 (by decide) rfl rfl

/-! ## The reset event -/

/-- After the reset event OUT lists nothing, so each of its bytes is free in the next draw (R31, R250; log 17). -/
@[simp] theorem resetEvent_outByte (s : State) (a : Nat) : (resetEvent s).outByte a = Config.freeOutByte (s.draw + 1) a := rfl

/-- A waiting reset is the next step, in every phase of the engine (R250). -/
theorem step_resetEvent {s : State} {rest : List HostAct} (h : s.inbox = .reset :: rest) :
    step s = .next (resetEvent { s with inbox := rest }) := step_host h (by decide)

/-- Settles O56: the step is the reset event, which takes every register from the state at reset. -/
theorem resetEventRestoresTheResetValues : Obligations.ResetEventRestoresTheResetValues := fun s rest h =>
  ⟨_, step_resetEvent h, rfl, rfl, rfl, rfl, rfl, rfl, rfl, rfl, rfl, rfl, resetEvent_outByte { s with inbox := rest }⟩

end Sys2Proof.Machine

namespace Sys2Proof.Machine

/-! The proofs about what the machine refuses: a launch whose result would not fit in OUT, and what the host may not do while
BUSY (20_memory.md, 70_reset_and_hazards.md R256). -/

/-! ## Refused launches -/

/-- While BUSY there is no launch (R22, R256; log 9). -/
theorem launch_busy {op : BitVec 2} {variant nbits : BitVec 8} {fits : State → Bool} {ph : Phase} {s : State}
    (hb : s.status.busy = true) : launch op variant nbits fits ph s = .refused .hostWriteWhileBusy := if_pos hb

/-- An idle machine refuses a launch of legal input length whose result does not fit in OUT (R58, R256; log 8). -/
theorem launch_outCapTooSmall {op : BitVec 2} {variant nbits : BitVec 8} {fits : State → Bool} {ph : Phase} {s : State}
    (hb : s.status.busy = false) (hl : s.inLen.toNat ≤ s.params.maxInLen)
    (hf : ¬fits (storeCtrl op nbits variant s) = true) :
    launch op variant nbits fits ph s = .refused .launchOutCapTooSmall := by
  unfold launch
  dsimp only
  rw [if_neg (by simp [hb]), if_neg (Nat.not_lt.2 hl), if_neg hf]

/-- Settles O52: storing the CTRL fields keeps the header and OUT_CAP, so a result that is too large stays so at the launch. -/
theorem launchNeedsRoomForTheResult : Obligations.LaunchNeedsRoomForTheResult := by
  intro s variant nbits hb hl
  refine ⟨fun size hsize hlt => launch_outCapTooSmall hb hl fun hfits => ?_,
    fun hlo hhi hvar hpos hmax hlt => launch_outCapTooSmall hb hl fun hfits => ?_⟩
  · have hroom : size ≤ s.params.outCap := decodeFits_iff.1 hfits size hsize
    exact Nat.not_le.2 hlt hroom
  · have hroom : encodeBound s.inLen.toNat ≤ s.params.outCap :=
      (encodeFits_iff (s := storeCtrl 2 nbits variant s)).1 hfits (nbitsLegal_iff.2 ⟨hlo, hhi⟩)
        (variantLegal_toNat_iff.2 hvar) hpos hmax
    exact Nat.not_le.2 hlt hroom

/-! ## The host while BUSY -/

/-- While BUSY a CTRL write has no move, whatever its word: a START is no launch, and any other word is refused as it stands
(R22, R256; log 9). -/
theorem writeCtrl_busy {s : State} (hb : s.status.busy = true) (w : Word) : writeCtrl w s = .refused .hostWriteWhileBusy := by
  unfold writeCtrl
  split
  next i hd => obtain rfl | rfl := decodeCtrl_eq_ok hd <;> exact launch_busy hb
  next => exact if_pos hb

/-- While BUSY a write to IN_LEN, which is index 2, has no move (R22, R25). -/
theorem writeReg_inLen_busy {s : State} (hb : s.status.busy = true) (w : Word) :
    writeReg (s.params.regBase + 2) w s = .refused .hostWriteWhileBusy := by
  simp only [writeReg, regIndex_add]
  exact if_pos hb

/-- Settles O50: each of the host's accesses tests BUSY first, and a register read does not. -/
theorem hostDutiesWhileBusy : Obligations.HostDutiesWhileBusy := fun s w _ _ hb =>
  ⟨(writeReg_ctrl w s).trans (writeCtrl_busy hb w), writeReg_inLen_busy hb w, if_pos hb, if_pos hb, if_pos hb, rfl⟩

end Sys2Proof.Machine
